-- ==== Sys2Proof/Word.lean ====
section
/-! DEFINITION. The bit-vector widths the spec names (00_scope R6): a byte and a 32-bit word. -/

namespace Sys2Proof

/-- One byte: a pixel channel, a quantization step, an output byte (30 R63, R64, R77). -/
abbrev Byte := BitVec 8

/-- One 32-bit word: a register as the host sees it, or an operation word (10 R19, 30 R54). -/
abbrev Word := BitVec 32

end Sys2Proof
end

