-- ==== Sys2Proof/Syntax.lean ====
section
/-! DEFINITION. The operations of spec/opcode_table.json: 22 of the core (Format U) and 4 of the host (Format H). -/

namespace Sys2Proof

/-- One constructor per row of the opcode table (30 R58). The component of `DCTR`, `DCTC`, `QNT`, `ENCDC`, `ENCAC`
is part of the operation code, so each component has a constructor of its own. -/
inductive Instr where
  | chk
  | init
  /-- `col`, the left pixel column (30 R57). -/
  | csc (col : BitVec 16)
  | dctr0
  | dctr1
  | dctr2
  | dctc0
  | dctc1
  | dctc2
  | qnt0
  | qnt1
  | qnt2
  | encdc0
  | encdc1
  | encdc2
  | encac0
  | encac1
  | encac2
  /-- `n`, the bit count; `v`, the bits (30 R57). -/
  | putb (n : BitVec 5) (v : BitVec 16)
  | fin
  | halt
  /-- `e`, the error code (30 R57). -/
  | trap (e : BitVec 4)
  | hwr8 (addr : Word) (data : Byte)
  | hwr32 (addr : Word) (data : Word)
  /-- `seen` is W2: zero in a program listing, the byte returned in a trace (30 R56). -/
  | hrd8 (addr : Word) (seen : Byte)
  /-- `seen` is W2: zero in a program listing, the word returned in a trace (30 R56). -/
  | hrd32 (addr : Word) (seen : Word)
deriving DecidableEq, Repr

end Sys2Proof
end

