-- ==== Sys2Proof/WellFormed.lean ====
section
/-! DEFINITION. The legal operand values of 30 R57: which terms of `Instr` are operations of the hardware. -/

namespace Sys2Proof

/-- 30 R57, column "legal values". The fields' widths already say the rest. -/
def Instr.wellFormed : Instr → Bool
  | .csc col => col.toNat % 8 == 0
  | .putb n v => decide (n.toNat ≤ 16) && decide (v.toNat < 2 ^ n.toNat)
  | .trap e => decide (1 ≤ e.toNat) && decide (e.toNat ≤ 3)
  | .chk | .init | .dctr0 | .dctr1 | .dctr2 | .dctc0 | .dctc1 | .dctc2 | .qnt0 | .qnt1 | .qnt2
  | .encdc0 | .encdc1 | .encdc2 | .encac0 | .encac1 | .encac2 | .fin | .halt
  | .hwr8 _ _ | .hwr32 _ _ | .hrd8 _ _ | .hrd32 _ _ => true

/-- The operations of the host (Format H, 30 R56): the only ones a host can issue (45 R129). -/
def Instr.isHost : Instr → Bool
  | .hwr8 _ _ | .hwr32 _ _ | .hrd8 _ _ | .hrd32 _ _ => true
  | .chk | .init | .csc _ | .dctr0 | .dctr1 | .dctr2 | .dctc0 | .dctc1 | .dctc2 | .qnt0 | .qnt1 | .qnt2
  | .encdc0 | .encdc1 | .encdc2 | .encac0 | .encac1 | .encac2 | .putb _ _ | .fin | .halt | .trap _ => false

end Sys2Proof
end

