-- ==== Sys2Proof/Decode.lean ====
section
/-! DEFINITION. Operation words (30 Part A): the decoder, total on any list of words and rejecting by name, and the
encoder, both written from 30 R55 to R58. -/

namespace Sys2Proof

/-- Why a list of words decodes to nothing (30 R59). -/
inductive DecodeError where
  /-- The list ends before the operation does. -/
  | truncated
  /-- The operation code of the first word is not assigned (30 R58, R59). -/
  | reservedOp (op : BitVec 8)
  /-- The operand bits break a "legal values" or "zero" column of 30 R56 or R57. -/
  | reservedOperand (op : BitVec 8)
deriving DecidableEq, Repr

/-- `op = word[31:24]` (30 R55). -/
def opOf (w : Word) : BitVec 8 := w.extractLsb' 24 8

/-- `imm = word[23:0]` (30 R55). -/
def immOf (w : Word) : BitVec 24 := w.extractLsb' 0 24

/-- Bit 31 tells the format: 0 is Format U, 1 is Format H (30 R54). -/
def isFormatH (w : Word) : Bool := w.getLsbD 31

/-- An operation with no operand: all of `imm` is zero (30 R57). -/
def decodePlain (w : Word) (i : Instr) : Except DecodeError Instr :=
  if immOf w = 0 then .ok i else .error (.reservedOperand (opOf w))

/-- `CSC`: `imm[15:0]` is a multiple of 8, `imm[23:16]` zero (30 R57). -/
def decodeCsc (w : Word) : Except DecodeError Instr :=
  if w.extractLsb' 16 8 = 0 ∧ (w.extractLsb' 0 16).toNat % 8 = 0 then .ok (.csc (w.extractLsb' 0 16))
  else .error (.reservedOperand (opOf w))

/-- `PUTB`: `imm[20:16]` is at most 16, `imm[15:0] < 2^n`, `imm[23:21]` zero (30 R57). -/
def decodePutb (w : Word) : Except DecodeError Instr :=
  if w.extractLsb' 21 3 = 0 ∧ (w.extractLsb' 16 5).toNat ≤ 16 ∧
      (w.extractLsb' 0 16).toNat < 2 ^ (w.extractLsb' 16 5).toNat then
    .ok (.putb (w.extractLsb' 16 5) (w.extractLsb' 0 16))
  else .error (.reservedOperand (opOf w))

/-- `TRAP`: `imm[3:0]` is 1, 2 or 3, `imm[23:4]` zero (30 R57). -/
def decodeTrap (w : Word) : Except DecodeError Instr :=
  if w.extractLsb' 4 20 = 0 ∧ 1 ≤ (w.extractLsb' 0 4).toNat ∧ (w.extractLsb' 0 4).toNat ≤ 3 then
    .ok (.trap (w.extractLsb' 0 4))
  else .error (.reservedOperand (opOf w))

/-- One Format U word (30 R55, R57, R58). -/
def decodeU (w : Word) : Except DecodeError Instr :=
  match (opOf w).toNat with
  | 0x10 => decodePlain w .chk
  | 0x14 => decodePlain w .init
  | 0x18 => decodeCsc w
  | 0x20 => decodePlain w .dctr0
  | 0x21 => decodePlain w .dctr1
  | 0x22 => decodePlain w .dctr2
  | 0x24 => decodePlain w .dctc0
  | 0x25 => decodePlain w .dctc1
  | 0x26 => decodePlain w .dctc2
  | 0x28 => decodePlain w .qnt0
  | 0x29 => decodePlain w .qnt1
  | 0x2A => decodePlain w .qnt2
  | 0x30 => decodePlain w .encdc0
  | 0x31 => decodePlain w .encdc1
  | 0x32 => decodePlain w .encdc2
  | 0x34 => decodePlain w .encac0
  | 0x35 => decodePlain w .encac1
  | 0x36 => decodePlain w .encac2
  | 0x40 => decodePutb w
  | 0x44 => decodePlain w .fin
  | 0x48 => decodePlain w .halt
  | 0x4C => decodeTrap w
  | _ => .error (.reservedOp (opOf w))

/-- A Format H operation whose data word is one byte: W2[31:8] is zero (30 R56). -/
def decodeByteData (w0 w2 : Word) (mk : Byte → Instr) : Except DecodeError Instr :=
  if immOf w0 = 0 ∧ w2.extractLsb' 8 24 = 0 then .ok (mk (w2.extractLsb' 0 8))
  else .error (.reservedOperand (opOf w0))

/-- The three words of Format H (30 R56). -/
def decodeH (w0 w1 w2 : Word) : Except DecodeError Instr :=
  match (opOf w0).toNat with
  | 0x80 => decodeByteData w0 w2 (.hwr8 w1)
  | 0x81 => decodePlain w0 (.hwr32 w1 w2)
  | 0x84 => decodeByteData w0 w2 (.hrd8 w1)
  | 0x85 => decodePlain w0 (.hrd32 w1 w2)
  | _ => .error (.reservedOp (opOf w0))

/-- "A decoder reads one word, tests bit 31, and for Format H reads two more words" (30 R60).
The answer holds the words after the operation. -/
def decode : List Word → Except DecodeError (Instr × List Word)
  | [] => .error .truncated
  | w0 :: rest =>
    if isFormatH w0 then
      match rest with
      | w1 :: w2 :: rest => (decodeH w0 w1 w2).map (·, rest)
      | _ => .error .truncated
    else (decodeU w0).map (·, rest)

/-- The words of an operation (30 R55 to R58). `PUTB v, n` records `v mod 2^n` (44 R121). -/
def encode : Instr → List Word
  | .chk => [0x10000000]
  | .init => [0x14000000]
  | .csc col => [0x18#8 ++ 0#8 ++ col]
  | .dctr0 => [0x20000000]
  | .dctr1 => [0x21000000]
  | .dctr2 => [0x22000000]
  | .dctc0 => [0x24000000]
  | .dctc1 => [0x25000000]
  | .dctc2 => [0x26000000]
  | .qnt0 => [0x28000000]
  | .qnt1 => [0x29000000]
  | .qnt2 => [0x2A000000]
  | .encdc0 => [0x30000000]
  | .encdc1 => [0x31000000]
  | .encdc2 => [0x32000000]
  | .encac0 => [0x34000000]
  | .encac1 => [0x35000000]
  | .encac2 => [0x36000000]
  | .putb n v => [0x40#8 ++ 0#3 ++ n ++ BitVec.ofNat 16 (v.toNat % 2 ^ n.toNat)]
  | .fin => [0x44000000]
  | .halt => [0x48000000]
  | .trap e => [0x4C#8 ++ 0#20 ++ e]
  | .hwr8 addr data => [0x80000000, addr, 0#24 ++ data]
  | .hwr32 addr data => [0x81000000, addr, data]
  | .hrd8 addr seen => [0x84000000, addr, 0#24 ++ seen]
  | .hrd32 addr seen => [0x85000000, addr, seen]

/-- The words of the instruction whose bits are `w`, numbered as spec/opcode_table.json numbers them: word 0 is bits
31..0, word 1 bits 63..32, word 2 bits 95..64; bits at and above `nbits` are zero; three words when bit 31 says Format H,
else one (30 R54). -/
def tableWords (nbits w : Nat) : List Word :=
  let w := w % 2 ^ nbits
  if isFormatH (BitVec.ofNat 32 w) then
    [BitVec.ofNat 32 w, BitVec.ofNat 32 (w / 2 ^ 32), BitVec.ofNat 32 (w / 2 ^ 64)]
  else [BitVec.ofNat 32 w]

/-- What this decoder reads from an instruction of the opcode table whose bits are `w`. -/
def decodeTableWord (nbits w : Nat) : Option Instr :=
  match decode (tableWords nbits w) with
  | .ok (i, _) => some i
  | .error _ => none

end Sys2Proof
end

