-- ==== Sys2Proof/Config.lean ====
section
/-! DEFINITION. What an instance fixes (10 R34, 93 section 2) as plain data, and the free values of the model:
constants with no body, so that nothing in Lean can evaluate one or prove a value of it. -/

namespace Sys2Proof

/-- What one register of `SB` holds: a value of the instance's carrier (00 R8, 10 R13). -/
inductive Sample where
  /-- a rational number, the carrier of `Q30` (00 R9) -/
  | exact (q : Rat)
  /-- the register pattern of a carrier value of any other instance; two values have two patterns -/
  | pattern (n : Nat)
deriving DecidableEq, Repr

/-- The seven constants of the DCT constant ROM `K` (10 R31, 41 R88). -/
inductive DctConst where
  | ka | k1 | k2 | k3 | k5 | k6 | k7
deriving DecidableEq, Repr

/-- The record of 00 R8 for a carrier of `top + 1` values, as plain data: the carrier type is `Fin (top + 1)`, and every
operation is the table of its results. A missing entry is pattern 0 (or the integer 0), so that the operations are total.
Every carrier that registers of a fixed number of bits hold is of this form, IEEE 754 binary64 with `top = 2^64 - 1`. -/
structure FiniteArith where
  top : Nat
  /-- the bytes and the decimal constants of 40 R83 as carrier values -/
  lits : List (Rat × Fin (top + 1))
  /-- row `x`, column `y`: the result of the operation on `x` and `y` -/
  sums : List (List (Fin (top + 1)))
  differences : List (List (Fin (top + 1)))
  products : List (List (Fin (top + 1)))
  /-- the seven DCT constants, in the order of `DctConst` -/
  consts : List (Fin (top + 1))
  /-- row `x`, column `step`: `RHA` of `x` divided by `step` -/
  quotients : List (List Int)
deriving DecidableEq, Repr

/-- The parameter `ARITH` (00 R8, R9; log entry 12). -/
inductive Arith where
  /-- the default instance -/
  | q30
  /-- an instance given by its record, with a finite carrier -/
  | finite (T : FiniteArith)
  /-- an instance with a countable carrier, known by a number: its operations are free values -/
  | other (id : Nat)
deriving DecidableEq, Repr

/-- The parameter `MISS_POLICY` (43 R107, R119). -/
inductive MissPolicy where
  | placeholder
  | fault
deriving DecidableEq, Repr

/-- A valid entry of a Huffman ROM: `code`, and `len` in 1..16 by its type (30 R70). -/
structure HuffCode where
  code : BitVec 16
  /-- the code length less one -/
  lenPred : Fin 16
deriving DecidableEq, Repr, Inhabited

/-- The code length, 1..16 (30 R70). -/
def HuffCode.len (c : HuffCode) : Nat := c.lenPred.val + 1

/-- One ROM image, indexed by the symbol. `none` is an entry with `valid = 0`, whose `code` and `len` are ignored
(30 R70); an index past the list's end is such an entry too. -/
abbrev HuffRom := List (Option HuffCode)

/-- The parameter `HUFF`: the four ROM images (10 R29, 30 R70). -/
structure HuffRoms where
  dcLuma : HuffRom
  dcChroma : HuffRom
  acLuma : HuffRom
  acChroma : HuffRom
deriving DecidableEq, Repr

/-- The parameters of an instance (93 section 2), fixed for its life (10 R34). -/
structure Config where
  arith : Arith
  huff : HuffRoms
  missPolicy : MissPolicy
  /-- `BASE` divided by 2^25 (20 R38). -/
  baseTop : BitVec 7
deriving DecidableEq, Repr

/-- `BASE`, a multiple of 2^25 (20 R38). -/
def Config.base (c : Config) : Word := c.baseTop ++ 0#25

/-- The host's bus address of the byte offset that a host operation carries (20 R38, R39). -/
def Config.busAddress (c : Config) (offset : Word) : Word := c.base + offset

/-! Free values. `tick` is the model's counter, which every step advances, and the second number tells apart the
free values of one step. -/

/-- A free value of `w` bits (log entry 5). -/
opaque Config.freeBits (w : Nat) (tick index : Nat) : BitVec w

/-- A free Huffman code, for a symbol that indexes no ROM entry (log entry 9). -/
opaque Config.freeCode (tick index : Nat) : HuffCode

/-- A free rational and a free pattern, what reset leaves in `SB` (10 R35, log entry 20). -/
opaque Config.freeExact (tick index : Nat) : Rat
opaque Config.freePattern (tick index : Nat) : Nat

/-- What a register that holds no value of the instance's carrier counts as (log entry 12). -/
opaque Config.foreignExact (x : Sample) : Rat
opaque Config.foreignPattern (x : Sample) : Nat

/-- Free memory contents, what reset leaves in a memory (10 R35, log entry 20). -/
opaque Config.freeCells (tick index : Nat) : List Host.Cell

/-! The operations of an instance known by a number only: total functions on the patterns of its carrier and nothing more
(00 R8, log entry 12). -/

/-- A byte or a decimal constant as a value of the instance. -/
opaque Config.otherLit (id : Nat) (q : Rat) : Nat
opaque Config.otherAdd (id : Nat) (x y : Nat) : Nat
opaque Config.otherSub (id : Nat) (x y : Nat) : Nat
opaque Config.otherMul (id : Nat) (x y : Nat) : Nat
/-- The DCT constants as values of the instance. -/
opaque Config.otherConst (id : Nat) (k : DctConst) : Nat
/-- `RHA` of the quotient of a value and a positive step. -/
opaque Config.otherRound (id : Nat) (x : Nat) (step : Nat) : Int

end Sys2Proof
end

