-- ==== Sys2Proof/Machine/Roms.lean ====
section
/-! DEFINITION. The constant tables: the zig-zag ROM (30 R76), the DCT constants under `Q30` (41 R88), the four
Huffman ROMs `HUFF_STD` (30 R71 to R74), and the default configuration. -/

namespace Sys2Proof.Machine

open Sys2Proof

/-- `ZZ_POS[i]`, natural index to scan position (30 R76), row by row. -/
def zzPosTable : List Nat :=
  [0, 1, 5, 6, 14, 15, 27, 28] ++
  [2, 4, 7, 13, 16, 26, 29, 42] ++
  [3, 8, 12, 17, 25, 30, 41, 43] ++
  [9, 11, 18, 24, 31, 40, 44, 53] ++
  [10, 19, 23, 32, 39, 45, 52, 54] ++
  [20, 22, 33, 38, 46, 51, 55, 60] ++
  [21, 34, 37, 47, 50, 56, 59, 61] ++
  [35, 36, 48, 49, 57, 58, 62, 63]

/-- `ZZ_NAT[k]`, scan position to natural index (30 R76). -/
def zzNatTable : List Nat :=
  [0, 1, 8, 16, 9, 2, 3, 10, 17, 24, 32, 25, 18, 11, 4, 5] ++
  [12, 19, 26, 33, 40, 48, 41, 34, 27, 20, 13, 6, 7, 14, 21, 28] ++
  [35, 42, 49, 56, 57, 50, 43, 36, 29, 22, 15, 23, 30, 37, 44, 51] ++
  [58, 59, 52, 45, 38, 31, 39, 46, 53, 60, 61, 54, 47, 55, 62, 63]

/-- `ZZ_POS` as a function; the remainder only makes it total on all naturals. -/
def zzPos (i : Nat) : Fin 64 := Fin.ofNat 64 (zzPosTable.getD i 0)

/-- `ZZ_NAT` as a function. -/
def zzNat (k : Nat) : Fin 64 := Fin.ofNat 64 (zzNatTable.getD k 0)

/-- The `Q30` numerators over 2^30 of the seven DCT constants (41 R88). -/
def dctNumerator : DctConst → Nat
  | .ka => 379625062
  | .k1 => 526555088
  | .k2 => 496004047
  | .k3 => 446391849
  | .k5 => 298269498
  | .k6 => 205451603
  | .k7 => 104738319

/-- A ROM entry written `len/code` as in 30 R73: valid, `len` in 1..16. -/
def huffEntry (len code : Nat) : Option HuffCode :=
  some ⟨BitVec.ofNat 16 code, Fin.ofNat 16 (len - 1)⟩

/-- The sixteen entries of one `run` of an AC ROM: size 0, then sizes 1 to 10, then the invalid sizes 11 to 15. -/
def acRow (size0 : Option HuffCode) (sizes : List (Nat × Nat)) : HuffRom :=
  size0 :: sizes.map (fun e => huffEntry e.1 e.2) ++ List.replicate 5 none

/-- DC luma (30 R72): categories 0 to 11, then 12 to 15 invalid. -/
def dcLumaStd : HuffRom :=
  [(2, 0x0), (3, 0x2), (3, 0x3), (3, 0x4), (3, 0x5), (3, 0x6), (4, 0xE), (5, 0x1E), (6, 0x3E), (7, 0x7E), (8, 0xFE),
    (9, 0x1FE)].map (fun e => huffEntry e.1 e.2) ++ List.replicate 4 none

/-- DC chroma (30 R72). -/
def dcChromaStd : HuffRom :=
  [(2, 0x0), (2, 0x1), (2, 0x2), (3, 0x6), (4, 0xE), (5, 0x1E), (6, 0x3E), (7, 0x7E), (8, 0xFE), (9, 0x1FE), (10, 0x3FE),
    (11, 0x7FE)].map (fun e => huffEntry e.1 e.2) ++ List.replicate 4 none

/-- AC luma (30 R73); EOB and ZRL are the size-0 entries of runs 0 and 15. -/
def acLumaStd : HuffRom :=
  acRow (huffEntry 4 0xA) [(2, 0x0), (2, 0x1), (3, 0x4), (4, 0xB), (5, 0x1A), (7, 0x78), (8, 0xF8), (10, 0x3F6), (16, 0xFF82), (16, 0xFF83)] ++
  acRow none [(4, 0xC), (5, 0x1B), (7, 0x79), (9, 0x1F6), (11, 0x7F6), (16, 0xFF84), (16, 0xFF85), (16, 0xFF86), (16, 0xFF87), (16, 0xFF88)] ++
  acRow none [(5, 0x1C), (8, 0xF9), (10, 0x3F7), (12, 0xFF4), (16, 0xFF89), (16, 0xFF8A), (16, 0xFF8B), (16, 0xFF8C), (16, 0xFF8D), (16, 0xFF8E)] ++
  acRow none [(6, 0x3A), (9, 0x1F7), (12, 0xFF5), (16, 0xFF8F), (16, 0xFF90), (16, 0xFF91), (16, 0xFF92), (16, 0xFF93), (16, 0xFF94), (16, 0xFF95)] ++
  acRow none [(6, 0x3B), (10, 0x3F8), (16, 0xFF96), (16, 0xFF97), (16, 0xFF98), (16, 0xFF99), (16, 0xFF9A), (16, 0xFF9B), (16, 0xFF9C), (16, 0xFF9D)] ++
  acRow none [(7, 0x7A), (11, 0x7F7), (16, 0xFF9E), (16, 0xFF9F), (16, 0xFFA0), (16, 0xFFA1), (16, 0xFFA2), (16, 0xFFA3), (16, 0xFFA4), (16, 0xFFA5)] ++
  acRow none [(7, 0x7B), (12, 0xFF6), (16, 0xFFA6), (16, 0xFFA7), (16, 0xFFA8), (16, 0xFFA9), (16, 0xFFAA), (16, 0xFFAB), (16, 0xFFAC), (16, 0xFFAD)] ++
  acRow none [(8, 0xFA), (12, 0xFF7), (16, 0xFFAE), (16, 0xFFAF), (16, 0xFFB0), (16, 0xFFB1), (16, 0xFFB2), (16, 0xFFB3), (16, 0xFFB4), (16, 0xFFB5)] ++
  acRow none [(9, 0x1F8), (15, 0x7FC0), (16, 0xFFB6), (16, 0xFFB7), (16, 0xFFB8), (16, 0xFFB9), (16, 0xFFBA), (16, 0xFFBB), (16, 0xFFBC), (16, 0xFFBD)] ++
  acRow none [(9, 0x1F9), (16, 0xFFBE), (16, 0xFFBF), (16, 0xFFC0), (16, 0xFFC1), (16, 0xFFC2), (16, 0xFFC3), (16, 0xFFC4), (16, 0xFFC5), (16, 0xFFC6)] ++
  acRow none [(9, 0x1FA), (16, 0xFFC7), (16, 0xFFC8), (16, 0xFFC9), (16, 0xFFCA), (16, 0xFFCB), (16, 0xFFCC), (16, 0xFFCD), (16, 0xFFCE), (16, 0xFFCF)] ++
  acRow none [(10, 0x3F9), (16, 0xFFD0), (16, 0xFFD1), (16, 0xFFD2), (16, 0xFFD3), (16, 0xFFD4), (16, 0xFFD5), (16, 0xFFD6), (16, 0xFFD7), (16, 0xFFD8)] ++
  acRow none [(10, 0x3FA), (16, 0xFFD9), (16, 0xFFDA), (16, 0xFFDB), (16, 0xFFDC), (16, 0xFFDD), (16, 0xFFDE), (16, 0xFFDF), (16, 0xFFE0), (16, 0xFFE1)] ++
  acRow none [(11, 0x7F8), (16, 0xFFE2), (16, 0xFFE3), (16, 0xFFE4), (16, 0xFFE5), (16, 0xFFE6), (16, 0xFFE7), (16, 0xFFE8), (16, 0xFFE9), (16, 0xFFEA)] ++
  acRow none [(16, 0xFFEB), (16, 0xFFEC), (16, 0xFFED), (16, 0xFFEE), (16, 0xFFEF), (16, 0xFFF0), (16, 0xFFF1), (16, 0xFFF2), (16, 0xFFF3), (16, 0xFFF4)] ++
  acRow (huffEntry 11 0x7F9) [(16, 0xFFF5), (16, 0xFFF6), (16, 0xFFF7), (16, 0xFFF8), (16, 0xFFF9), (16, 0xFFFA), (16, 0xFFFB), (16, 0xFFFC), (16, 0xFFFD), (16, 0xFFFE)]

/-- AC chroma (30 R74). -/
def acChromaStd : HuffRom :=
  acRow (huffEntry 2 0x0) [(2, 0x1), (3, 0x4), (4, 0xA), (5, 0x18), (5, 0x19), (6, 0x38), (7, 0x78), (9, 0x1F4), (10, 0x3F6), (12, 0xFF4)] ++
  acRow none [(4, 0xB), (6, 0x39), (8, 0xF6), (9, 0x1F5), (11, 0x7F6), (12, 0xFF5), (16, 0xFF88), (16, 0xFF89), (16, 0xFF8A), (16, 0xFF8B)] ++
  acRow none [(5, 0x1A), (8, 0xF7), (10, 0x3F7), (12, 0xFF6), (15, 0x7FC2), (16, 0xFF8C), (16, 0xFF8D), (16, 0xFF8E), (16, 0xFF8F), (16, 0xFF90)] ++
  acRow none [(5, 0x1B), (8, 0xF8), (10, 0x3F8), (12, 0xFF7), (16, 0xFF91), (16, 0xFF92), (16, 0xFF93), (16, 0xFF94), (16, 0xFF95), (16, 0xFF96)] ++
  acRow none [(6, 0x3A), (9, 0x1F6), (16, 0xFF97), (16, 0xFF98), (16, 0xFF99), (16, 0xFF9A), (16, 0xFF9B), (16, 0xFF9C), (16, 0xFF9D), (16, 0xFF9E)] ++
  acRow none [(6, 0x3B), (10, 0x3F9), (16, 0xFF9F), (16, 0xFFA0), (16, 0xFFA1), (16, 0xFFA2), (16, 0xFFA3), (16, 0xFFA4), (16, 0xFFA5), (16, 0xFFA6)] ++
  acRow none [(7, 0x79), (11, 0x7F7), (16, 0xFFA7), (16, 0xFFA8), (16, 0xFFA9), (16, 0xFFAA), (16, 0xFFAB), (16, 0xFFAC), (16, 0xFFAD), (16, 0xFFAE)] ++
  acRow none [(7, 0x7A), (11, 0x7F8), (16, 0xFFAF), (16, 0xFFB0), (16, 0xFFB1), (16, 0xFFB2), (16, 0xFFB3), (16, 0xFFB4), (16, 0xFFB5), (16, 0xFFB6)] ++
  acRow none [(8, 0xF9), (16, 0xFFB7), (16, 0xFFB8), (16, 0xFFB9), (16, 0xFFBA), (16, 0xFFBB), (16, 0xFFBC), (16, 0xFFBD), (16, 0xFFBE), (16, 0xFFBF)] ++
  acRow none [(9, 0x1F7), (16, 0xFFC0), (16, 0xFFC1), (16, 0xFFC2), (16, 0xFFC3), (16, 0xFFC4), (16, 0xFFC5), (16, 0xFFC6), (16, 0xFFC7), (16, 0xFFC8)] ++
  acRow none [(9, 0x1F8), (16, 0xFFC9), (16, 0xFFCA), (16, 0xFFCB), (16, 0xFFCC), (16, 0xFFCD), (16, 0xFFCE), (16, 0xFFCF), (16, 0xFFD0), (16, 0xFFD1)] ++
  acRow none [(9, 0x1F9), (16, 0xFFD2), (16, 0xFFD3), (16, 0xFFD4), (16, 0xFFD5), (16, 0xFFD6), (16, 0xFFD7), (16, 0xFFD8), (16, 0xFFD9), (16, 0xFFDA)] ++
  acRow none [(9, 0x1FA), (16, 0xFFDB), (16, 0xFFDC), (16, 0xFFDD), (16, 0xFFDE), (16, 0xFFDF), (16, 0xFFE0), (16, 0xFFE1), (16, 0xFFE2), (16, 0xFFE3)] ++
  acRow none [(11, 0x7F9), (16, 0xFFE4), (16, 0xFFE5), (16, 0xFFE6), (16, 0xFFE7), (16, 0xFFE8), (16, 0xFFE9), (16, 0xFFEA), (16, 0xFFEB), (16, 0xFFEC)] ++
  acRow none [(14, 0x3FE0), (16, 0xFFED), (16, 0xFFEE), (16, 0xFFEF), (16, 0xFFF0), (16, 0xFFF1), (16, 0xFFF2), (16, 0xFFF3), (16, 0xFFF4), (16, 0xFFF5)] ++
  acRow (huffEntry 10 0x3FA) [(15, 0x7FC3), (16, 0xFFF6), (16, 0xFFF7), (16, 0xFFF8), (16, 0xFFF9), (16, 0xFFFA), (16, 0xFFFB), (16, 0xFFFC), (16, 0xFFFD), (16, 0xFFFE)]

/-- `HUFF_STD` (30 R71 to R74). -/
def huffStd : HuffRoms :=
  { dcLuma := dcLumaStd, dcChroma := dcChromaStd, acLuma := acLumaStd, acChroma := acChromaStd }

/-- The canonical assignment of codes of 30 R71: from `BITS` (how many codes have each length, from length `len` on) and
`HUFFVAL` (the symbols in order), the pairs (symbol, entry). -/
def canonicalCodes : (bits : List Nat) → (len code : Nat) → (huffval : List Nat) → List (Nat × Option HuffCode)
  | [], _, _, _ => []
  | n :: bits, len, code, vals =>
    (vals.take n).mapIdx (fun j s => (s, huffEntry len (code + j))) ++
      canonicalCodes bits (len + 1) ((code + n) * 2) (vals.drop n)

/-- The default instance of every parameter (93 section 2). -/
def stdConfig : Config :=
  { arith := .q30, huff := huffStd, missPolicy := .placeholder, baseTop := 0 }

end Sys2Proof.Machine
end

