-- ==== Sys2Proof/Machine/State.lean ====
section
/-! DEFINITION. The machine's state as plain data (10_state.md): the hardware's own fields (R12, exactly these), the
configuration (R34), and the model's environment, and the state after reset (R35). -/

namespace Sys2Proof.Machine

open Sys2Proof

/-- The three components, in coding order: 0 is Y, 1 is Cb, 2 is Cr (00 R5). -/
inductive Component where
  | y | cb | cr
deriving DecidableEq, Repr

/-- One value per component. -/
structure Triple (α : Type) where
  y : α
  cb : α
  cr : α
deriving DecidableEq, Repr

/-- A block of 8x8 entries, row-major: entry `8 * row + column` (00 R5, 10 R13). -/
abbrev Block (α : Type) := Vector α 64

/-- `SEQ.PH`: the operation the core executes at its next step, or `IDLE` (10 R18). -/
inductive Phase where
  | idle | chk | init | csc
  | dctr0 | dctc0 | qnt0 | dctr1 | dctc1 | qnt1 | dctr2 | dctc2 | qnt2
  | encdc0 | encac0 | encdc1 | encac1 | encdc2 | encac2
  | fin | halt
deriving DecidableEq, Repr

/-- `SEQ`, what plays the part of the program counter (10 R18). -/
structure Seq where
  ph : Phase
  col : BitVec 17
deriving DecidableEq, Repr

/-- `STATUS` by its fields; its reserved bits read 0 and hold nothing (10 R19, R21). -/
structure Status where
  busy : Bool
  done : Bool
  err : Bool
  errcode : BitVec 4
deriving DecidableEq, Repr

/-- The contents of one memory: (index, byte) pairs with strictly rising indices, none equal to what an unlisted index
reads as. -/
abbrev Memory := List Host.Cell

/-- The complete state of one SJC instance "and nothing else" (10 R12). `CTRL` holds no value (10 R20). -/
structure Hardware where
  /-- `SB[c][i]` (10 R13) -/
  sb : Triple (Block Sample)
  /-- `CF[c][i]`, two's complement (10 R14) -/
  cf : Triple (Block (BitVec 16))
  /-- `PRED[c]`, two's complement (10 R15) -/
  pred : Triple (BitVec 16)
  /-- `RUN`, `K`, `LAST` (10 R17) -/
  run : BitVec 5
  k : BitVec 6
  last : BitVec 6
  /-- `ACC`, `CNT` (10 R16) -/
  acc : BitVec 32
  cnt : BitVec 5
  seq : Seq
  status : Status
  width : BitVec 16
  pixlen : BitVec 32
  qllen : BitVec 8
  qclen : BitVec 8
  outlen : BitVec 32
  pix : Memory
  ql : Memory
  qc : Memory
  out : Memory
deriving DecidableEq, Repr

/-- What the host last saw on its bus: nothing yet, a completed write (one that was ignored completes too, 20 R52), the
value of a read (45 R131, R133), or a bus error (60 R167). -/
inductive BusResponse where
  | none
  | written
  | word (w : Word)
  | byte (b : Byte)
  | error
deriving DecidableEq, Repr

/-- Who moves: the core, the host, or the reset input (00 R11, 70 R169). -/
inductive Turn where
  | core | host | reset
deriving DecidableEq, Repr

/-- The model's own fields: what surrounds the hardware. -/
structure Environment where
  /-- the operation words (30 R54) that the host agent has still to perform, first word first (log entry 1) -/
  listing : List Word
  /-- who moves next, first turn first (log entry 2) -/
  turns : List Turn
  /-- what the host last saw (log entry 11) -/
  resp : BusResponse
  /-- the counter that free values are taken at (log entry 5) -/
  tick : Nat
deriving DecidableEq, Repr

structure State where
  hw : Hardware
  cfg : Config
  env : Environment
deriving DecidableEq, Repr

/-- Why the machine stops. Neither is a fault of the spec: its errors are next states (60 R155). -/
inductive Fault where
  /-- Raised by `emit` (so by `PUTB`, `FIN`, `ENCDC`, `ENCAC`) at an `OUT` index of `OUT_CAP` or above, which does not
  exist (20 R42: "make an out-of-range core access a fault and prove it unreachable"). Safe. -/
  | outIndex
  /-- Raised by the step at a `CSC` phase whose `SEQ.COL` needs the 17th bit: no such `CSC` exists (30 R57). Unreachable
  in a run. Safe. -/
  | cscColumn
deriving DecidableEq, Repr

/-- Why an operation has no meaning. -/
inductive Refusal where
  /-- Raised by `exec` for an instruction the model does not cover yet. Safe. -/
  | notModelled (mnemonic : String)
  /-- Raised by the step at a listing word that decodes to nothing: the listing is ill-formed (30 R59). Safe. -/
  | reservedWord (e : DecodeError)
  /-- Raised by `PUTB` with a bit count above 16, which has no meaning (44 R126) and no encoding (30 R57). Safe. -/
  | putbCount
  /-- Raised by `CSC` and `TRAP` on an operand that has no encoding (30 R57, R59); no decoded word holds one. Safe. -/
  | reservedOperand
deriving DecidableEq, Repr

/-- The hardware after reset (10 R35). `STATUS`, the six other registers and `SEQ.PH` as the table says; every other
register is "unspecified" there and 0 here (log entry 4); nothing is listed in a memory (log entry 3). -/
def Hardware.reset : Hardware :=
  { sb := ⟨Vector.replicate 64 (.exact 0), Vector.replicate 64 (.exact 0), Vector.replicate 64 (.exact 0)⟩
    cf := ⟨Vector.replicate 64 0, Vector.replicate 64 0, Vector.replicate 64 0⟩
    pred := ⟨0, 0, 0⟩
    run := 0, k := 0, last := 0
    acc := 0, cnt := 0
    seq := { ph := .idle, col := 0 }
    status := { busy := false, done := false, err := false, errcode := 0 }
    width := 0, pixlen := 0, qllen := 0, qclen := 0, outlen := 0
    pix := [], ql := [], qc := [], out := [] }

/-- The machine right after reset: the default configuration (93 section 2), and nothing for the host to do. -/
def State.reset : State :=
  { hw := Hardware.reset
    cfg := stdConfig
    env := { listing := [], turns := [], resp := .none, tick := 0 } }

end Sys2Proof.Machine
end

