-- ==== Sys2Proof/Machine/Flags.lean ====
section
/-! DEFINITION. STATUS, "the hardware's only flags" (10 R21): no operation of the datapath sets a flag as a side
effect; only START, CLR, HALT, TRAP and reset write it. -/

namespace Sys2Proof.Machine

open Sys2Proof

/-- 0x00: idle, nothing to report (10 R21). -/
def statusIdle : Status := { busy := false, done := false, err := false, errcode := 0 }

/-- 0x01: a run is in progress (45 R134). -/
def statusBusy : Status := { busy := true, done := false, err := false, errcode := 0 }

/-- 0x02: the last run returned normally (45 R140). -/
def statusDone : Status := { busy := false, done := true, err := false, errcode := 0 }

/-- `(e << 4) | 0x4`: the last run failed with error `e` (45 R141, 60 R155). -/
def statusTrap (e : BitVec 4) : Status := { busy := false, done := false, err := true, errcode := e }

/-- `STATUS` as the host reads it: `ERRCODE` in bits 7:4, bit 3 zero, `ERR`, `DONE`, `BUSY` in bits 2, 1, 0 (10 R21). -/
def statusWord (st : Status) : Word :=
  0#24 ++ st.errcode ++ 0#1 ++ BitVec.ofBool st.err ++ BitVec.ofBool st.done ++ BitVec.ofBool st.busy

end Sys2Proof.Machine
end

