-- ==== Sys2Proof/Machine/Ops.lean ====
section
/-! DEFINITION. The named operations over memory and registers, the launch and the end of a run, and the trap: one
definition each, shared by every operation that uses it. -/

namespace Sys2Proof.Machine

open Sys2Proof

/-! ## Memory -/

/-- What an unlisted byte reads as: the spec gives no contents (10 R35, 20 R53); log entry 3. -/
def unlistedByte : Byte := 0

/-- `MemRead(S, a, 1)` (00 R7). -/
def readByte : Memory → Nat → Byte
  | [], _ => unlistedByte
  | (a', b) :: m, a => if a = a' then b else readByte m a

/-- `MemWrite(S, a, 1, b)` (00 R7), keeping the canonical form. -/
def writeByte : Memory → Nat → Byte → Memory
  | [], a, b => if b = unlistedByte then [] else [(a, b)]
  | (a', b') :: m, a, b =>
    if a < a' then (if b = unlistedByte then (a', b') :: m else (a, b) :: (a', b') :: m)
    else if a = a' then (if b = unlistedByte then m else (a, b) :: m)
    else (a', b') :: writeByte m a b

/-- Every index listed in `m` is above `lo`, the indices rise strictly, and no listed byte is what an unlisted one reads
as. -/
def wfAbove : Option Nat → Memory → Bool
  | _, [] => true
  | lo, (a, b) :: m => lo.all (· < a) && b != unlistedByte && wfAbove (some a) m

/-- The canonical form, in which equal memories are equal lists. -/
def Memory.wf (m : Memory) : Bool := wfAbove none m

/-- The memory that holds the listed bytes below `cap`, the later of two for one index. -/
def memoryOfCells (cap : Nat) : List Host.Cell → Memory
  | [] => []
  | (a, b) :: cs => if a < cap then writeByte (memoryOfCells cap cs) a b else memoryOfCells cap cs

/-- The four memory spaces (20 R38). -/
inductive Space where
  | ql | qc | pix | out
deriving DecidableEq, Repr

/-- The number of bytes of a space (20 R39; `PIX_CAP`, `OUT_CAP` of 00 R5). -/
def capacity : Space → Nat
  | .ql | .qc => 64
  | .pix => 2 ^ 21
  | .out => 2 ^ 24

/-- The contents of a space. -/
def memoryOf (sp : Space) (h : Hardware) : Memory :=
  match sp with
  | .ql => h.ql
  | .qc => h.qc
  | .pix => h.pix
  | .out => h.out

/-- `MemWrite(S, i, 1, b)` on the hardware. -/
def storeByte (sp : Space) (i : Nat) (b : Byte) (h : Hardware) : Hardware :=
  match sp with
  | .ql => { h with ql := writeByte h.ql i b }
  | .qc => { h with qc := writeByte h.qc i b }
  | .pix => { h with pix := writeByte h.pix i b }
  | .out => { h with out := writeByte h.out i b }

/-! ## Registers of three components -/

/-- `X[c]`. -/
def getComp {α : Type} (t : Triple α) (c : Component) : α :=
  match c with
  | .y => t.y
  | .cb => t.cb
  | .cr => t.cr

/-- `X[c] <- v`. -/
def setComp {α : Type} (t : Triple α) (c : Component) (v : α) : Triple α :=
  match c with
  | .y => { t with y := v }
  | .cb => { t with cb := v }
  | .cr => { t with cr := v }

/-! ## The sequencer -/

/-- `SEQ.PH <- ph`, `SEQ.COL` as it was. -/
def gotoPhase (ph : Phase) (h : Hardware) : Hardware := { h with seq := { h.seq with ph := ph } }

/-- `SEQ.COL + 8`, in 17 bits. It "never wraps" (10 R18), so the value past the top is free (log entry 18). -/
def nextColumn (tick : Nat) (col : BitVec 17) : BitVec 17 :=
  if col.toNat + 8 < 2 ^ 17 then col + 8 else Config.freeBits 17 tick 0

/-! ## The launch and the end of a run -/

/-- `START` (45 R134). -/
def startRun (h : Hardware) : Hardware :=
  { h with status := statusBusy, outlen := 0, seq := { h.seq with ph := .chk } }

/-- `CLR` (45 R135): with `START`, the only return from the error state (60 R157). -/
def clearResult (h : Hardware) : Hardware := { h with status := statusIdle, outlen := 0 }

/-- Trap entry, "exactly what `raise E()` with code `e` does" (60 R155), which is `TRAP e` (45 R141). -/
def takeTrap (e : BitVec 4) (h : Hardware) : Hardware :=
  { h with status := statusTrap e, outlen := 0, seq := { h.seq with ph := .idle } }

/-- `HALT` (45 R140). -/
def endRun (h : Hardware) : Hardware :=
  { h with status := statusDone, seq := { h.seq with ph := .idle } }

/-! ## Next states -/

/-- The next state that differs in the hardware only. -/
def nextHw (s : State) (h : Hardware) : Host.Outcome State Fault Refusal := .next { s with hw := h }

/-- The next state that differs in what the host saw only: a read, a bus error, an ignored write. -/
def respond (s : State) (r : BusResponse) : Host.Outcome State Fault Refusal :=
  .next { s with env := { s.env with resp := r } }

/-- The next state of a host write that the hardware performs: it completes on the bus. -/
def written (s : State) (h : Hardware) : Host.Outcome State Fault Refusal :=
  .next { s with hw := h, env := { s.env with resp := .written } }

/-! ## The reset input -/

/-- A free value of the instance's carrier. -/
def freeSample (a : Arith) (tick index : Nat) : Sample :=
  match a with
  | .q30 => .exact (Config.freeExact tick index)
  | .finite T => .pattern (Config.freePattern tick index % (T.top + 1))
  | .other _ => .pattern (Config.freePattern tick index)

/-- A free block of samples. -/
def freeSamples (a : Arith) (tick base : Nat) : Block Sample := Vector.ofFn fun i => freeSample a tick (base + i.val)

/-- A free block of coefficients. -/
def freeCoefs (tick base : Nat) : Block (BitVec 16) := Vector.ofFn fun i => Config.freeBits 16 tick (base + i.val)

/-- What the reset input leaves (10 R35, 70 R169, R170): the registers of the table at their reset values, every piece
of state it calls unspecified at a free value, whatever the hardware held before (log entry 20). -/
def resetHardware (a : Arith) (tick : Nat) : Hardware :=
  { Hardware.reset with
    sb := ⟨freeSamples a tick 0, freeSamples a tick 64, freeSamples a tick 128⟩
    cf := ⟨freeCoefs tick 0, freeCoefs tick 64, freeCoefs tick 128⟩
    pred := ⟨Config.freeBits 16 tick 192, Config.freeBits 16 tick 193, Config.freeBits 16 tick 194⟩
    run := Config.freeBits 5 tick 0
    k := Config.freeBits 6 tick 0
    last := Config.freeBits 6 tick 1
    acc := Config.freeBits 32 tick 0
    cnt := Config.freeBits 5 tick 1
    seq := { ph := .idle, col := Config.freeBits 17 tick 0 }
    pix := memoryOfCells (capacity .pix) (Config.freeCells tick 0)
    ql := memoryOfCells (capacity .ql) (Config.freeCells tick 1)
    qc := memoryOfCells (capacity .qc) (Config.freeCells tick 2)
    out := memoryOfCells (capacity .out) (Config.freeCells tick 3) }

end Sys2Proof.Machine
end

