-- ==== Sys2Proof/Machine/Operands.lean ====
section
/-! DEFINITION. Every operand form: the host's addresses (20 R39, R41), the pixel coordinates and addresses of `CSC`
(40 R81, R82), the table selects (42 R101, 43 R108) and the zig-zag read (43 R110). -/

namespace Sys2Proof.Machine

open Sys2Proof

/-- The registers of 10 R19. -/
inductive Reg where
  | ctrl | status | width | pixlen | qllen | qclen | outlen
deriving DecidableEq, Repr

/-- The register a 32-bit access reaches: `addr mod 4 = 0` and `addr <= 0x18`, else a bus error (20 R41, 45 R130). -/
def regAt (addr : Word) : Option Reg :=
  match addr.toNat with
  | 0x00 => some .ctrl
  | 0x04 => some .status
  | 0x08 => some .width
  | 0x0C => some .pixlen
  | 0x10 => some .qllen
  | 0x14 => some .qclen
  | 0x18 => some .outlen
  | _ => none

/-- The window an offset lies in and the index within it; `none` is reserved or outside the instance (20 R39, R45). -/
def windowAt (a : Nat) : Option (Space × Nat) :=
  if 0x100 ≤ a ∧ a ≤ 0x13F then some (.ql, a - 0x100)
  else if 0x140 ≤ a ∧ a ≤ 0x17F then some (.qc, a - 0x140)
  else if 0x200000 ≤ a ∧ a ≤ 0x3FFFFF then some (.pix, a - 0x200000)
  else if 0x1000000 ≤ a ∧ a ≤ 0x1FFFFFF then some (.out, a - 0x1000000)
  else none

/-- The byte an 8-bit read reaches, as space and index; `none` is a bus error (45 R133). -/
def readWindow (addr : Word) : Option (Space × Nat) := windowAt addr.toNat

/-- The byte an 8-bit write reaches: as a read, but not in the read-only `OUT` window (20 R39, 45 R132). -/
def writeWindow (addr : Word) : Option (Space × Nat) :=
  match readWindow addr with
  | some (.out, _) => none
  | w => w

/-- The strip column that block column `j` reads, clamped to the right edge (40 R81). -/
def stripColumn (width col j : Nat) : Nat := min (col + j) (width - 1)

/-- The first byte of pixel `(r, x)` in `PIX` (40 R82). -/
def pixelAddress (width r x : Nat) : Nat := (r * width + x) * 4

/-- `t(c)`, the Huffman table select: luma for component 0, chroma for 1 and 2 (00 R7, 43 R108). -/
inductive TableSel where
  | luma | chroma
deriving DecidableEq, Repr

def tableSel : Component → TableSel
  | .y => .luma
  | .cb => .chroma
  | .cr => .chroma

/-- The quantization table of a component: `QL` for component 0, `QC` for 1 and 2 (42 R101). -/
def stepSpace : Component → Space
  | .y => .ql
  | .cb => .qc
  | .cr => .qc

/-- The quantization step of entry `i` of a block of component `c`, read from memory (42 R100, R101). -/
def stepOf (h : Hardware) (c : Component) (i : Nat) : Nat := (readByte (memoryOf (stepSpace c) h) i).toNat

/-- `zz(k) = CF[c][ZZ_NAT[k]]`, as a signed integer (43 R110). -/
def zigzag (cf : Block (BitVec 16)) (k : Nat) : Int := (cf[zzNat k]).toInt

end Sys2Proof.Machine
end

