-- ==== Sys2Proof/Machine/Bus.lean ====
section
/-! DEFINITION. The host's four bus operations (45 R129 to R133). A bus error changes no state of the hardware
(60 R167); what the host sees is `resp` in the environment (log entry 11). -/

namespace Sys2Proof

/-- What `OUT` reads as at index `OUTLEN` and above: free, but a function of the hardware's state, so that a second read with
nothing written between gives the same value (20 R43; log entry 10). -/
opaque Config.freeOutByte (h : Machine.Hardware) (index : Nat) : Byte

end Sys2Proof

namespace Sys2Proof.Machine

open Sys2Proof

/-- A write of `CTRL`: `START` if bit 0 is set, else `CLR` if bit 1 is set, else nothing (10 R20, 45 R130). -/
def writeCtrl (data : Word) (h : Hardware) : Hardware :=
  if data.getLsbD 0 then startRun h else if data.getLsbD 1 then clearResult h else h

/-- A register write, register by register; reserved bits of `data` are ignored (45 R130). -/
def writeReg (r : Reg) (data : Word) (h : Hardware) : Hardware :=
  match r with
  | .ctrl => writeCtrl data h
  | .status => h
  | .width => { h with width := data.extractLsb' 0 16 }
  | .pixlen => { h with pixlen := data }
  | .qllen => { h with qllen := data.extractLsb' 0 8 }
  | .qclen => { h with qclen := data.extractLsb' 0 8 }
  | .outlen => h

/-- The value of a register, zero-extended to 32 bits; `CTRL` reads as zero (45 R131). -/
def readReg (r : Reg) (h : Hardware) : Word :=
  match r with
  | .ctrl => 0
  | .status => statusWord h.status
  | .width => h.width.setWidth 32
  | .pixlen => h.pixlen
  | .qllen => h.qllen.setWidth 32
  | .qclen => h.qclen.setWidth 32
  | .outlen => h.outlen

/-- What a register read returns: `STATUS` always its value, any other register a free value while `BUSY = 1`
(45 R131, 20 R52; log entry 10). -/
def regRead (tick : Nat) (r : Reg) (h : Hardware) : Word :=
  if r ≠ .status ∧ h.status.busy then Config.freeBits 32 tick 0 else readReg r h

/-- What a window read returns: a free value while `BUSY = 1`, each read its own (93 U10), and in `OUT` at index `OUTLEN` and
above one that stays while nothing is written (45 R133, 20 R43, R45, R52; log entry 10). -/
def windowRead (tick : Nat) (sp : Space) (i : Nat) (h : Hardware) : Byte :=
  if h.status.busy then Config.freeBits 8 tick 0
  else if sp = .out ∧ h.outlen.toNat ≤ i then Config.freeOutByte h i
  else readByte (memoryOf sp h) i

/-- `HWR32 addr, data` (45 R130). -/
def execHwr32 (addr data : Word) (s : State) : Host.Outcome State Fault Refusal :=
  match regAt addr with
  | none => respond s .error
  | some r => if s.hw.status.busy then respond s .written else written s (writeReg r data s.hw)

/-- `HRD32 addr` (45 R131). -/
def execHrd32 (addr : Word) (s : State) : Host.Outcome State Fault Refusal :=
  match regAt addr with
  | none => respond s .error
  | some r => respond s (.word (regRead s.env.tick r s.hw))

/-- `HWR8 addr, data` (45 R132). -/
def execHwr8 (addr : Word) (data : Byte) (s : State) : Host.Outcome State Fault Refusal :=
  match writeWindow addr with
  | none => respond s .error
  | some (sp, i) => if s.hw.status.busy then respond s .written else written s (storeByte sp i data s.hw)

/-- `HRD8 addr` (45 R133). -/
def execHrd8 (addr : Word) (s : State) : Host.Outcome State Fault Refusal :=
  match readWindow addr with
  | none => respond s .error
  | some (sp, i) => respond s (.byte (windowRead s.env.tick sp i s.hw))

end Sys2Proof.Machine
end

