-- ==== Sys2Proof/Machine/Arith.lean ====
section
/-! DEFINITION. The arithmetic of the real-valued stages (00 R8, R9): the operations of an `ARITH` instance, the
default `Q30`, and the rounding function `RHA` (42 R99). -/

namespace Sys2Proof.Machine

open Sys2Proof

/-- The operations that the rules of files 40, 41 and 42 use (00 R8), over a carrier `α`. It is no part of State. -/
structure ArithOps (α : Type) where
  /-- a byte or a decimal constant as a value -/
  lit : Rat → α
  add : α → α → α
  sub : α → α → α
  mul : α → α → α
  /-- the constant ROM `K` (41 R88) -/
  const : DctConst → α
  /-- `RHA` of a value divided by a positive step (42 R99, R100) -/
  roundDiv : α → Nat → Int

/-- `RHA`, round half away from zero (42 R99). -/
def roundHalfAway (q : Rat) : Int :=
  if 0 ≤ q then (q + 1 / 2).floor else -(-q + 1 / 2).floor

/-- `Q30`: exact rationals, with the seven constants rounded to multiples of 2^-30 (00 R9, 41 R88). -/
def q30Ops : ArithOps Rat :=
  { lit := fun q => q
    add := fun x y => x + y
    sub := fun x y => x - y
    mul := fun x y => x * y
    const := fun k => (dctNumerator k : Rat) / 2 ^ 30
    roundDiv := fun x step => roundHalfAway (x / step) }

/-- The seven DCT constants (41 R88), in the order of a record's list. -/
def dctConsts : List DctConst := [.ka, .k1, .k2, .k3, .k5, .k6, .k7]

/-- The operations that the tables of a finite instance give. -/
def tableOps (T : FiniteArith) : ArithOps (Fin (T.top + 1)) :=
  { lit := fun q => (T.lits.lookup q).getD 0
    add := fun x y => (T.sums.getD x.val []).getD y.val 0
    sub := fun x y => (T.differences.getD x.val []).getD y.val 0
    mul := fun x y => (T.products.getD x.val []).getD y.val 0
    const := fun k => T.consts.getD (dctConsts.idxOf k) 0
    roundDiv := fun x step => (T.quotients.getD x.val []).getD step 0 }

/-- The operations of an instance known by a number only (log entry 12). -/
def otherOps (id : Nat) : ArithOps Nat :=
  { lit := Config.otherLit id
    add := Config.otherAdd id
    sub := Config.otherSub id
    mul := Config.otherMul id
    const := Config.otherConst id
    roundDiv := Config.otherRound id }

/-- An arithmetic on what the registers hold: `get` takes a register's value out, `put` writes one back. -/
def onRegisters {α : Type} (put : α → Sample) (get : Sample → α) (A : ArithOps α) : ArithOps Sample :=
  { lit := fun q => put (A.lit q)
    add := fun x y => put (A.add (get x) (get y))
    sub := fun x y => put (A.sub (get x) (get y))
    mul := fun x y => put (A.mul (get x) (get y))
    const := fun k => put (A.const k)
    roundDiv := fun x step => A.roundDiv (get x) step }

/-- The rational in a register (00 R9). -/
def exactOf (x : Sample) : Rat :=
  match x with
  | .exact q => q
  | .pattern _ => Config.foreignExact x

/-- The pattern in a register. -/
def patternOf (x : Sample) : Nat :=
  match x with
  | .pattern n => n
  | .exact _ => Config.foreignPattern x

/-- The carrier value in a register, of `top + 1` values. -/
def finOf (top : Nat) (x : Sample) : Fin (top + 1) :=
  if h : patternOf x < top + 1 then ⟨patternOf x, h⟩ else Fin.ofNat (top + 1) (Config.foreignPattern x)

/-- The operations of the instance that `ARITH` names. -/
def arithOps : Arith → ArithOps Sample
  | .q30 => onRegisters .exact exactOf q30Ops
  | .finite T => onRegisters (fun x => .pattern x.val) (finOf T.top) (tableOps T)
  | .other id => onRegisters .pattern patternOf (otherOps id)

/-- The register holds a value of the instance's carrier. -/
def carried : Arith → Sample → Bool
  | .q30, .exact _ => true
  | .finite T, .pattern n => n ≤ T.top
  | .other _, .pattern _ => true
  | .q30, .pattern _ | .finite _, .exact _ | .other _, .exact _ => false

/-! ## A record as data -/

/-- The numbers that `CSC` takes as values: the bytes, and the constants of 40 R83 that are no bytes. -/
def literals : List Rat :=
  ((List.range 256).map fun n => (n : Rat)) ++
  [299 / 1000, 587 / 1000, 114 / 1000, -168736 / 1000000, 331264 / 1000000, 5 / 10, 418688 / 1000000, 81312 / 1000000]

/-- The tables of an arithmetic with a carrier of `top + 1` values. -/
def tablesOf {top : Nat} (A : ArithOps (Fin (top + 1))) : FiniteArith :=
  let table (f : Fin (top + 1) → Fin (top + 1) → Fin (top + 1)) := (List.finRange (top + 1)).map fun x => (List.finRange (top + 1)).map (f x)
  { top := top
    lits := literals.map fun q => (q, A.lit q)
    sums := table A.add
    differences := table A.sub
    products := table A.mul
    consts := dctConsts.map A.const
    quotients := (List.finRange (top + 1)).map fun x => (List.range 256).map (A.roundDiv x) }

end Sys2Proof.Machine
end

