-- ==== Sys2Proof/Machine/Color.lean ====
section
/-! DEFINITION. The Color Converter (40_color_converter.md): `CSC`. -/

namespace Sys2Proof.Machine

open Sys2Proof

/-- A colour channel's place in the pixel record (30 R63). The alpha byte is never read (40 R84). -/
inductive Channel where
  | r | g | b
deriving DecidableEq, Repr

def channelOffset : Channel → Nat
  | .r => 0
  | .g => 1
  | .b => 2

/-- The byte of one channel that `CSC` reads for row `r` and column `j` of the block at `col` (40 R80 to R82).
With `WIDTH = 0` the rule forms no address, and the byte is free (log entry 8). -/
def channelByte (tick col r j : Nat) (ch : Channel) (h : Hardware) : Byte :=
  if h.width.toNat = 0 then Config.freeBits 8 tick (3 * (8 * r + j) + channelOffset ch)
  else readByte h.pix (pixelAddress h.width.toNat r (stripColumn h.width.toNat col j) + channelOffset ch)

/-- The conversion formulas, in the order they are written (40 R83). -/
def convert {α : Type} (A : ArithOps α) (c : Component) (r g b : Byte) : α :=
  let x (k : Rat) (v : Byte) : α := A.mul (A.lit k) (A.lit v.toNat)
  match c with
  | .y => A.sub (A.add (A.add (x (299 / 1000) r) (x (587 / 1000) g)) (x (114 / 1000) b)) (A.lit 128)
  | .cb => A.add (A.sub (x (-168736 / 1000000) r) (x (331264 / 1000000) g)) (x (5 / 10) b)
  | .cr => A.sub (A.sub (x (5 / 10) r) (x (418688 / 1000000) g)) (x (81312 / 1000000) b)

/-- The sample block of component `c` at column `col`: entry `8 * r + j` from pixel row `r`, block column `j` (40 R80). -/
def sampleBlock (A : ArithOps Sample) (tick col : Nat) (h : Hardware) (c : Component) : Block Sample :=
  Vector.ofFn fun i =>
    convert A c (channelByte tick col (i.val / 8) (i.val % 8) .r h)
      (channelByte tick col (i.val / 8) (i.val % 8) .g h) (channelByte tick col (i.val / 8) (i.val % 8) .b h)

/-- `CSC col` on the hardware (40 R80). -/
def colorConvert (A : ArithOps Sample) (tick : Nat) (col : BitVec 16) (h : Hardware) : Hardware :=
  { h with
    sb := ⟨sampleBlock A tick col.toNat h .y, sampleBlock A tick col.toNat h .cb, sampleBlock A tick col.toNat h .cr⟩
    seq := { ph := .dctr0, col := col.setWidth 17 } }

/-- `CSC col` (40 R80). A column that is no multiple of 8 has no encoding (30 R57, R59). -/
def execCsc (col : BitVec 16) (s : State) : Host.Outcome State Fault Refusal :=
  if col.toNat % 8 = 0 then nextHw s (colorConvert (arithOps s.cfg.arith) s.env.tick col s.hw)
  else .refused .reservedOperand

end Sys2Proof.Machine
end

