-- ==== Sys2Proof/Machine/Writer.lean ====
section
/-! DEFINITION. The Bitstream Writer (44_bitstream_writer.md): `emit`, `PUTB`, `FIN`. The functions on `Hardware` answer
`none` where `OUT` has no byte at index `OUTLEN`. -/

namespace Sys2Proof.Machine

open Sys2Proof

/-- `emit(b)`: append one byte to `OUT` (44 R122). -/
def emit (b : Byte) (h : Hardware) : Option Hardware :=
  if h.outlen.toNat < capacity .out then
    some { storeByte .out h.outlen.toNat b h with outlen := h.outlen + 1 }
  else none

/-- Append a computed byte, and the stuffing byte 0x00 after 0xFF (44 R121, R123; 30 R78). -/
def emitStuffed (b : Byte) (h : Hardware) : Option Hardware :=
  if b = 0xFF then (emit b h).bind (emit 0x00) else emit b h

/-- The loop of `PUTB`, on the exact values of `ACC` and `CNT`: `bytes` times, emit the 8 oldest pending bits and drop
them; then write what is left back to the registers (44 R121). -/
def drain (bytes acc cnt : Nat) (h : Hardware) : Option Hardware :=
  match bytes with
  | 0 => some { h with acc := BitVec.ofNat 32 acc, cnt := BitVec.ofNat 5 cnt }
  | bytes + 1 =>
    (emitStuffed (BitVec.ofNat 8 (acc >>> (cnt - 8))) h).bind
      (drain bytes (acc % 2 ^ (cnt - 8)) (cnt - 8))

/-- `PUTB v, n` (44 R121). The pending count is `CNT + n`, so the loop runs `(CNT + n) / 8` times. -/
def putBits (v n : Nat) (h : Hardware) : Option Hardware :=
  if n = 0 then some h
  else drain ((h.cnt.toNat + n) / 8) ((h.acc.toNat <<< n) + v % 2 ^ n) (h.cnt.toNat + n) h

/-- The last byte: the `CNT` pending bits on top, zeros below (44 R123, 30 R79). `CNT` is at most 7 (44 R124); above 8
the rule's shift has no meaning and the byte is free (log entry 19). -/
def finalByte (tick acc cnt : Nat) : Byte :=
  if cnt ≤ 8 then BitVec.ofNat 8 (acc <<< (8 - cnt)) else Config.freeBits 8 tick 0

/-- `FIN` on the writer (44 R123). -/
def flush (tick : Nat) (h : Hardware) : Option Hardware :=
  if h.cnt.toNat = 0 then some h
  else (emitStuffed (finalByte tick h.acc.toNat h.cnt.toNat) h).map fun h => { h with acc := 0, cnt := 0 }

/-- The outcome of a writer operation. -/
def writerOutcome (s : State) (r : Option Hardware) : Host.Outcome State Fault Refusal :=
  match r with
  | some h => nextHw s h
  | none => .fault .outIndex

/-- `PUTB v, n` (44 R121): a sub-operation, `SEQ` stays. A count above 16 has no meaning (44 R126). -/
def execPutb (n : BitVec 5) (v : BitVec 16) (s : State) : Host.Outcome State Fault Refusal :=
  if n.toNat ≤ 16 then writerOutcome s (putBits v.toNat n.toNat s.hw) else .refused .putbCount

/-- `FIN` (44 R123). -/
def execFin (s : State) : Host.Outcome State Fault Refusal :=
  writerOutcome s ((flush s.env.tick s.hw).map (gotoPhase .halt))

end Sys2Proof.Machine
end

