-- ==== Sys2Proof/Machine/Entropy.lean ====
section
/-! DEFINITION. The Entropy Coder (43_entropy_coder.md): `CAT`, `EXTRA`, `LOOKUP`, `ENCDC`, `ENCAC`. -/

namespace Sys2Proof.Machine

open Sys2Proof

/-- `bitlen(n)` (00 R6). -/
def bitLength (n : Nat) : Nat := if n = 0 then 0 else n.log2 + 1

/-- `CAT(v)`, the magnitude category (43 R105). -/
def category (v : Int) : Nat := bitLength v.natAbs

/-- `EXTRA(v)`, the extra bits as a number; 0 for `v = 0`, where they are never sent (43 R106). -/
def extraBits (v : Int) : Nat :=
  if 0 < v then v.toNat else if v < 0 then (v + 2 ^ category v - 1).toNat else 0

/-- The two kinds of Huffman ROM (00 R7). -/
inductive CoefKind where
  | dc | ac
deriving DecidableEq, Repr

/-- The ROM image `HUFF[k][t]` (10 R29). -/
def romOf (huff : HuffRoms) (k : CoefKind) (t : TableSel) : HuffRom :=
  match k, t with
  | .dc, .luma => huff.dcLuma
  | .dc, .chroma => huff.dcChroma
  | .ac, .luma => huff.acLuma
  | .ac, .chroma => huff.acChroma

/-- The DC symbol: the category, which indexes one of the 16 entries (43 R107, 30 R65). A category of 16 indexes none. -/
def dcSymbol (n : Nat) : Option Nat := if n < 16 then some n else none

/-- The AC symbol `(RUN << 4) | size` (43 R112, 30 R66). A size of 16 does not fit the symbol's size field. -/
def acSymbol (run n : Nat) : Option Nat := if n < 16 then some (run <<< 4 + n) else none

/-- The placeholder code (30 R75). -/
def placeholderCode : HuffCode := ⟨0xFFFF, 15⟩

/-- `LOOKUP(k, t, s)` (43 R107); the answer `none` is `raise UnsupportedSymbol()`. A symbol that indexes no entry has a free
code (log entry 9). -/
def lookup (cfg : Config) (k : CoefKind) (t : TableSel) (sym : Option Nat) (free : HuffCode) : Option HuffCode :=
  match sym with
  | none => some free
  | some i =>
    match (romOf cfg.huff k t).getD i none with
    | some code => some code
    | none =>
      match cfg.missPolicy with
      | .placeholder => some placeholderCode
      | .fault => none

/-- How far a coding operation came. -/
inductive Coding where
  /-- it came to its end -/
  | coded (h : Hardware)
  /-- a lookup raised `UnsupportedSymbol`, after what is done in `h` (60 R156) -/
  | missed (h : Hardware)
  /-- `OUT` has no byte at index `OUTLEN` -/
  | full
deriving DecidableEq, Repr

/-- Go on from where a coding came to its end. -/
def andThen (r : Coding) (f : Hardware → Coding) : Coding :=
  match r with
  | .coded h => f h
  | .missed h => .missed h
  | .full => .full

/-- A writer operation as a coding. -/
def ofWriter (r : Option Hardware) : Coding :=
  match r with
  | some h => .coded h
  | none => .full

/-- Look the symbol up and send its code (43 R109, R112). -/
def putCode (code : Option HuffCode) (h : Hardware) : Coding :=
  match code with
  | some c => ofWriter (putBits c.code.toNat c.len h)
  | none => .missed h

/-- Send the extra bits of `v`, none for category 0 (43 R109, R114). -/
def putExtra (v : Int) (h : Hardware) : Coding :=
  if category v = 0 then .coded h else ofWriter (putBits (extraBits v) (category v) h)

/-- `ENCDC c` without the phase (43 R109). -/
def encodeDc (cfg : Config) (tick : Nat) (c : Component) (h : Hardware) : Coding :=
  let dc := (getComp h.cf c)[0]
  let diff := dc.toInt - (getComp h.pred c).toInt
  andThen
    (putCode (lookup cfg .dc (tableSel c) (dcSymbol (category diff)) (Config.freeCode tick 0))
      { h with pred := setComp h.pred c dc })
    (putExtra diff)

/-- `LAST`: the largest `k` in `1..63` with `zz(k) != 0`, else 0 (43 R111). -/
def lastNonzero (cf : Block (BitVec 16)) : Nat :=
  (List.range' 1 63).foldl (fun last k => if zigzag cf k = 0 then last else k) 0

/-- `RUN` after a zero that does not complete sixteen, and the ZRL that does (43 R113). Where the lookup of the ZRL misses under
`FAULT`, `RUN` stays 15, and the 16 that 43 R112 holds in between is never seen: DESIGN CHOICE, among the points at which 60 R156
lets a model stop (log entry 21). -/
def acZero (cfg : Config) (tick : Nat) (c : Component) (h : Hardware) : Coding :=
  if h.run.toNat + 1 = 16 then
    andThen (putCode (lookup cfg .ac (tableSel c) (some 0xF0) (Config.freeCode tick 0)) h)
      (fun h => .coded { h with run := 0 })
  else .coded { h with run := h.run + 1 }

/-- A nonzero coefficient: its symbol's code, its extra bits, `RUN` back to 0 (43 R114). -/
def acNonzero (cfg : Config) (tick : Nat) (c : Component) (v : Int) (h : Hardware) : Coding :=
  andThen
    (putCode (lookup cfg .ac (tableSel c) (acSymbol h.run.toNat (category v)) (Config.freeCode tick h.k.toNat)) h)
    (fun h => andThen (putExtra v h) (fun h => .coded { h with run := 0 }))

/-- One scan position (43 R112). -/
def acPosition (cfg : Config) (tick : Nat) (c : Component) (pos : Nat) (h : Hardware) : Coding :=
  let h := { h with k := BitVec.ofNat 6 pos }
  if zigzag (getComp h.cf c) pos = 0 then acZero cfg tick c h
  else acNonzero cfg tick c (zigzag (getComp h.cf c) pos) h

/-- The scan positions in order (43 R112). -/
def acScan (cfg : Config) (tick : Nat) (c : Component) (positions : List Nat) (h : Hardware) : Coding :=
  match positions with
  | [] => .coded h
  | pos :: rest => andThen (acPosition cfg tick c pos h) (acScan cfg tick c rest)

/-- The end of the block: EOB unless the last nonzero position is 63 (43 R115). -/
def acEnd (cfg : Config) (tick : Nat) (c : Component) (last : Nat) (h : Hardware) : Coding :=
  if last = 63 then .coded h
  else putCode (lookup cfg .ac (tableSel c) (some 0x00) (Config.freeCode tick 0)) h

/-- `ENCAC c` without the phase (43 R112). -/
def encodeAc (cfg : Config) (tick : Nat) (c : Component) (h : Hardware) : Coding :=
  let last := lastNonzero (getComp h.cf c)
  andThen
    (acScan cfg tick c (List.range' 1 last) { h with last := BitVec.ofNat 6 last, run := 0 })
    (acEnd cfg tick c last)

/-- The phase after `ENCAC 2`, and the column loop's test (43 R112, 45 R139). -/
def nextMcu (tick : Nat) (h : Hardware) : Hardware :=
  { h with seq := { ph := if h.seq.col.toNat + 8 < h.width.toNat then .csc else .fin, col := nextColumn tick h.seq.col } }

/-- The outcome of a coding operation: `next` sets `SEQ` after its end; a miss takes `TRAP 3` (60 R152, R155). -/
def codingOutcome (s : State) (next : Hardware → Hardware) (r : Coding) : Host.Outcome State Fault Refusal :=
  match r with
  | .coded h => nextHw s (next h)
  | .missed h => nextHw s (takeTrap 3 h)
  | .full => .fault .outIndex

/-- `ENCDC 0` (43 R109). -/
def execEncdc0 (s : State) : Host.Outcome State Fault Refusal :=
  codingOutcome s (gotoPhase .encac0) (encodeDc s.cfg s.env.tick .y s.hw)

/-- `ENCDC 1` (43 R109). -/
def execEncdc1 (s : State) : Host.Outcome State Fault Refusal :=
  codingOutcome s (gotoPhase .encac1) (encodeDc s.cfg s.env.tick .cb s.hw)

/-- `ENCDC 2` (43 R109). -/
def execEncdc2 (s : State) : Host.Outcome State Fault Refusal :=
  codingOutcome s (gotoPhase .encac2) (encodeDc s.cfg s.env.tick .cr s.hw)

/-- `ENCAC 0` (43 R112). -/
def execEncac0 (s : State) : Host.Outcome State Fault Refusal :=
  codingOutcome s (gotoPhase .encdc1) (encodeAc s.cfg s.env.tick .y s.hw)

/-- `ENCAC 1` (43 R112). -/
def execEncac1 (s : State) : Host.Outcome State Fault Refusal :=
  codingOutcome s (gotoPhase .encdc2) (encodeAc s.cfg s.env.tick .cb s.hw)

/-- `ENCAC 2` (43 R112). -/
def execEncac2 (s : State) : Host.Outcome State Fault Refusal :=
  codingOutcome s (nextMcu s.env.tick) (encodeAc s.cfg s.env.tick .cr s.hw)

end Sys2Proof.Machine
end

