-- ==== Sys2Proof/Machine/Quantizer.lean ====
section
/-! DEFINITION. The Quantizer (42_quantizer.md): `QNT`. -/

namespace Sys2Proof.Machine

open Sys2Proof

/-- `z` as a 16-bit two's complement register; outside the register's range the spec states no value (42 R103) and it is
`free` (log entry 7). -/
def coefOfInt (z : Int) (free : BitVec 16) : BitVec 16 :=
  if -(2 ^ 15) ≤ z ∧ z < 2 ^ 15 then BitVec.ofInt 16 z else free

/-- One coefficient: `RHA(x / step)` (42 R100). A step of zero is undefined for the caller to avoid, raises nothing, and
the run goes on (42 R102): the coefficient is `free` (log entry 6). -/
def quantize {α : Type} (A : ArithOps α) (step : Nat) (x : α) (free : BitVec 16) : BitVec 16 :=
  if step = 0 then free else coefOfInt (A.roundDiv x step) free

/-- The coefficient block of component `c`: entry `i` of the samples by entry `i` of the table (42 R100, R101). -/
def quantizeBlock (A : ArithOps Sample) (tick : Nat) (h : Hardware) (c : Component) : Block (BitVec 16) :=
  Vector.ofFn fun i => quantize A (stepOf h c i.val) (getComp h.sb c)[i] (Config.freeBits 16 tick i.val)

/-- `QNT c` on the hardware (42 R100). -/
def quantizePass (A : ArithOps Sample) (tick : Nat) (c : Component) (ph : Phase) (h : Hardware) : Hardware :=
  { h with cf := setComp h.cf c (quantizeBlock A tick h c), seq := { h.seq with ph := ph } }

/-- `QNT 0` (42 R100). -/
def execQnt0 (s : State) : Host.Outcome State Fault Refusal :=
  nextHw s (quantizePass (arithOps s.cfg.arith) s.env.tick .y .dctr1 s.hw)

/-- `QNT 1` (42 R100). -/
def execQnt1 (s : State) : Host.Outcome State Fault Refusal :=
  nextHw s (quantizePass (arithOps s.cfg.arith) s.env.tick .cb .dctr2 s.hw)

/-- `QNT 2` (42 R100). -/
def execQnt2 (s : State) : Host.Outcome State Fault Refusal :=
  nextHw s (quantizePass (arithOps s.cfg.arith) s.env.tick .cr .encdc0 s.hw)

end Sys2Proof.Machine
end

