-- ==== Sys2Proof/Machine/Sequencer.lean ====
section
/-! DEFINITION. The sequencer's own operations (45_sequencer_and_host.md): `CHK`, `INIT`, `HALT`, `TRAP`. -/

namespace Sys2Proof.Machine

open Sys2Proof

/-- `CHK` on the hardware: the table lengths first, then the pixel length (45 R137, 60 R154). -/
def checkLaunch (h : Hardware) : Hardware :=
  if h.qllen.toNat ≠ 64 ∨ h.qclen.toNat ≠ 64 then takeTrap 1 h
  else if h.pixlen.toNat ≠ h.width.toNat * 32 then takeTrap 2 h
  else gotoPhase .init h

/-- `INIT` on the hardware (45 R138). -/
def initStrip (h : Hardware) : Hardware :=
  { h with
    pred := ⟨0, 0, 0⟩
    acc := 0
    cnt := 0
    seq := { ph := if 0 < h.width.toNat then .csc else .fin, col := 0 } }

/-- `CHK` (45 R137). -/
def execChk (s : State) : Host.Outcome State Fault Refusal := nextHw s (checkLaunch s.hw)

/-- `INIT` (45 R138). -/
def execInit (s : State) : Host.Outcome State Fault Refusal := nextHw s (initStrip s.hw)

/-- `HALT` (45 R140). -/
def execHalt (s : State) : Host.Outcome State Fault Refusal := nextHw s (endRun s.hw)

/-- `TRAP e` (45 R141). A code outside 1..3 has no encoding (30 R57, R59). -/
def execTrap (e : BitVec 4) (s : State) : Host.Outcome State Fault Refusal :=
  if 1 ≤ e.toNat ∧ e.toNat ≤ 3 then nextHw s (takeTrap e s.hw) else .refused .reservedOperand

end Sys2Proof.Machine
end

