-- ==== Sys2Proof/Machine/Transform.lean ====
section
/-! DEFINITION. The Forward Transform (41_forward_dct.md): the 8-point butterfly and the operations `DCTR`, `DCTC`. -/

namespace Sys2Proof.Machine

open Sys2Proof

/-- Eight values, the inputs or the outputs of one butterfly. -/
structure Oct (α : Type) where
  x0 : α
  x1 : α
  x2 : α
  x3 : α
  x4 : α
  x5 : α
  x6 : α
  x7 : α
deriving DecidableEq, Repr

/-- The eight values `f 0 .. f 7`. -/
def octOf {α : Type} (f : Fin 8 → α) : Oct α :=
  ⟨f 0, f 1, f 2, f 3, f 4, f 5, f 6, f 7⟩

/-- Value `k` of the eight. -/
def octGet {α : Type} (x : Oct α) (k : Fin 8) : α :=
  match k with
  | 0 => x.x0
  | 1 => x.x1
  | 2 => x.x2
  | 3 => x.x3
  | 4 => x.x4
  | 5 => x.x5
  | 6 => x.x6
  | 7 => x.x7

/-- `dct8`, the butterfly network, operation by operation in the order of 41 R89. -/
def dct8 {α : Type} (A : ArithOps α) (x : Oct α) : Oct α :=
  let k1 := A.const .k1
  let k2 := A.const .k2
  let k3 := A.const .k3
  let k5 := A.const .k5
  let k6 := A.const .k6
  let k7 := A.const .k7
  let s0 := A.add x.x0 x.x7
  let s1 := A.add x.x1 x.x6
  let s2 := A.add x.x2 x.x5
  let s3 := A.add x.x3 x.x4
  let d0 := A.sub x.x0 x.x7
  let d1 := A.sub x.x1 x.x6
  let d2 := A.sub x.x2 x.x5
  let d3 := A.sub x.x3 x.x4
  let e0 := A.add s0 s3
  let e1 := A.add s1 s2
  let f0 := A.sub s0 s3
  let f1 := A.sub s1 s2
  { x0 := A.mul (A.add e0 e1) (A.const .ka)
    x4 := A.mul (A.sub e0 e1) (A.const .ka)
    x2 := A.add (A.mul f0 k2) (A.mul f1 k6)
    x6 := A.sub (A.mul f0 k6) (A.mul f1 k2)
    x1 := A.add (A.add (A.add (A.mul d0 k1) (A.mul d1 k3)) (A.mul d2 k5)) (A.mul d3 k7)
    x3 := A.sub (A.sub (A.sub (A.mul d0 k3) (A.mul d1 k7)) (A.mul d2 k1)) (A.mul d3 k5)
    x5 := A.add (A.add (A.sub (A.mul d0 k5) (A.mul d1 k1)) (A.mul d2 k7)) (A.mul d3 k3)
    x7 := A.sub (A.add (A.sub (A.mul d0 k7) (A.mul d1 k5)) (A.mul d2 k3)) (A.mul d3 k1) }

/-- Entry at row `r`, column `j` of a block: index `8 * r + j` (10 R13). -/
def blockAt {α : Type} (b : Block α) (r j : Fin 8) : α := b[8 * r.val + j.val]

/-- Row `r` of a block: indices `8r .. 8r+7` (41 R91). -/
def rowOf {α : Type} (b : Block α) (r : Fin 8) : Oct α := octOf fun j => blockAt b r j

/-- Column `j` of a block: indices `j, 8+j, .., 56+j` (41 R92). -/
def columnOf {α : Type} (b : Block α) (j : Fin 8) : Oct α := octOf fun r => blockAt b r j

/-- The row pass: output `k` of row `r` goes to index `8r + k` (41 R91). -/
def rowTransform {α : Type} (A : ArithOps α) (b : Block α) : Block α :=
  Vector.ofFn fun i => octGet (dct8 A (rowOf b (Fin.ofNat 8 (i.val / 8)))) (Fin.ofNat 8 (i.val % 8))

/-- The column pass: output `k` of column `j` goes to index `8k + j` (41 R92). -/
def columnTransform {α : Type} (A : ArithOps α) (b : Block α) : Block α :=
  Vector.ofFn fun i => octGet (dct8 A (columnOf b (Fin.ofNat 8 (i.val % 8)))) (Fin.ofNat 8 (i.val / 8))

/-- `DCTR c` on the hardware (41 R91); `ph` is the phase `DCTCc`. -/
def rowPass (A : ArithOps Sample) (c : Component) (ph : Phase) (h : Hardware) : Hardware :=
  { h with sb := setComp h.sb c (rowTransform A (getComp h.sb c)), seq := { h.seq with ph := ph } }

/-- `DCTC c` on the hardware (41 R92); `ph` is the phase `QNTc`. -/
def columnPass (A : ArithOps Sample) (c : Component) (ph : Phase) (h : Hardware) : Hardware :=
  { h with sb := setComp h.sb c (columnTransform A (getComp h.sb c)), seq := { h.seq with ph := ph } }

/-- `DCTR 0` (41 R91). -/
def execDctr0 (s : State) : Host.Outcome State Fault Refusal :=
  nextHw s (rowPass (arithOps s.cfg.arith) .y .dctc0 s.hw)

/-- `DCTR 1` (41 R91). -/
def execDctr1 (s : State) : Host.Outcome State Fault Refusal :=
  nextHw s (rowPass (arithOps s.cfg.arith) .cb .dctc1 s.hw)

/-- `DCTR 2` (41 R91). -/
def execDctr2 (s : State) : Host.Outcome State Fault Refusal :=
  nextHw s (rowPass (arithOps s.cfg.arith) .cr .dctc2 s.hw)

/-- `DCTC 0` (41 R92). -/
def execDctc0 (s : State) : Host.Outcome State Fault Refusal :=
  nextHw s (columnPass (arithOps s.cfg.arith) .y .qnt0 s.hw)

/-- `DCTC 1` (41 R92). -/
def execDctc1 (s : State) : Host.Outcome State Fault Refusal :=
  nextHw s (columnPass (arithOps s.cfg.arith) .cb .qnt1 s.hw)

/-- `DCTC 2` (41 R92). -/
def execDctc2 (s : State) : Host.Outcome State Fault Refusal :=
  nextHw s (columnPass (arithOps s.cfg.arith) .cr .qnt2 s.hw)

end Sys2Proof.Machine
end

