-- ==== Sys2Proof/Machine/Dispatch.lean ====
section
/-! DEFINITION. One arm per constructor of Instr: what each operation does. -/

namespace Sys2Proof.Machine

open Sys2Proof

def exec (i : Instr) (s : State) : Host.Outcome State Fault Refusal :=
  match i with
  | .chk => Sys2Proof.Machine.execChk s
  | .init => Sys2Proof.Machine.execInit s
  | .csc col => Sys2Proof.Machine.execCsc col s
  | .dctr0 => Sys2Proof.Machine.execDctr0 s
  | .dctr1 => Sys2Proof.Machine.execDctr1 s
  | .dctr2 => Sys2Proof.Machine.execDctr2 s
  | .dctc0 => Sys2Proof.Machine.execDctc0 s
  | .dctc1 => Sys2Proof.Machine.execDctc1 s
  | .dctc2 => Sys2Proof.Machine.execDctc2 s
  | .qnt0 => Sys2Proof.Machine.execQnt0 s
  | .qnt1 => Sys2Proof.Machine.execQnt1 s
  | .qnt2 => Sys2Proof.Machine.execQnt2 s
  | .encdc0 => Sys2Proof.Machine.execEncdc0 s
  | .encdc1 => Sys2Proof.Machine.execEncdc1 s
  | .encdc2 => Sys2Proof.Machine.execEncdc2 s
  | .encac0 => Sys2Proof.Machine.execEncac0 s
  | .encac1 => Sys2Proof.Machine.execEncac1 s
  | .encac2 => Sys2Proof.Machine.execEncac2 s
  | .putb n v => Sys2Proof.Machine.execPutb n v s
  | .fin => Sys2Proof.Machine.execFin s
  | .halt => Sys2Proof.Machine.execHalt s
  | .trap e => Sys2Proof.Machine.execTrap e s
  | .hwr8 addr data => Sys2Proof.Machine.execHwr8 addr data s
  | .hwr32 addr data => Sys2Proof.Machine.execHwr32 addr data s
  -- a read's recorded value plays no part in performing it (30 R56)
  | .hrd8 addr _ => Sys2Proof.Machine.execHrd8 addr s
  | .hrd32 addr _ => Sys2Proof.Machine.execHrd32 addr s

end Sys2Proof.Machine
end

