-- ==== Sys2Proof/Machine/Fetch.lean ====
section
/-! DEFINITION. What moves next: the core's schedule as a function of `SEQ` (45 R136), the host's listing (30 R54), and
whose turn it is (20 R47). -/

namespace Sys2Proof.Machine

open Sys2Proof

/-- What a step does. -/
inductive Activity where
  /-- nothing: the core has no step and nobody else moves -/
  | idle
  /-- the reset input is asserted (70 R169) -/
  | reset
  /-- an operation; the listing after it -/
  | op (i : Instr) (rest : List Word)
  /-- the listing's next word decodes to nothing (30 R59) -/
  | reserved (e : DecodeError)
  /-- `SEQ.PH = CSC` at a column that `CSC` cannot name (30 R57) -/
  | badColumn
deriving DecidableEq, Repr

/-- The operation named by `SEQ.PH`, "with `col = SEQ.COL` for `CSC`"; `none` at `IDLE` (45 R136, 10 R18). A column that
needs the 17th bit is no operand of `CSC` (30 R57): that case is `coreActivity`'s. -/
def scheduledOp (q : Seq) : Option Instr :=
  match q.ph with
  | .idle => none
  | .chk => some .chk
  | .init => some .init
  | .csc => some (.csc (q.col.setWidth 16))
  | .dctr0 => some .dctr0
  | .dctc0 => some .dctc0
  | .qnt0 => some .qnt0
  | .dctr1 => some .dctr1
  | .dctc1 => some .dctc1
  | .qnt1 => some .qnt1
  | .dctr2 => some .dctr2
  | .dctc2 => some .dctc2
  | .qnt2 => some .qnt2
  | .encdc0 => some .encdc0
  | .encac0 => some .encac0
  | .encdc1 => some .encdc1
  | .encac1 => some .encac1
  | .encdc2 => some .encdc2
  | .encac2 => some .encac2
  | .fin => some .fin
  | .halt => some .halt

/-- The core's step: the scheduled operation, or nothing at `IDLE` (45 R136). -/
def coreActivity (s : State) : Activity :=
  match scheduledOp s.hw.seq with
  | none => .idle
  | some i => if s.hw.seq.ph = .csc ∧ 2 ^ 16 ≤ s.hw.seq.col.toNat then .badColumn else .op i s.env.listing

/-- The next operation of the listing, or nothing when it is empty (30 R54, R60). -/
def listingActivity (s : State) : Activity :=
  match s.env.listing with
  | [] => .idle
  | w :: ws =>
    match decode (w :: ws) with
    | .ok (i, rest) => .op i rest
    | .error e => .reserved e

/-- Whose turn it is. With no turn given, the core moves while it has a step, and the host when it has none
(log entry 2). -/
def currentTurn (s : State) : Turn :=
  match s.env.turns with
  | t :: _ => t
  | [] => if s.hw.seq.ph = .idle then .host else .core

/-- What the next step does. -/
def nextActivity (s : State) : Activity :=
  match currentTurn s with
  | .core => coreActivity s
  | .host => listingActivity s
  | .reset => .reset

/-- What every step does beside its activity: the turn is used up, the free values move on, and the listing is `rest`. -/
def advance (rest : List Word) (s : State) : State :=
  { s with env := { s.env with listing := rest, turns := s.env.turns.tail, tick := s.env.tick + 1 } }

/-- The reset input acts on the hardware and on nothing else (70 R169). -/
def assertReset (s : State) : State := { s with hw := resetHardware s.cfg.arith s.env.tick }

/-- `words` before what the listing holds, and the host's turn first: the next step performs their first operation. -/
def placeWords (words : List Word) (s : State) : State :=
  { s with env := { s.env with listing := words ++ s.env.listing, turns := .host :: s.env.turns } }

end Sys2Proof.Machine
end

