-- ==== Sys2Proof/Machine/Step.lean ====
section
/-! DEFINITION. One step of the machine: of the core, of the host, or of the reset input (00 R11, 20 R47). -/

namespace Sys2Proof.Machine

open Sys2Proof

def step (s : State) : Host.Outcome State Fault Refusal :=
  match nextActivity s with
  | .idle => .next (advance s.env.listing s)
  | .reset => .next (assertReset (advance s.env.listing s))
  | .op i rest => exec i (advance rest s)
  | .reserved e => .refused (.reservedWord e)
  | .badColumn => .fault .cscColumn

/-- `s` with the operation of the opcode table whose bits are `w` where the next step fetches: first in the listing, on
the host agent's turn (log entry 1). -/
def State.withFetchWord (s : State) (nbits w : Nat) : State :=
  placeWords (tableWords nbits w) s

end Sys2Proof.Machine
end

