-- ==== Sys2Proof/Safety.lean ====
section
/-! DEFINITION. The terms of the claims: runs of steps, the output stream as bits and bytes (30 R77 to R79, 44 R128), the
reference function `encode_strip` (00 R2, 45 R143), and the invariant of the machine. Nothing here is part of the machine. -/

namespace Sys2Proof.Machine

open Sys2Proof

/-! ## Runs of steps -/

/-- `n` steps, stopping at the first fault or refusal. -/
def runSteps : Nat → State → Host.Outcome State Fault Refusal
  | 0, s => .next s
  | n + 1, s =>
    match step s with
    | .next t => runSteps n t
    | .fault r => .fault r
    | .refused r => .refused r

/-! ## The stream as bits and bytes -/

/-- The `n` bits that `PUTB v, n` contributes: `v[n-1]`, .., `v[0]` (30 R77). -/
def bitsOf (v n : Nat) : List Bool := (List.range n).map fun i => v.testBit (n - 1 - i)

/-- The byte whose bit 7 is the first of the bits; missing bits are zeros (30 R77, R79). -/
def byteOfBits (bits : List Bool) : Byte :=
  BitVec.ofNat 8 ((List.range 8).foldl (fun acc i => 2 * acc + (bits.getD i false).toNat) 0)

/-- Groups of 8 bits as bytes, the last one padded with zeros (30 R77, R79). -/
def packBits (bits : List Bool) : List Byte :=
  (List.range ((bits.length + 7) / 8)).map fun j => byteOfBits (bits.drop (8 * j))

/-- 0x00 after each 0xFF (30 R78). -/
def stuffBytes (bytes : List Byte) : List Byte :=
  bytes.flatMap fun b => if b = 0xFF then [0xFF, 0x00] else [b]

/-- The whole output of a writer that was given these bits and then finalized (44 R128). -/
def streamBytes (bits : List Bool) : List Byte := stuffBytes (packBits bits)

/-- `OUT[0 .. OUTLEN-1]` (10 R28). -/
def outBytes (h : Hardware) : List Byte := (List.range h.outlen.toNat).map (readByte h.out)

/-- The bytes `0 .. n-1` of a memory. -/
def bytesOf (m : Memory) (n : Nat) : List Byte := (List.range n).map (readByte m)

/-- `PUTB v, n` for each pair `(v, n)` in order. -/
def putAll : List (Nat × Nat) → Hardware → Option Hardware
  | [], h => some h
  | p :: ps, h => (putBits p.1 p.2 h).bind (putAll ps)

/-- The bits of a list of pairs `(v, n)` in order. -/
def pairBits (ps : List (Nat × Nat)) : List Bool := ps.flatMap fun p => bitsOf p.1 p.2

/-! ## One coded block, by the grammar of 30 R69 -/

/-- `LOOKUP` of a symbol that has a ROM entry, valid or not (43 R107); `none` is `UnsupportedSymbol`. -/
def codeOf (cfg : Config) (k : CoefKind) (t : TableSel) (i : Nat) : Option HuffCode :=
  lookup cfg k t (some i) default

/-- A code as a pair for `PUTB`. -/
def codePair (c : HuffCode) : Nat × Nat := (c.code.toNat, c.len)

/-- The extra bits of a value as pairs: none for category 0 (30 R68). -/
def extraPairs (v : Int) : List (Nat × Nat) :=
  if category v = 0 then [] else [(extraBits v, category v)]

/-- `dc := HUFFCODE(DC, t, n) EXTRA_n` (30 R69). -/
def dcPairs (cfg : Config) (t : TableSel) (diff : Int) : Option (List (Nat × Nat)) :=
  (codeOf cfg .dc t (category diff)).map fun c => codePair c :: extraPairs diff

/-- `ac := item* eob?` over the coefficients of the scan positions still to come, after `zeros` zeros: an item sends
`zeros / 16` ZRLs and the symbol with run `zeros mod 16`; zeros at the end send one EOB (30 R69). -/
def acPairs (cfg : Config) (t : TableSel) : (zeros : Nat) → List Int → Option (List (Nat × Nat))
  | zeros, [] => if zeros = 0 then some [] else (codeOf cfg .ac t 0x00).map fun c => [codePair c]
  | zeros, v :: rest =>
    if v = 0 then acPairs cfg t (zeros + 1) rest
    else do
      let zrls ← if zeros < 16 then some [] else (codeOf cfg .ac t 0xF0).map fun c => List.replicate (zeros / 16) (codePair c)
      let code ← codeOf cfg .ac t (16 * (zeros % 16) + category v)
      let tail ← acPairs cfg t 0 rest
      some (zrls ++ codePair code :: extraPairs v ++ tail)

/-- The coefficients at scan positions 1..63 (43 R110). -/
def acValues (cf : Fin 64 → Int) : List Int := (List.range' 1 63).map fun k => cf (zzNat k)

/-! ## `encode_strip` (45 R143) -/

/-- How `encode_strip` fails (60 R149). -/
inductive StripError where
  | invalidTableSize
  | pixelBufferSizeMismatch
  | unsupportedSymbol
deriving DecidableEq, Repr

/-- The error code of a failure (60 R149). -/
def errorCode : StripError → BitVec 4
  | .invalidTableSize => 1
  | .pixelBufferSizeMismatch => 2
  | .unsupportedSymbol => 3

/-- The samples of component `c` at column `col` of a strip (40 R80). -/
def stripSamples {α : Type} (A : ArithOps α) (pixels : List Byte) (width col : Nat) (c : Component) : Block α :=
  Vector.ofFn fun i =>
    let a := pixelAddress width (i.val / 8) (stripColumn width col (i.val % 8))
    convert A c (pixels.getD a 0) (pixels.getD (a + 1) 0) (pixels.getD (a + 2) 0)

/-- The quantized coefficients of component `c` at column `col`: `quantize(dct_cols(dct_rows(S)))`. -/
def stripCoefs {α : Type} (A : ArithOps α) (pixels : List Byte) (width : Nat) (lt ct : List Byte) (col : Nat) (c : Component) :
    Fin 64 → Int := fun i =>
  A.roundDiv (columnTransform A (rowTransform A (stripSamples A pixels width col c)))[i]
    ((if c = .y then lt else ct).getD i.val 0).toNat

/-- The pairs of one block: its DC difference from the block before it, then its AC part (30 R69, 43 R109). -/
def blockPairs (cfg : Config) (c : Component) (before : Int) (cf : Fin 64 → Int) : Option (List (Nat × Nat)) := do
  let dc ← dcPairs cfg (tableSel c) (cf 0 - before)
  let ac ← acPairs cfg (tableSel c) 0 (acValues cf)
  some (dc ++ ac)

/-- The pairs of the strip: macroblock columns in order, in each Y, Cb, Cr; the first predictor of a component is 0. -/
def stripPairs (cfg : Config) (coefs : Nat → Component → Fin 64 → Int) (columns : Nat) : Option (List (Nat × Nat)) :=
  ((List.range columns).flatMap fun j => [Component.y, .cb, .cr].map fun c => (j, c)).foldr
    (fun jc rest => do
      let block ← blockPairs cfg jc.2 (if jc.1 = 0 then 0 else coefs (jc.1 - 1) jc.2 0) (coefs jc.1 jc.2)
      let rest ← rest
      some (block ++ rest))
    (some [])

/-- `encode_strip(pixels, width, luma_table, chroma_table)` (00 R2, 45 R143). -/
def encodeStrip (cfg : Config) (pixels : List Byte) (width : Nat) (lt ct : List Byte) : Except StripError (List Byte) :=
  if lt.length ≠ 64 ∨ ct.length ≠ 64 then .error .invalidTableSize
  else if pixels.length ≠ width * 32 then .error .pixelBufferSizeMismatch
  else
    match stripPairs cfg (fun j => stripCoefs (arithOps cfg.arith) pixels width lt ct (8 * j)) ((width + 7) / 8) with
    | none => .error .unsupportedSymbol
    | some ps => .ok (streamBytes (pairBits ps))

/-! ## Launch states -/

/-- No table byte is zero (42 R102). -/
def stepsNonzero (h : Hardware) : Prop := ∀ i < 64, readByte h.ql i ≠ 0 ∧ readByte h.qc i ≠ 0

/-- The state a `START` leaves (45 R134) with nobody but the core to move before the run ends. -/
def launched (s : State) : Prop :=
  s.hw.seq.ph = .chk ∧ s.hw.status = statusBusy ∧ s.hw.outlen = 0 ∧ s.env.turns = []

/-- The check of `CHK` passes (45 R137). -/
def launchOk (h : Hardware) : Prop :=
  h.qllen.toNat = 64 ∧ h.qclen.toNat = 64 ∧ h.pixlen.toNat = h.width.toNat * 32

/-! ## The invariant -/

/-- The six values of `STATUS` (10 R21). -/
def statusLegal (st : Status) : Prop :=
  st = statusIdle ∨ st = statusBusy ∨ st = statusDone ∨ st = statusTrap 1 ∨ st = statusTrap 2 ∨ st = statusTrap 3

/-- The phases of a macroblock column. -/
def inMcu : Phase → Bool
  | .csc | .dctr0 | .dctc0 | .qnt0 | .dctr1 | .dctc1 | .qnt1 | .dctr2 | .dctc2 | .qnt2
  | .encdc0 | .encac0 | .encdc1 | .encac1 | .encdc2 | .encac2 => true
  | .idle | .chk | .init | .fin | .halt => false

/-- The phases after `INIT`, in which the writer is live. -/
def inStrip (ph : Phase) : Bool := inMcu ph || ph == .fin || ph == .halt

/-- An upper bound on the bits that a strip has written when the core stands at a phase of its column: each block sends
at most 32 bits for DC and 63 x 32 for AC, whatever the ROMs and the coefficients. -/
def bitBudget (q : Seq) : Nat :=
  768 * q.col.toNat +
    (match q.ph with
    | .encac0 => 32
    | .encdc1 => 2048
    | .encac1 => 2080
    | .encdc2 => 4096
    | .encac2 => 4128
    | .halt => 8
    | _ => 0)

/-- A memory in its canonical form, within its capacity. -/
def memoryOk (sp : Space) (h : Hardware) : Prop :=
  (memoryOf sp h).wf = true ∧ ∀ c ∈ memoryOf sp h, c.1 < capacity sp

/-- The stuffing invariant on a list of bytes (44 R125): after every 0xFF stands a 0x00. -/
def stuffed : List Byte → Bool
  | [] => true
  | [b] => b != 0xFF
  | b :: b' :: rest => (b != 0xFF || b' == 0x00) && stuffed (b' :: rest)

/-- Every operation of the listing is one of the host's (45 R129): no reserved word, no core operation. -/
def hostListing : List Word → Bool
  | [] => true
  | w0 :: w1 :: w2 :: rest =>
    (match decode [w0, w1, w2] with
      | .ok (i, []) => i.isHost
      | _ => false) && hostListing rest
  | _ => false

/-- The invariant of the hardware. -/
structure HwInv (h : Hardware) : Prop where
  memories : ∀ sp, memoryOk sp h
  status : statusLegal h.status
  busy : h.status.busy = true ↔ h.seq.ph ≠ .idle
  failed : h.status.err = true → h.outlen = 0
  starting : h.seq.ph = .chk ∨ h.seq.ph = .init → h.outlen = 0
  checked : inStrip h.seq.ph = true ∨ h.seq.ph = .init → launchOk h
  aligned : inStrip h.seq.ph = true → h.seq.col.toNat % 8 = 0
  column : inMcu h.seq.ph = true → h.seq.col.toNat < h.width.toNat
  finished : h.seq.ph = .fin ∨ h.seq.ph = .halt → h.width.toNat ≤ h.seq.col.toNat ∧ h.seq.col.toNat ≤ 65536
  writer : inStrip h.seq.ph = true → h.cnt.toNat ≤ 7 ∧ h.acc.toNat < 2 ^ h.cnt.toNat
  flushed : h.seq.ph = .halt → h.cnt = 0
  stuffing : stuffed (outBytes h) = true
  budget : inStrip h.seq.ph = true → 4 * h.outlen.toNat + h.cnt.toNat ≤ bitBudget h.seq
  capacity : h.outlen.toNat ≤ 12582914

/-- Every register of `SB` holds a value of the instance's carrier (00 R8, 10 R13). -/
def samplesCarried (s : State) : Prop := ∀ (c : Component) (i : Fin 64), carried s.cfg.arith (getComp s.hw.sb c)[i] = true

/-- The invariant of the machine: of the hardware, of its samples, and a listing of host operations only. -/
structure Inv (s : State) : Prop where
  hw : HwInv s.hw
  samples : samplesCarried s
  listing : hostListing s.env.listing = true

end Sys2Proof.Machine
end

