-- ==== Sys2Proof/Certificates/Slice0/Obligations.lean ====
section
/-! DEFINITION. The statements for the provers, and the terms they are written in. Each docstring names the rules of spec/
that the statement formalises. -/

namespace Sys2Proof.Claims

open Sys2Proof Sys2Proof.Machine

/-! ## Operations and phases by component -/

def dctrOp : Component → Instr
  | .y => .dctr0
  | .cb => .dctr1
  | .cr => .dctr2

def dctcOp : Component → Instr
  | .y => .dctc0
  | .cb => .dctc1
  | .cr => .dctc2

def qntOp : Component → Instr
  | .y => .qnt0
  | .cb => .qnt1
  | .cr => .qnt2

def encdcOp : Component → Instr
  | .y => .encdc0
  | .cb => .encdc1
  | .cr => .encdc2

def encacOp : Component → Instr
  | .y => .encac0
  | .cb => .encac1
  | .cr => .encac2

def dctcPhase : Component → Phase
  | .y => .dctc0
  | .cb => .dctc1
  | .cr => .dctc2

def qntPhase : Component → Phase
  | .y => .qnt0
  | .cb => .qnt1
  | .cr => .qnt2

/-- The phase after `QNT c` (42 R100). -/
def afterQnt : Component → Phase
  | .y => .dctr1
  | .cb => .dctr2
  | .cr => .encdc0

def encacPhase : Component → Phase
  | .y => .encac0
  | .cb => .encac1
  | .cr => .encac2

/-- `SEQ` after `ENCAC c` (43 R112, 45 R139). -/
def afterEncac (c : Component) (h : Hardware) : Seq :=
  match c with
  | .y => { h.seq with ph := .encdc1 }
  | .cb => { h.seq with ph := .encdc2 }
  | .cr =>
    if h.seq.col.toNat + 8 < h.width.toNat then { ph := .csc, col := h.seq.col + 8 }
    else { ph := .fin, col := h.seq.col + 8 }

/-- The operation a phase names (10 R18, 45 R136). -/
def operationAt (q : Seq) : Option Instr :=
  match q.ph with
  | .idle => none
  | .chk => some .chk
  | .init => some .init
  | .csc => some (.csc (q.col.setWidth 16))
  | .dctr0 => some .dctr0
  | .dctc0 => some .dctc0
  | .qnt0 => some .qnt0
  | .dctr1 => some .dctr1
  | .dctc1 => some .dctc1
  | .qnt1 => some .qnt1
  | .dctr2 => some .dctr2
  | .dctc2 => some .dctc2
  | .qnt2 => some .qnt2
  | .encdc0 => some .encdc0
  | .encac0 => some .encac0
  | .encdc1 => some .encdc1
  | .encac1 => some .encac1
  | .encdc2 => some .encdc2
  | .encac2 => some .encac2
  | .fin => some .fin
  | .halt => some .halt

/-- The transition table of 45 R136, without the traps. -/
def phaseAfter (h : Hardware) : Phase :=
  match h.seq.ph with
  | .idle => .idle
  | .chk => .init
  | .init => if 0 < h.width.toNat then .csc else .fin
  | .csc => .dctr0
  | .dctr0 => .dctc0
  | .dctc0 => .qnt0
  | .qnt0 => .dctr1
  | .dctr1 => .dctc1
  | .dctc1 => .qnt1
  | .qnt1 => .dctr2
  | .dctr2 => .dctc2
  | .dctc2 => .qnt2
  | .qnt2 => .encdc0
  | .encdc0 => .encac0
  | .encac0 => .encdc1
  | .encdc1 => .encac1
  | .encac1 => .encdc2
  | .encdc2 => .encac2
  | .encac2 => if h.seq.col.toNat + 8 < h.width.toNat then .csc else .fin
  | .fin => .halt
  | .halt => .idle

/-- The phases in which a trap can be taken (10 R18). -/
def mayTrap (ph : Phase) : Bool :=
  [Phase.chk, .encdc0, .encac0, .encdc1, .encac1, .encdc2, .encac2].contains ph

/-! ## Who moves -/

/-- The core moves next: its turn is listed, or no turn is and it has a step (log entry 2). -/
def coreMoves (s : State) : Prop :=
  s.env.turns.head? = some .core ∨ (s.env.turns = [] ∧ s.hw.seq.ph ≠ .idle)

/-- The host moves next (log entry 2). -/
def hostMoves (s : State) : Prop :=
  s.env.turns.head? = some .host ∨ (s.env.turns = [] ∧ s.hw.seq.ph = .idle)

/-- What a step does to the model's own fields before its operation runs: the turn is used, `tick` moves on, the listing is
`rest`. -/
def passTurn (rest : List Word) (s : State) : State :=
  { s with env := { listing := rest, turns := s.env.turns.tail, resp := s.env.resp, tick := s.env.tick + 1 } }

/-! ## Encodings -/

/-- The assigned values of `op` (30 R58). -/
def assignedOps : List Nat :=
  [0x10, 0x14, 0x18, 0x20, 0x21, 0x22, 0x24, 0x25, 0x26, 0x28, 0x29, 0x2A] ++
  [0x30, 0x31, 0x32, 0x34, 0x35, 0x36, 0x40, 0x44, 0x48, 0x4C, 0x80, 0x81, 0x84, 0x85]

/-- The values of `op` whose word has no operand field: `imm` is zero (30 R56, R57). -/
def plainOps : List Nat :=
  [0x10, 0x14, 0x20, 0x21, 0x22, 0x24, 0x25, 0x26, 0x28, 0x29, 0x2A] ++
  [0x30, 0x31, 0x32, 0x34, 0x35, 0x36, 0x44, 0x48, 0x80, 0x81, 0x84, 0x85]

/-- The windows of 20 R39: the space, its first and its last offset. -/
def windows : List (Space × Nat × Nat) :=
  [(.ql, 0x100, 0x13F), (.qc, 0x140, 0x17F), (.pix, 0x200000, 0x3FFFFF), (.out, 0x1000000, 0x1FFFFFF)]

/-- The offset lies in no window of 20 R39. -/
def outsideWindows (a : Nat) : Prop := ∀ w ∈ windows, ¬(w.2.1 ≤ a ∧ a ≤ w.2.2)

/-! ## The reference meaning of `Real` (00 R8) -/

open Real in
/-- The seven constants as exact cosines (41 R88). -/
noncomputable def realConst : DctConst → ℝ
  | .ka => cos (4 * π / 16) / 2
  | .k1 => cos (1 * π / 16) / 2
  | .k2 => cos (2 * π / 16) / 2
  | .k3 => cos (3 * π / 16) / 2
  | .k5 => cos (5 * π / 16) / 2
  | .k6 => cos (6 * π / 16) / 2
  | .k7 => cos (7 * π / 16) / 2

/-- The mathematical real numbers as an arithmetic (00 R8). -/
noncomputable def realOps : ArithOps ℝ :=
  { lit := fun q => (q : ℝ)
    add := fun x y => x + y
    sub := fun x y => x - y
    mul := fun x y => x * y
    const := realConst
    roundDiv := fun x step => if 0 ≤ x / step then ⌊x / step + 1 / 2⌋ else -⌊-(x / step) + 1 / 2⌋ }

/-- The scale of output `k` of the orthonormal 8-point DCT-II (41 R90, R94). -/
noncomputable def dctScale (k : Fin 8) : ℝ := if k = 0 then 1 / Real.sqrt 8 else 1 / 2

/-- The basis cosine of output `k` at input `n` (41 R90). -/
noncomputable def dctCos (k n : Fin 8) : ℝ := Real.cos ((2 * n.val + 1) * k.val * Real.pi / 16)

/-- The two passes of the transform (41 R93). -/
def transform {α : Type} (A : ArithOps α) (b : Block α) : Block α := columnTransform A (rowTransform A b)

/-- `pixels` is a strip of `width` pixels, and `col` the left column of one of its macroblock columns (40 R80, R82, 45 R137,
R139). -/
def isStrip (pixels : List Byte) (width col : Nat) : Prop :=
  width ≤ 65535 ∧ pixels.length = width * 32 ∧ col < width ∧ col % 8 = 0

/-- What the column pass leaves for component `c` of the macroblock column at `col` (00 R10). -/
def columnPassOf {α : Type} (A : ArithOps α) (pixels : List Byte) (width col : Nat) (c : Component) : Block α :=
  transform A (stripSamples A pixels width col c)

/-- `ArithClose(eps)` (00 R10): the arithmetic, whose carrier values stand for the real numbers that `value` gives, is admissible
with bound `eps`. -/
def arithClose {α : Type} (A : ArithOps α) (value : α → ℝ) (eps : ℝ) : Prop :=
  ∀ (pixels : List Byte) (width col : Nat) (c : Component) (i : Fin 64), isStrip pixels width col →
    |value (columnPassOf A pixels width col c)[i] - (columnPassOf realOps pixels width col c)[i]| ≤ eps

/-- The rounding of the arithmetic is `RHA` of the exact quotient of the real number (42 R99, R100). -/
def roundsExactly {α : Type} (A : ArithOps α) (value : α → ℝ) : Prop :=
  ∀ (x : α) (step : Nat), 0 < step → A.roundDiv x step = realOps.roundDiv (value x) step

/-- Both quantization tables have 64 entries and no entry is zero (42 R102). -/
def tablesPositive (lt ct : List Byte) : Prop :=
  lt.length = 64 ∧ ct.length = 64 ∧ (∀ b ∈ lt, b ≠ 0) ∧ ∀ b ∈ ct, b ≠ 0

/-! ## The coder and the writer -/

/-- `DECODE(n, e)` (43 R120). -/
def decodeExtra (n e : Nat) : Int :=
  if n = 0 then 0 else if 2 ^ (n - 1) ≤ e then e else (e : Int) - (2 ^ n - 1)

/-- The number whose binary digits are the bits, most significant first (00 R6). -/
def natOfBits (bits : List Bool) : Nat := bits.foldl (fun a b => 2 * a + b.toNat) 0

/-- The whole bytes among the bits (30 R77). -/
def wholeBytes (bits : List Bool) : List Byte := (List.range (bits.length / 8)).map fun j => byteOfBits (bits.drop (8 * j))

/-- `m` is `LAST` of the block (43 R111). -/
def isLast (cf : Block (BitVec 16)) (m : Nat) : Prop :=
  m ≤ 63 ∧ (m = 0 ∨ cf[zzNat m] ≠ 0) ∧ ∀ k, m < k → k ≤ 63 → cf[zzNat k] = 0

/-- The hardware where a coding operation ended or missed: `OUTLEN` there is one past the last byte it stored. -/
def codingEnd : Coding → Option Hardware
  | .coded h => some h
  | .missed h => some h
  | .full => none

/-- `ACC` and `CNT` between operations (10 R16, 44 R124). -/
def writerOk (h : Hardware) : Prop := h.cnt.toNat ≤ 7 ∧ h.acc.toNat < 2 ^ h.cnt.toNat

/-! ## Runs -/

/-- The hardware as a `START` leaves it (45 R134). -/
def started (h : Hardware) : Prop := h.seq.ph = .chk ∧ h.status = statusBusy ∧ h.outlen = 0

/-- Nothing but the core and the host's own operations will move: the reset input is not asserted. -/
def undisturbed (s : State) : Prop := (∀ x ∈ s.env.turns, x ≠ .reset) ∧ hostListing s.env.listing = true

/-- `t` is the first state from `s` on in which the core is idle, after `n` steps. -/
def endsAfter (n : Nat) (s t : State) : Prop :=
  runSteps n s = .next t ∧ t.hw.seq.ph = .idle ∧ ∀ m < n, ∀ u, runSteps m s = .next u → u.hw.seq.ph ≠ .idle

/-- What `encode_strip` gives for the launch state of `h` (45 R143). -/
def stripResult (cfg : Config) (h : Hardware) : Except StripError (List Byte) :=
  encodeStrip cfg (bytesOf h.pix h.pixlen.toNat) h.width.toNat (bytesOf h.ql h.qllen.toNat) (bytesOf h.qc h.qclen.toNat)

/-- The hardware reports this result (45 R142). -/
def reports (r : Except StripError (List Byte)) (h : Hardware) : Prop :=
  match r with
  | .ok bytes => h.status = statusDone ∧ outBytes h = bytes
  | .error e => h.status = statusTrap (errorCode e) ∧ h.outlen = 0

/-- The launch state is the same (00 glossary "launch state"). -/
def sameLaunch (h h' : Hardware) : Prop :=
  h'.width = h.width ∧ h'.pixlen = h.pixlen ∧ h'.qllen = h.qllen ∧ h'.qclen = h.qclen ∧
    h'.pix = h.pix ∧ h'.ql = h.ql ∧ h'.qc = h.qc

/-- Every byte of every memory reads as before. -/
def sameBytes (h h' : Hardware) : Prop := ∀ sp a, readByte (memoryOf sp h') a = readByte (memoryOf sp h) a

/-- Every byte of `QL`, `QC`, `PIX` reads as before, and every byte of `OUT` outside the indices `lo .. hi-1`. -/
def sameBytesOutside (lo hi : Nat) (h h' : Hardware) : Prop :=
  (∀ sp a, sp ≠ .out → readByte (memoryOf sp h') a = readByte (memoryOf sp h) a) ∧
    ∀ a, a < lo ∨ hi ≤ a → readByte h'.out a = readByte h.out a

/-- Every memory in its canonical form and within its capacity, and `STATUS` one of its six values. -/
def legalState (h : Hardware) : Prop := (∀ sp, memoryOk sp h) ∧ statusLegal h.status

/-! ## The published form of the Huffman tables -/

/-- `BITS` and `HUFFVAL` of the DC tables (30 R72). -/
def dcLumaBits : List Nat := [0, 1, 5, 1, 1, 1, 1, 1, 1, 0, 0, 0, 0, 0, 0, 0]
def dcChromaBits : List Nat := [0, 3, 1, 1, 1, 1, 1, 1, 1, 1, 1, 0, 0, 0, 0, 0]
def dcSymbols : List Nat := [0, 1, 2, 3, 4, 5, 6, 7, 8, 9, 10, 11]

/-- `BITS` and `HUFFVAL` of the AC luma table (30 R73). -/
def acLumaBits : List Nat := [0, 2, 1, 3, 3, 2, 4, 3, 5, 5, 4, 4, 0, 0, 1, 125]
def acLumaSymbols : List Nat :=
  [0x01, 0x02, 0x03, 0x00, 0x04, 0x11, 0x05, 0x12, 0x21, 0x31, 0x41, 0x06, 0x13, 0x51, 0x61, 0x07] ++
  [0x22, 0x71, 0x14, 0x32, 0x81, 0x91, 0xA1, 0x08, 0x23, 0x42, 0xB1, 0xC1, 0x15, 0x52, 0xD1, 0xF0] ++
  [0x24, 0x33, 0x62, 0x72, 0x82, 0x09, 0x0A, 0x16, 0x17, 0x18, 0x19, 0x1A, 0x25, 0x26, 0x27, 0x28] ++
  [0x29, 0x2A, 0x34, 0x35, 0x36, 0x37, 0x38, 0x39, 0x3A, 0x43, 0x44, 0x45, 0x46, 0x47, 0x48, 0x49] ++
  [0x4A, 0x53, 0x54, 0x55, 0x56, 0x57, 0x58, 0x59, 0x5A, 0x63, 0x64, 0x65, 0x66, 0x67, 0x68, 0x69] ++
  [0x6A, 0x73, 0x74, 0x75, 0x76, 0x77, 0x78, 0x79, 0x7A, 0x83, 0x84, 0x85, 0x86, 0x87, 0x88, 0x89] ++
  [0x8A, 0x92, 0x93, 0x94, 0x95, 0x96, 0x97, 0x98, 0x99, 0x9A, 0xA2, 0xA3, 0xA4, 0xA5, 0xA6, 0xA7] ++
  [0xA8, 0xA9, 0xAA, 0xB2, 0xB3, 0xB4, 0xB5, 0xB6, 0xB7, 0xB8, 0xB9, 0xBA, 0xC2, 0xC3, 0xC4, 0xC5] ++
  [0xC6, 0xC7, 0xC8, 0xC9, 0xCA, 0xD2, 0xD3, 0xD4, 0xD5, 0xD6, 0xD7, 0xD8, 0xD9, 0xDA, 0xE1, 0xE2] ++
  [0xE3, 0xE4, 0xE5, 0xE6, 0xE7, 0xE8, 0xE9, 0xEA, 0xF1, 0xF2, 0xF3, 0xF4, 0xF5, 0xF6, 0xF7, 0xF8] ++
  [0xF9, 0xFA]

/-- `BITS` and `HUFFVAL` of the AC chroma table (30 R74). -/
def acChromaBits : List Nat := [0, 2, 1, 2, 4, 4, 3, 4, 7, 5, 4, 4, 0, 1, 2, 119]
def acChromaSymbols : List Nat :=
  [0x00, 0x01, 0x02, 0x03, 0x11, 0x04, 0x05, 0x21, 0x31, 0x06, 0x12, 0x41, 0x51, 0x07, 0x61, 0x71] ++
  [0x13, 0x22, 0x32, 0x81, 0x08, 0x14, 0x42, 0x91, 0xA1, 0xB1, 0xC1, 0x09, 0x23, 0x33, 0x52, 0xF0] ++
  [0x15, 0x62, 0x72, 0xD1, 0x0A, 0x16, 0x24, 0x34, 0xE1, 0x25, 0xF1, 0x17, 0x18, 0x19, 0x1A, 0x26] ++
  [0x27, 0x28, 0x29, 0x2A, 0x35, 0x36, 0x37, 0x38, 0x39, 0x3A, 0x43, 0x44, 0x45, 0x46, 0x47, 0x48] ++
  [0x49, 0x4A, 0x53, 0x54, 0x55, 0x56, 0x57, 0x58, 0x59, 0x5A, 0x63, 0x64, 0x65, 0x66, 0x67, 0x68] ++
  [0x69, 0x6A, 0x73, 0x74, 0x75, 0x76, 0x77, 0x78, 0x79, 0x7A, 0x82, 0x83, 0x84, 0x85, 0x86, 0x87] ++
  [0x88, 0x89, 0x8A, 0x92, 0x93, 0x94, 0x95, 0x96, 0x97, 0x98, 0x99, 0x9A, 0xA2, 0xA3, 0xA4, 0xA5] ++
  [0xA6, 0xA7, 0xA8, 0xA9, 0xAA, 0xB2, 0xB3, 0xB4, 0xB5, 0xB6, 0xB7, 0xB8, 0xB9, 0xBA, 0xC2, 0xC3] ++
  [0xC4, 0xC5, 0xC6, 0xC7, 0xC8, 0xC9, 0xCA, 0xD2, 0xD3, 0xD4, 0xD5, 0xD6, 0xD7, 0xD8, 0xD9, 0xDA] ++
  [0xE2, 0xE3, 0xE4, 0xE5, 0xE6, 0xE7, 0xE8, 0xE9, 0xEA, 0xF2, 0xF3, 0xF4, 0xF5, 0xF6, 0xF7, 0xF8] ++
  [0xF9, 0xFA]

end Sys2Proof.Claims

open Sys2Proof Sys2Proof.Machine Sys2Proof.Claims

/-! ## Encodings -/

/-- 95 V8, from 30 R55 to R58: "`decode(encode(x)) = x` for every legal operation `x`"; the words after it stay. And 44 R121: the
words of `PUTB v, n` record `v mod 2^n`, whatever `v` is. -/
def Obligations.DecodeOfEncode : Prop :=
  (∀ (i : Instr) (rest : List Word), i.wellFormed = true → decode (encode i ++ rest) = .ok (i, rest)) ∧
  ∀ (n : BitVec 5) (v : BitVec 16) (rest : List Word), n.toNat ≤ 16 →
    decode (encode (.putb n v) ++ rest) = .ok (.putb n (BitVec.ofNat 16 (v.toNat % 2 ^ n.toNat)), rest)

/-- 95 V8, from 30 R55 to R60: "`encode(decode(w)) = w` for every word (or triple) that decodes", and what decodes is legal. -/
def Obligations.EncodeOfDecode : Prop :=
  ∀ (ws : List Word) (i : Instr) (rest : List Word), decode ws = .ok (i, rest) →
    i.wellFormed = true ∧ ws = encode i ++ rest

/-- 30 R59: an unassigned `op`, or an operand field that breaks a "legal values" or "zero" column of R56 or R57, decodes to
nothing. -/
def Obligations.ReservedWordsRefused : Prop :=
  ∀ (w : Word) (rest : List Word),
    ((opOf w).toNat ∉ assignedOps → ∃ e, decode (w :: rest) = .error e) ∧
    ((opOf w).toNat ∈ plainOps → immOf w ≠ 0 → ∃ e, decode (w :: rest) = .error e) ∧
    ((opOf w).toNat = 0x18 → (w.extractLsb' 16 8 ≠ 0 ∨ (w.extractLsb' 0 16).toNat % 8 ≠ 0) →
      ∃ e, decode (w :: rest) = .error e) ∧
    ((opOf w).toNat = 0x40 →
      (w.extractLsb' 21 3 ≠ 0 ∨ 16 < (w.extractLsb' 16 5).toNat ∨
        2 ^ (w.extractLsb' 16 5).toNat ≤ (w.extractLsb' 0 16).toNat) → ∃ e, decode (w :: rest) = .error e) ∧
    ((opOf w).toNat = 0x4C →
      (w.extractLsb' 4 20 ≠ 0 ∨ (w.extractLsb' 0 4).toNat = 0 ∨ 3 < (w.extractLsb' 0 4).toNat) →
      ∃ e, decode (w :: rest) = .error e) ∧
    ((opOf w).toNat = 0x80 ∨ (opOf w).toNat = 0x84 →
      ∀ (addr data : Word) (more : List Word), rest = addr :: data :: more → data.extractLsb' 8 24 ≠ 0 →
        ∃ e, decode (w :: rest) = .error e)

/-- 30 R61 and 95 V8: words written out in the spec, one at least of every family. -/
def Obligations.SpecWordsDecode : Prop :=
  decode [0x10000000] = .ok (.chk, []) ∧ decode [0x14000000] = .ok (.init, []) ∧
  decode [0x1800FFF8] = .ok (.csc 65528, []) ∧ decode [0x21000000] = .ok (.dctr1, []) ∧
  decode [0x26000000] = .ok (.dctc2, []) ∧ decode [0x29000000] = .ok (.qnt1, []) ∧
  decode [0x30000000] = .ok (.encdc0, []) ∧ decode [0x36000000] = .ok (.encac2, []) ∧
  decode [0x400901FE] = .ok (.putb 9 0x1FE, []) ∧ decode [0x44000000] = .ok (.fin, []) ∧
  decode [0x48000000] = .ok (.halt, []) ∧ decode [0x4C000002] = .ok (.trap 2, []) ∧
  decode [0x81000000, 0x00000008, 0x00000008] = .ok (.hwr32 8 8, []) ∧
  decode [0x80000000, 0x00000100, 0x00000010] = .ok (.hwr8 0x100 16, []) ∧
  decode [0x85000000, 0x00000004, 0x00000000] = .ok (.hrd32 4 0, []) ∧
  decode [0x84000000, 0x01000000, 0x00000000] = .ok (.hrd8 0x1000000 0, [])

/-! ## The step -/

/-- 30 R54, R60, 45 R129: on the host's turn a step runs the operation that the listing's first words decode to, after the turn
is used. That operations come from a listing is the model's choice (log entries 1, 2, 24). -/
def Obligations.StepRunsListedOperation : Prop :=
  ∀ s : State, hostMoves s →
    (∀ i rest, decode s.env.listing = .ok (i, rest) → step s = exec i (passTurn rest s)) ∧
    (s.env.listing = [] → step s = .next (passTurn [] s)) ∧
    (∀ e, s.env.listing ≠ [] → decode s.env.listing = .error e → step s = .refused (.reservedWord e))

/-- 45 R136, 10 R18: on the core's turn a step executes the operation named by `SEQ.PH`, with `col = SEQ.COL` for `CSC`; at
`IDLE` the core has no step. Whose turn it is, is the model's choice (log entry 2); a `CSC` phase at a column that `CSC` cannot
name faults (log entry 18). -/
def Obligations.StepRunsScheduledOperation : Prop :=
  ∀ s : State, coreMoves s →
    (∀ i, operationAt s.hw.seq = some i → (s.hw.seq.ph = .csc → s.hw.seq.col.toNat < 2 ^ 16) →
      step s = exec i (passTurn s.env.listing s)) ∧
    (s.hw.seq.ph = .idle → step s = .next (passTurn s.env.listing s)) ∧
    (s.hw.seq.ph = .csc → 2 ^ 16 ≤ s.hw.seq.col.toNat → step s = .fault .cscColumn)

/-- 45 R136: the transition table, the column beside it, and where a trap goes. -/
def Obligations.NextPhaseOfSchedule : Prop :=
  ∀ s t : State, coreMoves s → s.hw.seq.ph ≠ .idle → step s = .next t →
    (t.hw.seq.ph = phaseAfter s.hw ∧ (s.hw.seq.ph ≠ .halt → t.hw.status = s.hw.status) ∧
      (s.hw.seq.ph = .halt → t.hw.status = statusDone) ∧
      (s.hw.seq.ph = .init → t.hw.seq.col = 0) ∧
      (s.hw.seq.ph = .encac2 → s.hw.seq.col.toNat + 8 < 2 ^ 17 → t.hw.seq.col = s.hw.seq.col + 8) ∧
      (s.hw.seq.ph ≠ .init → s.hw.seq.ph ≠ .encac2 → t.hw.seq.col = s.hw.seq.col)) ∨
    (mayTrap s.hw.seq.ph = true ∧ t.hw.seq = { s.hw.seq with ph := .idle } ∧ t.hw.status.err = true)

/-! ## Reset -/

/-- 10 R35: the values the table gives, at the model's reset state. -/
def Obligations.ResetValues : Prop :=
  State.reset.hw.status = { busy := false, done := false, err := false, errcode := 0 } ∧
  State.reset.hw.width = 0 ∧ State.reset.hw.pixlen = 0 ∧ State.reset.hw.qllen = 0 ∧ State.reset.hw.qclen = 0 ∧
  State.reset.hw.outlen = 0 ∧ State.reset.hw.seq.ph = .idle

/-- 70 R169, R170 with 10 R35: the reset input, asserted in any state, leaves the values of the table and does not touch the
ROMs; and 10 R35's last sentence: a `START` straight after it ends with error 1. That reset is a turn is the model's choice (log
entry 20). -/
def Obligations.ResetInput : Prop :=
  ∀ s : State, s.env.turns.head? = some .reset →
    ∃ t, step s = .next t ∧
      t.hw.status = { busy := false, done := false, err := false, errcode := 0 } ∧
      t.hw.width = 0 ∧ t.hw.pixlen = 0 ∧ t.hw.qllen = 0 ∧ t.hw.qclen = 0 ∧ t.hw.outlen = 0 ∧ t.hw.seq.ph = .idle ∧
      t.cfg = s.cfg ∧
      ∃ u v, exec (.hwr32 0 1) t = .next u ∧ exec .chk u = .next v ∧
        v.hw.status = { busy := false, done := false, err := true, errcode := 1 }

/-! ## The sequencer's operations -/

/-- 45 R137, 60 R154: `CHK`. Everything not written here stays. -/
def Obligations.ChkOutcome : Prop :=
  ∀ s : State, exec .chk s = .next { s with hw :=
    if s.hw.qllen.toNat ≠ 64 ∨ s.hw.qclen.toNat ≠ 64 then
      { s.hw with
        status := { busy := false, done := false, err := true, errcode := 1 }, outlen := 0
        seq := { s.hw.seq with ph := .idle } }
    else if s.hw.pixlen.toNat ≠ s.hw.width.toNat * 32 then
      { s.hw with
        status := { busy := false, done := false, err := true, errcode := 2 }, outlen := 0
        seq := { s.hw.seq with ph := .idle } }
    else { s.hw with seq := { s.hw.seq with ph := .init } } }

/-- 45 R138: `INIT`. -/
def Obligations.InitOutcome : Prop :=
  ∀ s : State, exec .init s = .next { s with hw := { s.hw with
    pred := ⟨0, 0, 0⟩, acc := 0, cnt := 0
    seq := if 0 < s.hw.width.toNat then { ph := .csc, col := 0 } else { ph := .fin, col := 0 } } }

/-- 45 R140: `HALT`. -/
def Obligations.HaltOutcome : Prop :=
  ∀ s : State, exec .halt s = .next { s with hw := { s.hw with
    status := { busy := false, done := true, err := false, errcode := 0 }, seq := { s.hw.seq with ph := .idle } } }

/-- 45 R141, 60 R155: `TRAP e`, for the three codes that exist. -/
def Obligations.TrapOutcome : Prop :=
  ∀ (s : State) (e : BitVec 4), 1 ≤ e.toNat → e.toNat ≤ 3 →
    exec (.trap e) s = .next { s with hw := { s.hw with
      status := { busy := false, done := false, err := true, errcode := e }, outlen := 0
      seq := { s.hw.seq with ph := .idle } } }

/-- 30 R57, R59, 44 R126: a `PUTB` of more than 16 bits has no meaning, and `CSC` and `TRAP` have no encoding for these operands:
each stops by name. -/
def Obligations.OperandsWithoutMeaningStop : Prop :=
  ∀ s : State,
    (∀ n v, 16 < n.toNat → exec (.putb n v) s = .refused .putbCount) ∧
    (∀ col, col.toNat % 8 ≠ 0 → exec (.csc col) s = .refused .reservedOperand) ∧
    (∀ e, e.toNat = 0 ∨ 3 < e.toNat → exec (.trap e) s = .refused .reservedOperand)

/-! ## The colour converter -/

/-- 40 R80 to R83, R85: `CSC` writes, for every pixel of the block, the three formulas in the instance's arithmetic and in the
order they are written, reading strip column `min(col + j, WIDTH - 1)`; under `Q30` they are the exact sums, scaled by 10^6 (R83).
It writes `SB` and `SEQ` and nothing else, and completes for every width. R80 takes a column below `WIDTH`: that `CSC` completes
with `WIDTH = 0`, and what it reads at a column of `WIDTH` or above, is the model's choice (log entry 8). -/
def Obligations.CscResult : Prop :=
  ∀ (s : State) (col : BitVec 16), col.toNat % 8 = 0 →
    ∃ sb, exec (.csc col) s =
        .next { s with hw := { s.hw with sb := sb, seq := { ph := .dctr0, col := col.setWidth 17 } } } ∧
      (s.hw.width ≠ 0 → ∀ r j : Fin 8,
        let x := min (col.toNat + j.val) (s.hw.width.toNat - 1)
        let a := (r.val * s.hw.width.toNat + x) * 4
        let R : ℚ := (readByte s.hw.pix a).toNat
        let G : ℚ := (readByte s.hw.pix (a + 1)).toNat
        let B : ℚ := (readByte s.hw.pix (a + 2)).toNat
        let A := arithOps s.cfg.arith
        blockAt sb.y r j =
          A.sub (A.add (A.add (A.mul (A.lit (299 / 1000)) (A.lit R)) (A.mul (A.lit (587 / 1000)) (A.lit G)))
            (A.mul (A.lit (114 / 1000)) (A.lit B))) (A.lit 128) ∧
        blockAt sb.cb r j =
          A.add (A.sub (A.mul (A.lit (-168736 / 1000000)) (A.lit R)) (A.mul (A.lit (331264 / 1000000)) (A.lit G)))
            (A.mul (A.lit (5 / 10)) (A.lit B)) ∧
        blockAt sb.cr r j =
          A.sub (A.sub (A.mul (A.lit (5 / 10)) (A.lit R)) (A.mul (A.lit (418688 / 1000000)) (A.lit G)))
            (A.mul (A.lit (81312 / 1000000)) (A.lit B)) ∧
        (s.cfg.arith = .q30 → ∃ y cb cr : ℚ,
          blockAt sb.y r j = .exact y ∧ blockAt sb.cb r j = .exact cb ∧ blockAt sb.cr r j = .exact cr ∧
          y * 10 ^ 6 = 299000 * R + 587000 * G + 114000 * B - 128000000 ∧
          cb * 10 ^ 6 = -168736 * R - 331264 * G + 500000 * B ∧
          cr * 10 ^ 6 = 500000 * R - 418688 * G - 81312 * B))

/-- 40 R86: the ranges after `CSC` under `Q30`, each bound with the pixel that reaches it. -/
def Obligations.SampleRanges : Prop :=
  (∀ r g b : Byte,
    (-128 ≤ convert q30Ops .y r g b ∧ convert q30Ops .y r g b ≤ 127) ∧
    (-(255 / 2) ≤ convert q30Ops .cb r g b ∧ convert q30Ops .cb r g b ≤ 255 / 2) ∧
    (-(255 / 2) ≤ convert q30Ops .cr r g b ∧ convert q30Ops .cr r g b ≤ 255 / 2)) ∧
  convert q30Ops .y 0 0 0 = -128 ∧ convert q30Ops .y 255 255 255 = 127 ∧
  convert q30Ops .cb 255 255 0 = -(255 / 2) ∧ convert q30Ops .cb 0 0 255 = 255 / 2 ∧
  convert q30Ops .cr 0 255 255 = -(255 / 2) ∧ convert q30Ops .cr 255 0 0 = 255 / 2

/-- 40 R84, R85: two `CSC` with the same `col`, `WIDTH`, arithmetic and colour bytes leave the same `SB`, whatever the alpha
bytes and everything else hold. -/
def Obligations.CscIgnoresAlphaAndState : Prop :=
  ∀ (s s' t t' : State) (col : BitVec 16), s.cfg.arith = s'.cfg.arith → s.hw.width = s'.hw.width → s.hw.width ≠ 0 →
    (∀ a, a % 4 ≠ 3 → readByte s.hw.pix a = readByte s'.hw.pix a) →
    exec (.csc col) s = .next t → exec (.csc col) s' = .next t' → t.hw.sb = t'.hw.sb

/-! ## The transform -/

/-- 41 R89: the eight outputs of the network in every arithmetic, operation by operation in the order the rule writes them (a
rounding `ARITH` must keep it); and under `Q30` with the numerators of R88. -/
def Obligations.DctNetwork : Prop :=
  (∀ (α : Type) (A : ArithOps α) (x0 x1 x2 x3 x4 x5 x6 x7 : α),
    let s0 := A.add x0 x7
    let s1 := A.add x1 x6
    let s2 := A.add x2 x5
    let s3 := A.add x3 x4
    let d0 (k : DctConst) := A.mul (A.sub x0 x7) (A.const k)
    let d1 (k : DctConst) := A.mul (A.sub x1 x6) (A.const k)
    let d2 (k : DctConst) := A.mul (A.sub x2 x5) (A.const k)
    let d3 (k : DctConst) := A.mul (A.sub x3 x4) (A.const k)
    dct8 A ⟨x0, x1, x2, x3, x4, x5, x6, x7⟩ =
      { x0 := A.mul (A.add (A.add s0 s3) (A.add s1 s2)) (A.const .ka)
        x4 := A.mul (A.sub (A.add s0 s3) (A.add s1 s2)) (A.const .ka)
        x2 := A.add (A.mul (A.sub s0 s3) (A.const .k2)) (A.mul (A.sub s1 s2) (A.const .k6))
        x6 := A.sub (A.mul (A.sub s0 s3) (A.const .k6)) (A.mul (A.sub s1 s2) (A.const .k2))
        x1 := A.add (A.add (A.add (d0 .k1) (d1 .k3)) (d2 .k5)) (d3 .k7)
        x3 := A.sub (A.sub (A.sub (d0 .k3) (d1 .k7)) (d2 .k1)) (d3 .k5)
        x5 := A.add (A.add (A.sub (d0 .k5) (d1 .k1)) (d2 .k7)) (d3 .k3)
        x7 := A.sub (A.add (A.sub (d0 .k7) (d1 .k5)) (d2 .k3)) (d3 .k1) }) ∧
  ∀ x0 x1 x2 x3 x4 x5 x6 x7 : ℚ,
      let N : ℚ := 2 ^ 30
      let ka := 379625062 / N
      let k1 := 526555088 / N
      let k2 := 496004047 / N
      let k3 := 446391849 / N
      let k5 := 298269498 / N
      let k6 := 205451603 / N
      let k7 := 104738319 / N
      dct8 q30Ops ⟨x0, x1, x2, x3, x4, x5, x6, x7⟩ =
        { x0 := (((x0 + x7) + (x3 + x4)) + ((x1 + x6) + (x2 + x5))) * ka
          x4 := (((x0 + x7) + (x3 + x4)) - ((x1 + x6) + (x2 + x5))) * ka
          x2 := (((x0 + x7) - (x3 + x4)) * k2) + (((x1 + x6) - (x2 + x5)) * k6)
          x6 := (((x0 + x7) - (x3 + x4)) * k6) - (((x1 + x6) - (x2 + x5)) * k2)
          x1 := ((((x0 - x7) * k1) + ((x1 - x6) * k3)) + ((x2 - x5) * k5)) + ((x3 - x4) * k7)
          x3 := ((((x0 - x7) * k3) - ((x1 - x6) * k7)) - ((x2 - x5) * k1)) - ((x3 - x4) * k5)
          x5 := ((((x0 - x7) * k5) - ((x1 - x6) * k1)) + ((x2 - x5) * k7)) + ((x3 - x4) * k3)
          x7 := ((((x0 - x7) * k7) - ((x1 - x6) * k5)) + ((x2 - x5) * k3)) - ((x3 - x4) * k1) }

/-- 41 R91: `DCTR c` replaces each row of `SB[c]` by its `dct8`, in the instance's arithmetic; nothing else but `SEQ.PH`
changes. -/
def Obligations.DctrResult : Prop :=
  ∀ (c : Component) (s : State),
    ∃ b, exec (dctrOp c) s = .next { s with hw := { s.hw with
        sb := setComp s.hw.sb c b, seq := { s.hw.seq with ph := dctcPhase c } } } ∧
      ∀ r : Fin 8, rowOf b r = dct8 (arithOps s.cfg.arith) (rowOf (getComp s.hw.sb c) r)

/-- 41 R92: `DCTC c` replaces each column of `SB[c]` by its `dct8`. -/
def Obligations.DctcResult : Prop :=
  ∀ (c : Component) (s : State),
    ∃ b, exec (dctcOp c) s = .next { s with hw := { s.hw with
        sb := setComp s.hw.sb c b, seq := { s.hw.seq with ph := qntPhase c } } } ∧
      ∀ j : Fin 8, columnOf b j = dct8 (arithOps s.cfg.arith) (columnOf (getComp s.hw.sb c) j)

/-- 00 R8: every record of an arithmetic with a carrier of `top + 1` values (every one that registers of a fixed number of bits
hold, such as IEEE 754 binary64) is an instance that `ARITH` can name: on its patterns the machine's operations are the record's, at
every byte and decimal constant that `CSC` takes and every step. How the record stands in State is the model's choice (log
entry 12). -/
def Obligations.EveryFiniteRecordIsAnInstance : Prop :=
  ∀ (top : Nat) (A : ArithOps (Fin (top + 1))),
    let B := arithOps (.finite (tablesOf A))
    let p (x : Fin (top + 1)) : Sample := .pattern x.val
    (∀ x y, B.add (p x) (p y) = p (A.add x y) ∧ B.sub (p x) (p y) = p (A.sub x y) ∧ B.mul (p x) (p y) = p (A.mul x y)) ∧
    (∀ k, B.const k = p (A.const k)) ∧ (∀ q ∈ literals, B.lit q = p (A.lit q)) ∧
    ∀ x, ∀ step < 256, B.roundDiv (p x) step = A.roundDiv x step

/-- 41 R90: under the reference meaning of `Real` the network is the 8-point DCT-II with orthonormal scaling, and its eight basis
vectors have unit length and are orthogonal. -/
def Obligations.DctNetworkIsDctII : Prop :=
  (∀ (x : Fin 8 → ℝ) (k : Fin 8), octGet (dct8 realOps (octOf x)) k = dctScale k * ∑ n, x n * dctCos k n) ∧
  ∀ k l : Fin 8, ∑ n, (dctScale k * dctCos k n) * (dctScale l * dctCos l n) = if k = l then 1 else 0

/-- 41 R94, R93: the closed form of the two passes under the reference meaning, in which they commute. -/
def Obligations.TransformClosedForm : Prop :=
  ∀ b : Block ℝ,
    (∀ u v : Fin 8, blockAt (transform realOps b) u v =
      dctScale u * dctScale v * ∑ r, ∑ j, blockAt b r j * dctCos u r * dctCos v j) ∧
    rowTransform realOps (columnTransform realOps b) = transform realOps b

/-- 41 R88: each numerator over 2^30 is the exact cosine rounded to the nearest multiple of 2^-30, with no tie. -/
def Obligations.ConstantsAreNearest : Prop :=
  ∀ k : DctConst, |(dctNumerator k : ℝ) / 2 ^ 30 - realConst k| < 1 / 2 ^ 31

/-- 00 R10, 41 R95: `Q30` is admissible with bound 2^-18 and rounds exactly; and for every admissible instance whose rounding is
exact (42 R99, R100), a coefficient equals the reference coefficient where the reference quotient is farther than `eps / step` from
every half-integer, and anywhere else differs from it by at most one. For the last, `eps < 1` is the model's inference: R10 names
no limit, and from 1 on two quotients `eps / step` apart can round to integers two apart (log entry 25). -/
def Obligations.QThirtyIsAdmissible : Prop :=
  (∀ (pixels : List Byte) (width col : Nat) (c : Component) (i : Fin 64),
    |(((transform q30Ops (stripSamples q30Ops pixels width col c))[i] : ℚ) : ℝ) -
      (transform realOps (stripSamples realOps pixels width col c))[i]| ≤ 1 / 2 ^ 18) ∧
  arithClose (arithOps .q30) (fun x => ((exactOf x : ℚ) : ℝ)) (1 / 2 ^ 18) ∧
  roundsExactly (arithOps .q30) (fun x => ((exactOf x : ℚ) : ℝ)) ∧
  ∀ (α : Type) (A : ArithOps α) (value : α → ℝ) (eps : ℝ), arithClose A value eps → roundsExactly A value →
    ∀ (pixels : List Byte) (width col : Nat) (lt ct : List Byte) (c : Component) (i : Fin 64),
      isStrip pixels width col → tablesPositive lt ct →
      let step : ℝ := ((if c = .y then lt else ct).getD i.val 0).toNat
      let quotient := (columnPassOf realOps pixels width col c)[i] / step
      let coef := stripCoefs A pixels width lt ct col c i
      let reference := stripCoefs realOps pixels width lt ct col c i
      ((∀ k : ℤ, eps / step < |quotient - (k + 1 / 2)|) → coef = reference) ∧ (eps < 1 → |coef - reference| ≤ 1)

/-- 41 R97: a flat block transforms to zero but for index 0, in every arithmetic in which `x - x = 0`, `0 * k = 0`,
`0 + 0 = 0 - 0 = 0`; and index 0 under `Q30` and under the reference meaning. -/
def Obligations.FlatBlockTransform : Prop :=
  (∀ (α : Type) (A : ArithOps α) (zero x : α), (∀ y, A.sub y y = zero) → (∀ k, A.mul zero (A.const k) = zero) →
    A.add zero zero = zero → A.sub zero zero = zero →
    ∀ u v : Fin 8, (u ≠ 0 ∨ v ≠ 0) → blockAt (transform A (Vector.replicate 64 x)) u v = zero) ∧
  (∀ x : ℚ, blockAt (transform q30Ops (Vector.replicate 64 x)) 0 0 = x * 379625062 ^ 2 / 2 ^ 54) ∧
  (∀ x : ℝ, blockAt (transform realOps (Vector.replicate 64 x)) 0 0 = 8 * x)

/-! ## The quantizer -/

/-- 42 R99, R104: `RHA` by its two cases; it is odd; and the integer form of `RHA` of a quotient under `Q30`. -/
def Obligations.RoundingRule : Prop :=
  (∀ q : ℚ, (0 ≤ q → roundHalfAway q = ⌊q + 1 / 2⌋) ∧ (q < 0 → roundHalfAway q = -⌊-q + 1 / 2⌋) ∧
    roundHalfAway (-q) = -roundHalfAway q) ∧
  ∀ (n : Int) (d step : Nat), 0 < d → 0 < step →
    q30Ops.roundDiv ((n : ℚ) / d) step = n.sign * ((2 * |n| + (d * step : Nat)) / (2 * (d * step : Nat)))

/-- 42 R100, R101: `QNT c` writes all of `CF[c]`, each entry the rounded quotient by the step of `QL` for component 0 and of `QC`
for 1 and 2; it writes nothing else but `SEQ.PH`, and completes in every state. An entry whose step is zero (R102) or whose
quotient does not fit 16 bits is open here (log entries 6, 7). -/
def Obligations.QntResult : Prop :=
  ∀ (c : Component) (s : State),
    ∃ b, exec (qntOp c) s = .next { s with hw := { s.hw with
        cf := setComp s.hw.cf c b, seq := { s.hw.seq with ph := afterQnt c } } } ∧
      ∀ i : Fin 64,
        let step := (readByte (if c = .y then s.hw.ql else s.hw.qc) i.val).toNat
        let z := (arithOps s.cfg.arith).roundDiv (getComp s.hw.sb c)[i] step
        0 < step → -(2 ^ 15) ≤ z → z < 2 ^ 15 → b[i].toInt = z

/-- 42 R103: the ranges of `CF` for every pixel strip under `Q30`, every step at least 1. -/
def Obligations.QuantizedRanges : Prop :=
  ∀ (pixels : List Byte) (width col : Nat) (lt ct : List Byte), tablesPositive lt ct →
    let C := stripCoefs q30Ops pixels width lt ct col
    (-1024 ≤ C .y 0 ∧ C .y 0 ≤ 1016) ∧ |C .cb 0| ≤ 1020 ∧ |C .cr 0| ≤ 1020 ∧
      ∀ (c : Component) (i : Fin 64), i ≠ 0 → |C c i| ≤ 1020

/-! ## The entropy coder -/

/-- 43 R105, R106, 30 R67, R68: the category is the number of bits of the magnitude, and the extra bits of a nonzero value. -/
def Obligations.CategoryAndExtraBits : Prop :=
  category 0 = 0 ∧ ∀ v : Int, v ≠ 0 →
    1 ≤ category v ∧ 2 ^ (category v - 1) ≤ v.natAbs ∧ v.natAbs < 2 ^ category v ∧ category (-v) = category v ∧
    (extraBits v : Int) = (if 0 < v then v else v + 2 ^ category v - 1) ∧
    extraBits v < 2 ^ category v ∧ (2 ^ (category v - 1) ≤ extraBits v ↔ 0 < v)

/-- 43 R120: the round trip of the categorization, for every integer. -/
def Obligations.CategorizationRoundTrip : Prop :=
  ∀ v : Int, decodeExtra (category v) (extraBits v) = v

/-- 43 R107, R119, 30 R75: a valid entry is returned; a miss gives the placeholder under `PLACEHOLDER` and raises under
`FAULT`. -/
def Obligations.LookupRule : Prop :=
  ∀ (cfg : Config) (k : CoefKind) (t : TableSel) (i : Nat) (free : HuffCode),
    (∀ code, (romOf cfg.huff k t)[i]? = some (some code) → lookup cfg k t (some i) free = some code) ∧
    ((∀ code, (romOf cfg.huff k t)[i]? ≠ some (some code)) → cfg.missPolicy = .placeholder →
      ∃ c, lookup cfg k t (some i) free = some c ∧ c.code = 0xFFFF ∧ c.len = 16) ∧
    ((∀ code, (romOf cfg.huff k t)[i]? ≠ some (some code)) → cfg.missPolicy = .fault →
      lookup cfg k t (some i) free = none)

/-- 43 R117: with nonzero steps the DC categories are at most 11 and the AC categories at most 10, so with `HUFF_STD` no lookup
of a strip misses, under either policy. -/
def Obligations.ReachableSymbols : Prop :=
  ∀ (pixels : List Byte) (width : Nat) (lt ct : List Byte), tablesPositive lt ct →
    (∀ (col : Nat) (c : Component),
      let C := fun col => stripCoefs q30Ops pixels width lt ct col c
      category (C col 0) ≤ 11 ∧ category (C (col + 8) 0 - C col 0) ≤ 11 ∧
        ∀ i : Fin 64, i ≠ 0 → category (C col i) ≤ 10) ∧
    ∀ cfg : Config, cfg.arith = .q30 → cfg.huff = huffStd → pixels.length = width * 32 →
      ∃ bytes, encodeStrip cfg pixels width lt ct = .ok bytes

/-- 43 R109, R107: `ENCDC c` sends the code of the category of `CF[c][0] - PRED[c]` and then its extra bits, none for category 0;
it updates `PRED[c]`; a miss under `FAULT` ends the run with error 3 (60 R152, R155). That the raising operation has updated
`PRED[c]` and sent nothing is the model's choice among the points that 60 R156 allows (log entry 21); that the categories 12 to 15
are looked up like any other, and that category 16, which no run reaches, is left out here and has a free code, is log entry 9. -/
def Obligations.EncdcResult : Prop :=
  ∀ (c : Component) (s : State),
    let dc := (getComp s.hw.cf c)[0]
    let diff := dc.toInt - (getComp s.hw.pred c).toInt
    category diff < 16 → s.hw.outlen.toNat + 20 ≤ capacity .out →
    match lookup s.cfg .dc (if c = .y then .luma else .chroma) (some (category diff)) default with
    | some code =>
      ∃ h, putAll ((code.code.toNat, code.len) :: if diff = 0 then [] else [(extraBits diff, category diff)]) s.hw = some h ∧
        exec (encdcOp c) s = .next { s with hw := { h with
          pred := setComp s.hw.pred c dc, seq := { s.hw.seq with ph := encacPhase c } } }
    | none =>
      exec (encdcOp c) s = .next { s with hw := { s.hw with
        pred := setComp s.hw.pred c dc
        status := { busy := false, done := false, err := true, errcode := 3 }, outlen := 0
        seq := { s.hw.seq with ph := .idle } } }

/-- 43 R110 to R116 and the grammar 30 R69: `ENCAC c` sends the items of the grammar, the run and the ZRL codes of each computed
from the number of zeros before it, and the EOB exactly when scan position 63 is zero; `RUN` is 0 and `LAST` the last nonzero
position afterwards, and `SEQ` as the table says. A miss under `FAULT` ends the run with error 3. That the sizes 11 to 15, which no
run reaches, are looked up like any other, and that size 16 is left out here and has a free code, is the model's choice (log
entry 9); `K` is left open (log entry 16). -/
def Obligations.EncacResult : Prop :=
  ∀ (c : Component) (s : State),
    (∀ k, 1 ≤ k → k ≤ 63 → category (zigzag (getComp s.hw.cf c) k) < 16) →
    s.hw.outlen.toNat + 1270 ≤ capacity .out → (c = .cr → s.hw.seq.col.toNat + 8 < 2 ^ 17) →
    match acPairs s.cfg (if c = .y then .luma else .chroma) 0 (acValues fun i => (getComp s.hw.cf c)[i].toInt) with
    | some ps =>
      ∃ h k last, putAll ps s.hw = some h ∧ isLast (getComp s.hw.cf c) last ∧
        exec (encacOp c) s = .next { s with hw := { h with
          run := 0, k := k, last := BitVec.ofNat 6 last, seq := afterEncac c s.hw } }
    | none =>
      ∃ t, exec (encacOp c) s = .next t ∧
        t.hw.status = { busy := false, done := false, err := true, errcode := 3 } ∧ t.hw.outlen = 0 ∧ t.hw.seq.ph = .idle

/-- 43 R109, R112: `ENCDC c` and `ENCAC c` complete in every state in which `OUT` has room for what one of them can send. Of the
states that no run reaches, in which the spec states nothing, it is the model's choice that they complete: DC categories above 11
and AC sizes above 10 (log entry 9), and `CNT` above 7 (log entry 19). -/
def Obligations.CodingCompletes : Prop :=
  ∀ (c : Component) (s : State),
    (s.hw.outlen.toNat + 20 ≤ capacity .out → ∃ t, exec (encdcOp c) s = .next t) ∧
    (s.hw.outlen.toNat + 1270 ≤ capacity .out → ∃ t, exec (encacOp c) s = .next t)

/-! ## The writer -/

/-- 44 R121, R122: `PUTB v, n` appends the low `n` bits of `v` to the pending bits, moves every whole byte to `OUT` with a 0x00
after each 0xFF, and keeps the rest; `n = 0` changes nothing at all. -/
def Obligations.PutbResult : Prop :=
  ∀ (s : State) (n : BitVec 5) (v : BitVec 16), n.toNat ≤ 16 →
    (n = 0 → exec (.putb n v) s = .next s) ∧
    (writerOk s.hw → Memory.wf s.hw.out = true → s.hw.outlen.toNat + 4 ≤ capacity .out →
      let bits := bitsOf s.hw.acc.toNat s.hw.cnt.toNat ++ bitsOf v.toNat n.toNat
      ∃ t, exec (.putb n v) s = .next t ∧
        t = { s with hw := { s.hw with acc := t.hw.acc, cnt := t.hw.cnt, out := t.hw.out, outlen := t.hw.outlen } } ∧
        outBytes t.hw = outBytes s.hw ++ stuffBytes (wholeBytes bits) ∧
        t.hw.cnt.toNat = bits.length % 8 ∧ t.hw.acc.toNat = natOfBits (bits.drop (8 * (bits.length / 8))) ∧
        sameBytesOutside s.hw.outlen.toNat t.hw.outlen.toNat s.hw t.hw)

/-- 44 R123, 30 R79: `FIN` emits nothing when no bit is pending, else one byte with the pending bits on top and zeros below, which
is never 0xFF. -/
def Obligations.FinResult : Prop :=
  ∀ s : State,
    (s.hw.cnt = 0 → exec .fin s = .next { s with hw := { s.hw with seq := { s.hw.seq with ph := .halt } } }) ∧
    (0 < s.hw.cnt.toNat → writerOk s.hw → Memory.wf s.hw.out = true → s.hw.outlen.toNat < capacity .out →
      let b := byteOfBits (bitsOf s.hw.acc.toNat s.hw.cnt.toNat)
      b ≠ 0xFF ∧ ∃ out, exec .fin s = .next { s with hw := { s.hw with
          acc := 0, cnt := 0, out := out, outlen := s.hw.outlen + 1, seq := { s.hw.seq with ph := .halt } } } ∧
        readByte out s.hw.outlen.toNat = b ∧ ∀ a, a ≠ s.hw.outlen.toNat → readByte out a = readByte s.hw.out a)

/-- 44 R128, 30 R77 to R79: from an empty writer, any list of `PUTB` and then `FIN` leaves in `OUT` the bits in order, packed,
padded with zeros and stuffed. -/
def Obligations.WriterStream : Prop :=
  ∀ (ps : List (Nat × Nat)) (tick : Nat) (h : Hardware), (∀ p ∈ ps, p.2 ≤ 16) →
    h.acc = 0 → h.cnt = 0 → h.outlen = 0 → Memory.wf h.out = true →
    2 * (((pairBits ps).length + 7) / 8) ≤ capacity .out →
    ∃ h', (putAll ps h).bind (flush tick) = some h' ∧ outBytes h' = streamBytes (pairBits ps) ∧ h'.acc = 0 ∧ h'.cnt = 0

/-- 44 R124: the accumulator invariant is set by `INIT`, kept by every operation, and after `FIN` no bit is pending. -/
def Obligations.AccumulatorInvariant : Prop :=
  ∀ (i : Instr) (s t : State), exec i s = .next t →
    (writerOk s.hw → writerOk t.hw) ∧ (i = .init → t.hw.acc = 0 ∧ t.hw.cnt = 0) ∧
      (i = .fin → writerOk s.hw → t.hw.cnt = 0)

/-- 44 R125: every operation keeps the stuffing invariant of `OUT[0 .. OUTLEN-1]`. -/
def Obligations.StuffingInvariant : Prop :=
  ∀ (i : Instr) (s t : State), Memory.wf s.hw.out = true → stuffed (outBytes s.hw) = true → exec i s = .next t →
    stuffed (outBytes t.hw) = true

/-! ## The host's operations -/

/-- 45 R130, R134, R135, 60 R167: `HWR32`. `r` is what the host sees of it on its bus (log entry 11). -/
def Obligations.HwrThirtyTwoResult : Prop :=
  ∀ (s : State) (addr data : Word), ∃ r, exec (.hwr32 addr data) s = .next { s with
    env := { s.env with resp := r }
    hw :=
      if addr.toNat % 4 ≠ 0 ∨ 0x18 < addr.toNat ∨ s.hw.status.busy = true then s.hw
      else if addr = 0x00 then
        if data.getLsbD 0 = true then
          { s.hw with
            status := { busy := true, done := false, err := false, errcode := 0 }, outlen := 0
            seq := { s.hw.seq with ph := .chk } }
        else if data.getLsbD 1 = true then
          { s.hw with status := { busy := false, done := false, err := false, errcode := 0 }, outlen := 0 }
        else s.hw
      else if addr = 0x08 then { s.hw with width := data.extractLsb' 0 16 }
      else if addr = 0x0C then { s.hw with pixlen := data }
      else if addr = 0x10 then { s.hw with qllen := data.extractLsb' 0 8 }
      else if addr = 0x14 then { s.hw with qclen := data.extractLsb' 0 8 }
      else s.hw }

/-- 45 R131, 10 R19, R21, 20 R43: `HRD32` changes nothing; the value it returns stands in `resp` (log entry 11). While `BUSY` any
register but `STATUS` reads as some word. -/
def Obligations.HrdThirtyTwoResult : Prop :=
  ∀ (s : State) (addr seen : Word),
    (addr.toNat % 4 ≠ 0 ∨ 0x18 < addr.toNat →
      ∃ r, exec (.hrd32 addr seen) s = .next { s with env := { s.env with resp := r } }) ∧
    (addr = 0x04 → exec (.hrd32 addr seen) s = .next { s with env := { s.env with
      resp := .word (BitVec.ofNat 32 (s.hw.status.busy.toNat + 2 * s.hw.status.done.toNat + 4 * s.hw.status.err.toNat +
        16 * s.hw.status.errcode.toNat)) } }) ∧
    (addr.toNat % 4 = 0 → addr.toNat ≤ 0x18 →
      ∃ w : Word, exec (.hrd32 addr seen) s = .next { s with env := { s.env with resp := .word w } } ∧
        (s.hw.status.busy = false →
          (addr = 0x00 → w = 0) ∧ (addr = 0x08 → w = BitVec.ofNat 32 s.hw.width.toNat) ∧ (addr = 0x0C → w = s.hw.pixlen) ∧
          (addr = 0x10 → w = BitVec.ofNat 32 s.hw.qllen.toNat) ∧ (addr = 0x14 → w = BitVec.ofNat 32 s.hw.qclen.toNat) ∧
          (addr = 0x18 → w = s.hw.outlen)))

/-- 45 R132, 20 R39: `HWR8` writes one byte of `QL`, `QC` or `PIX`, nothing while `BUSY`, and nothing outside these windows; every
other byte and every register stays. -/
def Obligations.HwrEightResult : Prop :=
  ∀ (s : State) (addr : Word) (data : Byte), (∀ sp, Memory.wf (memoryOf sp s.hw) = true) →
    (∀ w ∈ windows, w.1 ≠ .out → w.2.1 ≤ addr.toNat → addr.toNat ≤ w.2.2 → s.hw.status.busy = false →
      ∃ t, exec (.hwr8 addr data) s = .next t ∧
        t = { s with env := { s.env with resp := t.env.resp }, hw := { s.hw with ql := t.hw.ql, qc := t.hw.qc, pix := t.hw.pix } } ∧
        ∀ sp a, readByte (memoryOf sp t.hw) a =
          if sp = w.1 ∧ a = addr.toNat - w.2.1 then data else readByte (memoryOf sp s.hw) a) ∧
    (s.hw.status.busy = true ∨ outsideWindows addr.toNat ∨ 0x1000000 ≤ addr.toNat →
      ∃ r, exec (.hwr8 addr data) s = .next { s with env := { s.env with resp := r } })

/-- 45 R133, 20 R39, R43: `HRD8` changes nothing; the byte it returns stands in `resp` (log entry 11). While `BUSY`, and in `OUT`
at index `OUTLEN` and above, it is some byte; while not `BUSY` a second read, with nothing of the hardware changed between,
returns the same byte (log entry 10). -/
def Obligations.HrdEightResult : Prop :=
  ∀ (s : State) (addr : Word) (seen : Byte),
    (∀ w ∈ windows, w.2.1 ≤ addr.toNat → addr.toNat ≤ w.2.2 →
      ∃ b, exec (.hrd8 addr seen) s = .next { s with env := { s.env with resp := .byte b } } ∧
        (s.hw.status.busy = false → (w.1 = .out → addr.toNat - w.2.1 < s.hw.outlen.toNat) →
          b = readByte (memoryOf w.1 s.hw) (addr.toNat - w.2.1)) ∧
        (s.hw.status.busy = false → ∀ (t : State) (seen' : Byte), t.hw = s.hw →
          exec (.hrd8 addr seen') t = .next { t with env := { t.env with resp := .byte b } })) ∧
    (outsideWindows addr.toNat → ∃ r, exec (.hrd8 addr seen) s = .next { s with env := { s.env with resp := r } })

/-- 20 R52: while `BUSY` every operation of the host completes and changes nothing of the hardware, and a read of `STATUS` returns
its value. -/
def Obligations.HostCannotDisturbRun : Prop :=
  ∀ (i : Instr) (s : State), i.isHost = true → s.hw.status.busy = true →
    ∃ t, exec i s = .next t ∧ t = { s with env := { s.env with resp := t.env.resp } } ∧
      ∀ seen, i = .hrd32 0x04 seen → t.env.resp = .word (statusWord s.hw.status)

/-! ## What an operation leaves unchanged -/

/-- 45 R142, 10 R34, R37: no operation of the core changes the launch state, the configuration or the model's own fields. -/
def Obligations.CoreKeepsLaunchState : Prop :=
  ∀ (i : Instr) (s t : State), i.isHost = false → exec i s = .next t →
    sameLaunch s.hw t.hw ∧ t.cfg = s.cfg ∧ t.env = s.env

/-- The frame of `CHK`, `INIT`, `HALT`, `TRAP`, `CSC`, `DCTR`, `DCTC`, `QNT` (45 R137, R138, R140, R141; 40 R85; 41 R98; 42 R100):
what is not named keeps its value, and every byte of memory reads as before. -/
def Obligations.FrameOfOperationsWithoutStores : Prop :=
  ∀ s t : State,
    (∀ i, (i = .chk ∨ i = .halt ∨ ∃ e, i = .trap e) → exec i s = .next t →
      t = { s with hw := { s.hw with
        status := t.hw.status, outlen := t.hw.outlen, seq := { s.hw.seq with ph := t.hw.seq.ph } } } ∧ sameBytes s.hw t.hw) ∧
    (exec .halt s = .next t → t.hw.outlen = s.hw.outlen) ∧
    (exec .init s = .next t →
      t = { s with hw := { s.hw with pred := t.hw.pred, acc := t.hw.acc, cnt := t.hw.cnt, seq := t.hw.seq } } ∧
        sameBytes s.hw t.hw) ∧
    (∀ col, exec (.csc col) s = .next t →
      t = { s with hw := { s.hw with sb := t.hw.sb, seq := t.hw.seq } } ∧ sameBytes s.hw t.hw) ∧
    (∀ c i, (i = dctrOp c ∨ i = dctcOp c) → exec i s = .next t →
      t = { s with hw := { s.hw with
        sb := setComp s.hw.sb c (getComp t.hw.sb c), seq := { s.hw.seq with ph := t.hw.seq.ph } } } ∧ sameBytes s.hw t.hw) ∧
    (∀ c, exec (qntOp c) s = .next t →
      t = { s with hw := { s.hw with
        cf := setComp s.hw.cf c (getComp t.hw.cf c), seq := { s.hw.seq with ph := t.hw.seq.ph } } } ∧ sameBytes s.hw t.hw)

/-- The frame of `PUTB`, `FIN`, `ENCDC`, `ENCAC` (44 R121 to R123; 43 R109, R112): what is not named keeps its value, and the bytes
stored are those of `OUT` from `OUTLEN` before to `OUTLEN` where the operation's writing stops. -/
def Obligations.FrameOfStoringOperations : Prop :=
  ∀ s t : State, Memory.wf s.hw.out = true →
    (∀ n v, exec (.putb n v) s = .next t →
      t = { s with hw := { s.hw with acc := t.hw.acc, cnt := t.hw.cnt, out := t.hw.out, outlen := t.hw.outlen } } ∧
        sameBytesOutside s.hw.outlen.toNat t.hw.outlen.toNat s.hw t.hw) ∧
    (exec .fin s = .next t →
      t = { s with hw := { s.hw with
        acc := t.hw.acc, cnt := t.hw.cnt, out := t.hw.out, outlen := t.hw.outlen, seq := { s.hw.seq with ph := t.hw.seq.ph } } } ∧
        sameBytesOutside s.hw.outlen.toNat t.hw.outlen.toNat s.hw t.hw) ∧
    (∀ c, exec (encdcOp c) s = .next t →
      t = { s with hw := { s.hw with
        pred := setComp s.hw.pred c (getComp t.hw.pred c), acc := t.hw.acc, cnt := t.hw.cnt, out := t.hw.out
        outlen := t.hw.outlen, status := t.hw.status, seq := { s.hw.seq with ph := t.hw.seq.ph } } } ∧
        ∀ e, codingEnd (encodeDc s.cfg s.env.tick c s.hw) = some e →
          sameBytesOutside s.hw.outlen.toNat e.outlen.toNat s.hw t.hw) ∧
    (∀ c, exec (encacOp c) s = .next t →
      t = { s with hw := { s.hw with
        run := t.hw.run, k := t.hw.k, last := t.hw.last, acc := t.hw.acc, cnt := t.hw.cnt, out := t.hw.out
        outlen := t.hw.outlen, status := t.hw.status, seq := t.hw.seq } } ∧
        ∀ e, codingEnd (encodeAc s.cfg s.env.tick c s.hw) = some e →
          sameBytesOutside s.hw.outlen.toNat e.outlen.toNat s.hw t.hw)

/-! ## Invariants of the machine -/

/-- 10 R21, R35, 44 R124, R125, R127: the invariant holds at the model's reset state. -/
def Obligations.InvariantAtReset : Prop := Inv State.reset

/-- 10 R13, R18, R21, R26, 45 R136 to R142, 44 R124, R125, R127: every step keeps the invariant, from every state that has it. -/
def Obligations.InvariantKept : Prop := ∀ s t : State, Inv s → step s = .next t → Inv t

/-- 20 R42, 60 R149, 30 R57: in a state with the invariant a step neither faults nor is refused: no `OUT` index is out of range, no
`CSC` phase stands at a column it cannot name, no word of the listing is reserved. -/
def Obligations.InvariantSafe : Prop := ∀ s : State, Inv s → ∃ t, step s = .next t

/-- 10 R21, R26 to R28, 20 R39: every step, of any listing whatever, keeps the memories canonical and within their sizes and
`STATUS` at one of its six values. -/
def Obligations.LegalStateKept : Prop := ∀ s t : State, legalState s.hw → step s = .next t → legalState t.hw

/-! ## Runs -/

/-- 45 R143, 00 R2, 20 R52: under `Q30` and with nonzero steps every run, however the host interleaves its own operations, comes to
its end and leaves what `encode_strip` gives for the launch state. -/
def Obligations.RunIsEncodeStrip : Prop :=
  ∀ s : State, started s.hw → undisturbed s → s.cfg.arith = .q30 → Memory.wf s.hw.out = true →
    (s.hw.width = 0 ∨ stepsNonzero s.hw) →
    ∃ n t, endsAfter n s t ∧ reports (stripResult s.cfg s.hw) t.hw

/-- 45 R145, R142, R148, 42 R102: with nobody but the core moving every run ends, after at most `4 + 16 * ceil(WIDTH/8)` steps, the
launch state as it was, and after one step with error 1 or 2 when a check fails. With nonzero steps or `WIDTH = 0` it is then `DONE`
after exactly that many steps, or ends with an error and no output, and under `PLACEHOLDER` a checked run is `DONE`; with
`WIDTH = 0` the output is empty. That a run with a zero step goes on is log entry 6, and what it reports is not stated (R102).
Under an `ARITH` whose coefficients leave the ranges of 42 R103 the end rests on log entries 7 and 9. -/
def Obligations.RunStepCount : Prop :=
  ∀ s : State, launched s →
    ∃ n t, endsAfter n s t ∧ n ≤ 4 + 16 * ((s.hw.width.toNat + 7) / 8) ∧ n ≤ 131076 ∧ sameLaunch s.hw t.hw ∧
      (¬launchOk s.hw → n = 1 ∧ (t.hw.status = statusTrap 1 ∨ t.hw.status = statusTrap 2) ∧ t.hw.outlen = 0) ∧
      (launchOk s.hw → s.hw.width = 0 → t.hw.status = statusDone ∧ t.hw.outlen = 0 ∧ t.hw.out = s.hw.out) ∧
      (s.hw.width = 0 ∨ stepsNonzero s.hw →
        (t.hw.status = statusDone ∨
          ((t.hw.status = statusTrap 1 ∨ t.hw.status = statusTrap 2 ∨ t.hw.status = statusTrap 3) ∧ t.hw.outlen = 0)) ∧
        (t.hw.status = statusDone → n = 4 + 16 * ((s.hw.width.toNat + 7) / 8)) ∧
        (launchOk s.hw → s.cfg.missPolicy = .placeholder → t.hw.status = statusDone))

/-- 44 R127, 45 R144: the output of a strip has at most 10,229,760 bytes, and with `HUFF_STD` and a positive width at least two. -/
def Obligations.OutputLength : Prop :=
  ∀ (cfg : Config) (pixels : List Byte) (width : Nat) (lt ct bytes : List Byte), cfg.arith = .q30 → tablesPositive lt ct →
    width ≤ 65535 → encodeStrip cfg pixels width lt ct = .ok bytes →
    bytes.length ≤ 10229760 ∧ (cfg.huff = huffStd → 0 < width → 2 ≤ bytes.length)

/-- 10 R33, R36, 45 R142: nothing but the launch state reaches the result: two runs from the same launch state end alike, whatever
the other registers, `OUT` and the host's own operations are; so a second `START` repeats the run. -/
def Obligations.HiddenStateIsDead : Prop :=
  ∀ (s s' t t' : State) (n n' : Nat), started s.hw → started s'.hw → undisturbed s → undisturbed s' →
    s.cfg = s'.cfg → s.cfg.arith = .q30 → sameLaunch s.hw s'.hw → (s.hw.width = 0 ∨ stepsNonzero s.hw) →
    Memory.wf s.hw.out = true → Memory.wf s'.hw.out = true → endsAfter n s t → endsAfter n' s' t' →
    t.hw.status = t'.hw.status ∧ outBytes t.hw = outBytes t'.hw

/-- 45 R147: the transform and quantizer operations of different components can be exchanged, but for `SEQ`. -/
def Obligations.ComponentsCommute : Prop :=
  ∀ (c c' : Component) (i j : Instr) (s t u t' u' : State), c ≠ c' → i ∈ [dctrOp c, dctcOp c, qntOp c] →
    j ∈ [dctrOp c', dctcOp c', qntOp c'] → exec i s = .next t → exec j t = .next u → exec j s = .next t' →
    exec i t' = .next u' → { u.hw with seq := s.hw.seq } = { u'.hw with seq := s.hw.seq }

/-! ## Constant tables -/

/-- 30 R76, 10 R30: the two zig-zag tables are inverse to each other and fix 0 and 63, and the path runs along the anti-diagonals
`u + v = s` one after the other, on even `s` up and to the right and on odd `s` down and to the left. -/
def Obligations.ZigZagInverse : Prop :=
  (∀ i : Fin 64, zzNat (zzPos i) = i ∧ zzPos (zzNat i) = i) ∧ zzPos 0 = 0 ∧ zzPos 63 = 63 ∧
    ∀ k < 63,
      let u := (zzNat k).val / 8
      let v := (zzNat k).val % 8
      let u' := (zzNat (k + 1)).val / 8
      let v' := (zzNat (k + 1)).val % 8
      u' + v' = u + v + 1 ∨
        (if (u + v) % 2 = 0 then u' + 1 = u ∧ v' = v + 1 else u' = u + 1 ∧ v' + 1 = v)

/-- 30 R71 to R74: each ROM of `HUFF_STD` holds at every symbol of its `HUFFVAL` the code that the canonical assignment gives it
and is invalid everywhere else; its codes are prefix-free, their sum is the one R71 names, and none is all ones. -/
def Obligations.HuffStdCodes : Prop :=
  ∀ x ∈ [(dcLumaStd, dcLumaBits, dcSymbols, 65408), (dcChromaStd, dcChromaBits, dcSymbols, 65504),
      (acLumaStd, acLumaBits, acLumaSymbols, 65535), (acChromaStd, acChromaBits, acChromaSymbols, 65535)],
    (∀ e ∈ canonicalCodes x.2.1 1 0 x.2.2.1, x.1[e.1]? = some e.2) ∧
    (∀ i < x.1.length, i ∉ x.2.2.1 → x.1[i]? = some none) ∧
    (x.1.reduceOption.map fun c => 2 ^ (16 - c.len)).sum = x.2.2.2 ∧
    (∀ c ∈ x.1.reduceOption, c.code.toNat + 1 < 2 ^ c.len) ∧
    x.1.reduceOption.Pairwise fun c c' =>
      if c.len ≤ c'.len then c'.code.toNat / 2 ^ (c'.len - c.len) ≠ c.code.toNat
      else c.code.toNat / 2 ^ (c.len - c'.len) ≠ c'.code.toNat
end

