-- ==== Sys2Proof/Laws/Blocks.lean ====
section
/-! SUPPORT. The entries of the blocks that the datapath operations compute. -/

namespace Sys2Proof.Laws

open Sys2Proof Sys2Proof.Machine

/-- Row and column of an index, and back. -/
theorem block_index (r j : Fin 8) : (8 * r.val + j.val) / 8 = r.val ∧ (8 * r.val + j.val) % 8 = j.val := by omega

@[simp] theorem octGet_octOf {α : Type} (f : Fin 8 → α) (k : Fin 8) : octGet (octOf f) k = f k := by
  fin_cases k <;> rfl

@[simp] theorem rowTransform_getElem {α : Type} (A : ArithOps α) (b : Block α) (i : Nat) (hi : i < 64) :
    (rowTransform A b)[i] = octGet (dct8 A (rowOf b (Fin.ofNat 8 (i / 8)))) (Fin.ofNat 8 (i % 8)) := by
  simp [rowTransform]

@[simp] theorem columnTransform_getElem {α : Type} (A : ArithOps α) (b : Block α) (i : Nat) (hi : i < 64) :
    (columnTransform A b)[i] = octGet (dct8 A (columnOf b (Fin.ofNat 8 (i % 8)))) (Fin.ofNat 8 (i / 8)) := by
  simp [columnTransform]

@[simp] theorem sampleBlock_getElem (A : ArithOps Sample) (tick col : Nat) (h : Hardware) (c : Component) (i : Nat) (hi : i < 64) :
    (sampleBlock A tick col h c)[i] =
      convert A c (channelByte tick col (i / 8) (i % 8) .r h) (channelByte tick col (i / 8) (i % 8) .g h)
        (channelByte tick col (i / 8) (i % 8) .b h) := by
  simp [sampleBlock]

@[simp] theorem quantizeBlock_getElem (A : ArithOps Sample) (tick : Nat) (h : Hardware) (c : Component) (i : Nat) (hi : i < 64) :
    (quantizeBlock A tick h c)[i] = quantize A (stepOf h c i) ((getComp h.sb c)[i]) (Config.freeBits 16 tick i) := by
  simp [quantizeBlock]

/-- Blocks that agree at every row and column are equal. -/
theorem block_ext {α : Type} {b b' : Block α} (h : ∀ r j : Fin 8, blockAt b r j = blockAt b' r j) : b = b' := by
  apply Vector.ext
  intro i hi
  have := h (Fin.ofNat 8 (i / 8)) (Fin.ofNat 8 (i % 8))
  simp only [blockAt, Fin.ofNat] at this
  have hidx : 8 * (i / 8 % 8) + i % 8 = i := by omega
  simpa [hidx] using this

end Sys2Proof.Laws
end

