-- ==== Sys2Proof/Laws/Arith.lean ====
section
/-! SUPPORT. The arithmetic on registers: its results are values of the instance's carrier, and it computes what the
carrier's own arithmetic computes. -/

namespace Sys2Proof.Laws

open Sys2Proof Sys2Proof.Machine

@[simp] theorem exactOf_exact (q : Rat) : exactOf (.exact q) = q := rfl

@[simp] theorem patternOf_pattern (n : Nat) : patternOf (.pattern n) = n := rfl

@[simp] theorem finOf_pattern {top : Nat} (x : Fin (top + 1)) : finOf top (.pattern x.val) = x := by
  simp [finOf, x.isLt]

/-! ## Results are carrier values -/

@[simp] theorem carried_lit (a : Arith) (q : Rat) : carried a ((arithOps a).lit q) = true := by
  cases a <;> simp [arithOps, onRegisters, carried, Fin.is_le]

@[simp] theorem carried_add (a : Arith) (x y : Sample) : carried a ((arithOps a).add x y) = true := by
  cases a <;> simp [arithOps, onRegisters, carried, Fin.is_le]

@[simp] theorem carried_sub (a : Arith) (x y : Sample) : carried a ((arithOps a).sub x y) = true := by
  cases a <;> simp [arithOps, onRegisters, carried, Fin.is_le]

@[simp] theorem carried_mul (a : Arith) (x y : Sample) : carried a ((arithOps a).mul x y) = true := by
  cases a <;> simp [arithOps, onRegisters, carried, Fin.is_le]

@[simp] theorem carried_const (a : Arith) (k : DctConst) : carried a ((arithOps a).const k) = true := by
  cases a <;> simp [arithOps, onRegisters, carried, Fin.is_le]

@[simp] theorem carried_freeSample (a : Arith) (tick index : Nat) : carried a (freeSample a tick index) = true := by
  cases a with
  | finite T => simpa [freeSample, carried] using Nat.le_of_lt_succ (Nat.mod_lt _ (Nat.succ_pos T.top))
  | _ => rfl

@[simp] theorem carried_convert (a : Arith) (c : Component) (r g b : Byte) : carried a (convert (arithOps a) c r g b) = true := by
  cases c <;> simp [convert]

@[simp] theorem carried_dct8 (a : Arith) (x : Oct Sample) (k : Fin 8) : carried a (octGet (dct8 (arithOps a) x) k) = true := by
  fin_cases k <;> simp [octGet, dct8]

/-! ## An arithmetic on registers computes what the carrier's arithmetic computes -/

section

variable {α : Type} {put : α → Sample} {get : Sample → α} (A : ArithOps α)

theorem convert_onRegisters (h : ∀ x, get (put x) = x) (c : Component) (r g b : Byte) :
    convert (onRegisters put get A) c r g b = put (convert A c r g b) := by
  cases c <;> simp [convert, onRegisters, h]

theorem dct8_onRegisters (h : ∀ x, get (put x) = x) (f : Fin 8 → α) (k : Fin 8) :
    octGet (dct8 (onRegisters put get A) (octOf fun i => put (f i))) k = put (octGet (dct8 A (octOf f)) k) := by
  fin_cases k <;> simp [octGet, dct8, onRegisters, octOf, h]

theorem rowTransform_onRegisters (h : ∀ x, get (put x) = x) (b : Block α) :
    rowTransform (onRegisters put get A) (b.map put) = (rowTransform A b).map put := by
  ext i hi
  simp only [rowTransform_getElem, Vector.getElem_map, rowOf, blockAt]
  exact dct8_onRegisters A h _ _

theorem columnTransform_onRegisters (h : ∀ x, get (put x) = x) (b : Block α) :
    columnTransform (onRegisters put get A) (b.map put) = (columnTransform A b).map put := by
  ext i hi
  simp only [columnTransform_getElem, Vector.getElem_map, columnOf, blockAt]
  exact dct8_onRegisters A h _ _

theorem stripSamples_onRegisters (h : ∀ x, get (put x) = x) (pixels : List Byte) (width col : Nat) (c : Component) :
    stripSamples (onRegisters put get A) pixels width col c = (stripSamples A pixels width col c).map put := by
  ext i hi
  simp [stripSamples, convert_onRegisters A h]

/-- The coefficients of a strip are those of the carrier's own arithmetic. -/
theorem stripCoefs_onRegisters (h : ∀ x, get (put x) = x) (pixels : List Byte) (width : Nat) (lt ct : List Byte) (col : Nat)
    (c : Component) :
    stripCoefs (onRegisters put get A) pixels width lt ct col c = stripCoefs A pixels width lt ct col c := by
  funext i
  simp only [stripCoefs, stripSamples_onRegisters A h, rowTransform_onRegisters A h, columnTransform_onRegisters A h]
  simp [onRegisters, h]

end

/-- Under `Q30` the coefficients of a strip are those of the exact rationals. -/
theorem stripCoefs_q30 (pixels : List Byte) (width : Nat) (lt ct : List Byte) (col : Nat) (c : Component) :
    stripCoefs (arithOps .q30) pixels width lt ct col c = stripCoefs q30Ops pixels width lt ct col c :=
  stripCoefs_onRegisters q30Ops exactOf_exact pixels width lt ct col c

end Sys2Proof.Laws
end

