-- ==== Sys2Proof/Laws/Memory.lean ====
section
/-! SUPPORT. The laws of memory: a read after a write, and that every memory operation keeps the canonical form and the
capacity, in which memories that read the same are equal. -/

namespace Sys2Proof.Laws

open Sys2Proof Sys2Proof.Machine

/-- Every listed index lies below `cap`. -/
def inRange (cap : Nat) (m : Memory) : Prop := ∀ c ∈ m, c.1 < cap

@[simp] theorem readByte_nil (a : Nat) : readByte [] a = unlistedByte := rfl

@[simp] theorem readByte_cons (a' : Nat) (b : Byte) (m : Memory) (a : Nat) :
    readByte ((a', b) :: m) a = if a = a' then b else readByte m a := rfl

theorem wfAbove_cons {lo : Option Nat} {a : Nat} {b : Byte} {m : Memory} :
    wfAbove lo ((a, b) :: m) = true ↔ (∀ l ∈ lo, l < a) ∧ b ≠ unlistedByte ∧ wfAbove (some a) m = true := by
  cases lo <;> simp [wfAbove, and_assoc]

theorem wfAbove_mono {lo lo' : Option Nat} {m : Memory} (h : wfAbove lo m = true)
    (hle : ∀ l' ∈ lo', ∃ l ∈ lo, l' ≤ l) : wfAbove lo' m = true := by
  cases m with
  | nil => rfl
  | cons c m =>
    obtain ⟨a, b⟩ := c
    rw [wfAbove_cons] at h ⊢
    refine ⟨fun l' hl' => ?_, h.2⟩
    obtain ⟨l, hl, hll⟩ := hle l' hl'
    exact lt_of_le_of_lt hll (h.1 l hl)

/-- An index at or below the bound is not listed. -/
theorem readByte_of_wfAbove {m : Memory} : ∀ {lo a : Nat}, wfAbove (some lo) m = true → a ≤ lo → readByte m a = unlistedByte := by
  induction m with
  | nil => intros; rfl
  | cons c m ih =>
    obtain ⟨a', b⟩ := c
    intro lo a h hle
    rw [wfAbove_cons] at h
    have hlt : lo < a' := h.1 lo rfl
    rw [readByte_cons, if_neg (by omega)]
    exact ih h.2.2 (by omega)

theorem wfAbove_writeByte {m : Memory} : ∀ {lo : Option Nat} {a : Nat} (b : Byte), wfAbove lo m = true →
    (∀ l ∈ lo, l < a) → wfAbove lo (writeByte m a b) = true := by
  induction m with
  | nil =>
    intro lo a b _ hlo
    unfold writeByte
    split
    · rfl
    · rw [wfAbove_cons]; exact ⟨hlo, by assumption, rfl⟩
  | cons c m ih =>
    obtain ⟨a', b'⟩ := c
    intro lo a b h hlo
    have h' := wfAbove_cons.1 h
    unfold writeByte
    split
    · split
      · exact h
      · rw [wfAbove_cons]
        refine ⟨hlo, by assumption, ?_⟩
        rw [wfAbove_cons]
        exact ⟨by simpa using by assumption, h'.2⟩
    · split
      · rename_i _ heq
        subst heq
        split
        · exact wfAbove_mono h'.2.2 (fun l hl => ⟨a, rfl, (h'.1 l hl).le⟩)
        · rw [wfAbove_cons]; exact ⟨hlo, by assumption, h'.2.2⟩
      · rw [wfAbove_cons]
        exact ⟨h'.1, h'.2.1, ih b h'.2.2 (by simp; omega)⟩

/-- A write keeps the canonical form. -/
theorem wf_writeByte {m : Memory} (a : Nat) (b : Byte) (h : m.wf = true) : Memory.wf (writeByte m a b) = true :=
  wfAbove_writeByte b h (by simp)

theorem readByte_writeByte_aux {m : Memory} : ∀ {lo : Option Nat} (a x : Nat) (b : Byte), wfAbove lo m = true →
    readByte (writeByte m a b) x = if x = a then b else readByte m x := by
  induction m with
  | nil =>
    intro lo a x b _
    unfold writeByte
    split <;> rename_i hb <;> by_cases hx : x = a <;> simp [hx, hb]
  | cons c m ih =>
    obtain ⟨a', b'⟩ := c
    intro lo a x b h
    have h' := wfAbove_cons.1 h
    unfold writeByte
    split
    · split
      · rename_i hlt hb
        by_cases hx : x = a
        · subst hx
          rw [readByte_cons, if_neg (by omega), readByte_of_wfAbove h'.2.2 (by omega)]; simp [hb]
        · simp [hx]
      · simp
    · split
      · rename_i _ heq
        subst heq
        split
        · rename_i hb
          by_cases hx : x = a
          · subst hx; rw [readByte_of_wfAbove h'.2.2 le_rfl]; simp [hb]
          · simp [hx]
        · by_cases hx : x = a <;> simp [hx]
      · rename_i hne
        rw [readByte_cons, ih a x b h'.2.2, readByte_cons]
        by_cases hx : x = a
        · subst hx; simp [hne]
        · simp [hx]

/-- A read after a write: the byte written at its index, and every other byte as it was. -/
theorem readByte_writeByte {m : Memory} (h : m.wf = true) (a x : Nat) (b : Byte) :
    readByte (writeByte m a b) x = if x = a then b else readByte m x :=
  readByte_writeByte_aux a x b h

theorem mem_writeByte {m : Memory} {a : Nat} {b : Byte} {c : Host.Cell} (h : c ∈ writeByte m a b) : c = (a, b) ∨ c ∈ m := by
  induction m with
  | nil => unfold writeByte at h; split at h <;> simp_all
  | cons d m ih =>
    obtain ⟨a', b'⟩ := d
    unfold writeByte at h
    split_ifs at h <;> simp only [List.mem_cons] at h ⊢ <;> tauto

theorem inRange_writeByte {cap a : Nat} {m : Memory} (b : Byte) (h : inRange cap m) (ha : a < cap) :
    inRange cap (writeByte m a b) := by
  intro c hc
  rcases mem_writeByte hc with rfl | hc
  · exact ha
  · exact h c hc

theorem wf_memoryOfCells (cap : Nat) (cs : List Host.Cell) : Memory.wf (memoryOfCells cap cs) = true := by
  induction cs with
  | nil => rfl
  | cons c cs ih =>
    obtain ⟨a, b⟩ := c
    unfold memoryOfCells
    split
    · exact wf_writeByte a b ih
    · exact ih

theorem inRange_memoryOfCells (cap : Nat) (cs : List Host.Cell) : inRange cap (memoryOfCells cap cs) := by
  induction cs with
  | nil => simp [inRange, memoryOfCells]
  | cons c cs ih =>
    obtain ⟨a, b⟩ := c
    unfold memoryOfCells
    split
    · exact inRange_writeByte b ih (by assumption)
    · exact ih

/-- In the canonical form memories that read the same are the same list. -/
theorem wfAbove_ext : ∀ {m m' : Memory} {lo : Option Nat}, wfAbove lo m = true → wfAbove lo m' = true →
    (∀ a, readByte m a = readByte m' a) → m = m'
  | [], [], _, _, _, _ => rfl
  | [], (a, b) :: m', lo, _, h', hr => by
    have := hr a
    simp at this
    exact absurd this.symm (wfAbove_cons.1 h').2.1
  | (a, b) :: m, [], lo, h, _, hr => by
    have := hr a
    simp at this
    exact absurd this (wfAbove_cons.1 h).2.1
  | (a, b) :: m, (a', b') :: m', lo, h, h', hr => by
    have h1 := wfAbove_cons.1 h
    have h2 := wfAbove_cons.1 h'
    have haa : a = a' := by
      rcases lt_trichotomy a a' with hlt | heq | hgt
      · have := hr a
        rw [readByte_cons, if_pos rfl, readByte_cons, if_neg (by omega), readByte_of_wfAbove h2.2.2 (by omega)] at this
        exact absurd this h1.2.1
      · exact heq
      · have := hr a'
        rw [readByte_cons, if_neg (by omega), readByte_cons, if_pos rfl, readByte_of_wfAbove h1.2.2 (by omega)] at this
        exact absurd this.symm h2.2.1
    subst haa
    have hb : b = b' := by simpa using hr a
    subst hb
    congr 1
    refine wfAbove_ext h1.2.2 h2.2.2 (fun x => ?_)
    by_cases hx : x = a
    · subst hx
      rw [readByte_of_wfAbove h1.2.2 le_rfl, readByte_of_wfAbove h2.2.2 le_rfl]
    · simpa [hx] using hr x

theorem memory_ext {m m' : Memory} (h : m.wf = true) (h' : m'.wf = true) (hr : ∀ a, readByte m a = readByte m' a) : m = m' :=
  wfAbove_ext h h' hr

end Sys2Proof.Laws
end

