-- ==== Sys2Proof/Laws/State.lean ====
section
/-! SUPPORT. What each named update does to each field: one lemma per field per update, true by rfl. -/

namespace Sys2Proof.Laws

open Sys2Proof Sys2Proof.Machine

variable (h : Hardware) (s : State)

/-! ## `gotoPhase` -/

@[simp] theorem gotoPhase_sb (ph : Phase) : (gotoPhase ph h).sb = h.sb := rfl
@[simp] theorem gotoPhase_cf (ph : Phase) : (gotoPhase ph h).cf = h.cf := rfl
@[simp] theorem gotoPhase_pred (ph : Phase) : (gotoPhase ph h).pred = h.pred := rfl
@[simp] theorem gotoPhase_run (ph : Phase) : (gotoPhase ph h).run = h.run := rfl
@[simp] theorem gotoPhase_k (ph : Phase) : (gotoPhase ph h).k = h.k := rfl
@[simp] theorem gotoPhase_last (ph : Phase) : (gotoPhase ph h).last = h.last := rfl
@[simp] theorem gotoPhase_acc (ph : Phase) : (gotoPhase ph h).acc = h.acc := rfl
@[simp] theorem gotoPhase_cnt (ph : Phase) : (gotoPhase ph h).cnt = h.cnt := rfl
@[simp] theorem gotoPhase_seq (ph : Phase) : (gotoPhase ph h).seq = { h.seq with ph := ph } := rfl
@[simp] theorem gotoPhase_status (ph : Phase) : (gotoPhase ph h).status = h.status := rfl
@[simp] theorem gotoPhase_width (ph : Phase) : (gotoPhase ph h).width = h.width := rfl
@[simp] theorem gotoPhase_pixlen (ph : Phase) : (gotoPhase ph h).pixlen = h.pixlen := rfl
@[simp] theorem gotoPhase_qllen (ph : Phase) : (gotoPhase ph h).qllen = h.qllen := rfl
@[simp] theorem gotoPhase_qclen (ph : Phase) : (gotoPhase ph h).qclen = h.qclen := rfl
@[simp] theorem gotoPhase_outlen (ph : Phase) : (gotoPhase ph h).outlen = h.outlen := rfl
@[simp] theorem gotoPhase_pix (ph : Phase) : (gotoPhase ph h).pix = h.pix := rfl
@[simp] theorem gotoPhase_ql (ph : Phase) : (gotoPhase ph h).ql = h.ql := rfl
@[simp] theorem gotoPhase_qc (ph : Phase) : (gotoPhase ph h).qc = h.qc := rfl
@[simp] theorem gotoPhase_out (ph : Phase) : (gotoPhase ph h).out = h.out := rfl

/-! ## `startRun` -/

@[simp] theorem startRun_sb : (startRun h).sb = h.sb := rfl
@[simp] theorem startRun_cf : (startRun h).cf = h.cf := rfl
@[simp] theorem startRun_pred : (startRun h).pred = h.pred := rfl
@[simp] theorem startRun_run : (startRun h).run = h.run := rfl
@[simp] theorem startRun_k : (startRun h).k = h.k := rfl
@[simp] theorem startRun_last : (startRun h).last = h.last := rfl
@[simp] theorem startRun_acc : (startRun h).acc = h.acc := rfl
@[simp] theorem startRun_cnt : (startRun h).cnt = h.cnt := rfl
@[simp] theorem startRun_seq : (startRun h).seq = { h.seq with ph := .chk } := rfl
@[simp] theorem startRun_status : (startRun h).status = statusBusy := rfl
@[simp] theorem startRun_width : (startRun h).width = h.width := rfl
@[simp] theorem startRun_pixlen : (startRun h).pixlen = h.pixlen := rfl
@[simp] theorem startRun_qllen : (startRun h).qllen = h.qllen := rfl
@[simp] theorem startRun_qclen : (startRun h).qclen = h.qclen := rfl
@[simp] theorem startRun_outlen : (startRun h).outlen = 0 := rfl
@[simp] theorem startRun_pix : (startRun h).pix = h.pix := rfl
@[simp] theorem startRun_ql : (startRun h).ql = h.ql := rfl
@[simp] theorem startRun_qc : (startRun h).qc = h.qc := rfl
@[simp] theorem startRun_out : (startRun h).out = h.out := rfl

/-! ## `clearResult` -/

@[simp] theorem clearResult_sb : (clearResult h).sb = h.sb := rfl
@[simp] theorem clearResult_cf : (clearResult h).cf = h.cf := rfl
@[simp] theorem clearResult_pred : (clearResult h).pred = h.pred := rfl
@[simp] theorem clearResult_run : (clearResult h).run = h.run := rfl
@[simp] theorem clearResult_k : (clearResult h).k = h.k := rfl
@[simp] theorem clearResult_last : (clearResult h).last = h.last := rfl
@[simp] theorem clearResult_acc : (clearResult h).acc = h.acc := rfl
@[simp] theorem clearResult_cnt : (clearResult h).cnt = h.cnt := rfl
@[simp] theorem clearResult_seq : (clearResult h).seq = h.seq := rfl
@[simp] theorem clearResult_status : (clearResult h).status = statusIdle := rfl
@[simp] theorem clearResult_width : (clearResult h).width = h.width := rfl
@[simp] theorem clearResult_pixlen : (clearResult h).pixlen = h.pixlen := rfl
@[simp] theorem clearResult_qllen : (clearResult h).qllen = h.qllen := rfl
@[simp] theorem clearResult_qclen : (clearResult h).qclen = h.qclen := rfl
@[simp] theorem clearResult_outlen : (clearResult h).outlen = 0 := rfl
@[simp] theorem clearResult_pix : (clearResult h).pix = h.pix := rfl
@[simp] theorem clearResult_ql : (clearResult h).ql = h.ql := rfl
@[simp] theorem clearResult_qc : (clearResult h).qc = h.qc := rfl
@[simp] theorem clearResult_out : (clearResult h).out = h.out := rfl

/-! ## `takeTrap` -/

@[simp] theorem takeTrap_sb (e : BitVec 4) : (takeTrap e h).sb = h.sb := rfl
@[simp] theorem takeTrap_cf (e : BitVec 4) : (takeTrap e h).cf = h.cf := rfl
@[simp] theorem takeTrap_pred (e : BitVec 4) : (takeTrap e h).pred = h.pred := rfl
@[simp] theorem takeTrap_run (e : BitVec 4) : (takeTrap e h).run = h.run := rfl
@[simp] theorem takeTrap_k (e : BitVec 4) : (takeTrap e h).k = h.k := rfl
@[simp] theorem takeTrap_last (e : BitVec 4) : (takeTrap e h).last = h.last := rfl
@[simp] theorem takeTrap_acc (e : BitVec 4) : (takeTrap e h).acc = h.acc := rfl
@[simp] theorem takeTrap_cnt (e : BitVec 4) : (takeTrap e h).cnt = h.cnt := rfl
@[simp] theorem takeTrap_seq (e : BitVec 4) : (takeTrap e h).seq = { h.seq with ph := .idle } := rfl
@[simp] theorem takeTrap_status (e : BitVec 4) : (takeTrap e h).status = statusTrap e := rfl
@[simp] theorem takeTrap_width (e : BitVec 4) : (takeTrap e h).width = h.width := rfl
@[simp] theorem takeTrap_pixlen (e : BitVec 4) : (takeTrap e h).pixlen = h.pixlen := rfl
@[simp] theorem takeTrap_qllen (e : BitVec 4) : (takeTrap e h).qllen = h.qllen := rfl
@[simp] theorem takeTrap_qclen (e : BitVec 4) : (takeTrap e h).qclen = h.qclen := rfl
@[simp] theorem takeTrap_outlen (e : BitVec 4) : (takeTrap e h).outlen = 0 := rfl
@[simp] theorem takeTrap_pix (e : BitVec 4) : (takeTrap e h).pix = h.pix := rfl
@[simp] theorem takeTrap_ql (e : BitVec 4) : (takeTrap e h).ql = h.ql := rfl
@[simp] theorem takeTrap_qc (e : BitVec 4) : (takeTrap e h).qc = h.qc := rfl
@[simp] theorem takeTrap_out (e : BitVec 4) : (takeTrap e h).out = h.out := rfl

/-! ## `endRun` -/

@[simp] theorem endRun_sb : (endRun h).sb = h.sb := rfl
@[simp] theorem endRun_cf : (endRun h).cf = h.cf := rfl
@[simp] theorem endRun_pred : (endRun h).pred = h.pred := rfl
@[simp] theorem endRun_run : (endRun h).run = h.run := rfl
@[simp] theorem endRun_k : (endRun h).k = h.k := rfl
@[simp] theorem endRun_last : (endRun h).last = h.last := rfl
@[simp] theorem endRun_acc : (endRun h).acc = h.acc := rfl
@[simp] theorem endRun_cnt : (endRun h).cnt = h.cnt := rfl
@[simp] theorem endRun_seq : (endRun h).seq = { h.seq with ph := .idle } := rfl
@[simp] theorem endRun_status : (endRun h).status = statusDone := rfl
@[simp] theorem endRun_width : (endRun h).width = h.width := rfl
@[simp] theorem endRun_pixlen : (endRun h).pixlen = h.pixlen := rfl
@[simp] theorem endRun_qllen : (endRun h).qllen = h.qllen := rfl
@[simp] theorem endRun_qclen : (endRun h).qclen = h.qclen := rfl
@[simp] theorem endRun_outlen : (endRun h).outlen = h.outlen := rfl
@[simp] theorem endRun_pix : (endRun h).pix = h.pix := rfl
@[simp] theorem endRun_ql : (endRun h).ql = h.ql := rfl
@[simp] theorem endRun_qc : (endRun h).qc = h.qc := rfl
@[simp] theorem endRun_out : (endRun h).out = h.out := rfl

/-! ## `initStrip` -/

@[simp] theorem initStrip_sb : (initStrip h).sb = h.sb := rfl
@[simp] theorem initStrip_cf : (initStrip h).cf = h.cf := rfl
@[simp] theorem initStrip_pred : (initStrip h).pred = ⟨0, 0, 0⟩ := rfl
@[simp] theorem initStrip_run : (initStrip h).run = h.run := rfl
@[simp] theorem initStrip_k : (initStrip h).k = h.k := rfl
@[simp] theorem initStrip_last : (initStrip h).last = h.last := rfl
@[simp] theorem initStrip_acc : (initStrip h).acc = 0 := rfl
@[simp] theorem initStrip_cnt : (initStrip h).cnt = 0 := rfl
@[simp] theorem initStrip_seq : (initStrip h).seq = { ph := if 0 < h.width.toNat then .csc else .fin, col := 0 } := rfl
@[simp] theorem initStrip_status : (initStrip h).status = h.status := rfl
@[simp] theorem initStrip_width : (initStrip h).width = h.width := rfl
@[simp] theorem initStrip_pixlen : (initStrip h).pixlen = h.pixlen := rfl
@[simp] theorem initStrip_qllen : (initStrip h).qllen = h.qllen := rfl
@[simp] theorem initStrip_qclen : (initStrip h).qclen = h.qclen := rfl
@[simp] theorem initStrip_outlen : (initStrip h).outlen = h.outlen := rfl
@[simp] theorem initStrip_pix : (initStrip h).pix = h.pix := rfl
@[simp] theorem initStrip_ql : (initStrip h).ql = h.ql := rfl
@[simp] theorem initStrip_qc : (initStrip h).qc = h.qc := rfl
@[simp] theorem initStrip_out : (initStrip h).out = h.out := rfl

/-! ## `colorConvert` -/

@[simp] theorem colorConvert_sb (A : ArithOps Sample) (tick : Nat) (col : BitVec 16) : (colorConvert A tick col h).sb = ⟨sampleBlock A tick col.toNat h .y, sampleBlock A tick col.toNat h .cb, sampleBlock A tick col.toNat h .cr⟩ := by unfold colorConvert; rfl
@[simp] theorem colorConvert_cf (A : ArithOps Sample) (tick : Nat) (col : BitVec 16) : (colorConvert A tick col h).cf = h.cf := by unfold colorConvert; rfl
@[simp] theorem colorConvert_pred (A : ArithOps Sample) (tick : Nat) (col : BitVec 16) : (colorConvert A tick col h).pred = h.pred := by unfold colorConvert; rfl
@[simp] theorem colorConvert_run (A : ArithOps Sample) (tick : Nat) (col : BitVec 16) : (colorConvert A tick col h).run = h.run := by unfold colorConvert; rfl
@[simp] theorem colorConvert_k (A : ArithOps Sample) (tick : Nat) (col : BitVec 16) : (colorConvert A tick col h).k = h.k := by unfold colorConvert; rfl
@[simp] theorem colorConvert_last (A : ArithOps Sample) (tick : Nat) (col : BitVec 16) : (colorConvert A tick col h).last = h.last := by unfold colorConvert; rfl
@[simp] theorem colorConvert_acc (A : ArithOps Sample) (tick : Nat) (col : BitVec 16) : (colorConvert A tick col h).acc = h.acc := by unfold colorConvert; rfl
@[simp] theorem colorConvert_cnt (A : ArithOps Sample) (tick : Nat) (col : BitVec 16) : (colorConvert A tick col h).cnt = h.cnt := by unfold colorConvert; rfl
@[simp] theorem colorConvert_seq (A : ArithOps Sample) (tick : Nat) (col : BitVec 16) : (colorConvert A tick col h).seq = { ph := .dctr0, col := col.setWidth 17 } := by unfold colorConvert; rfl
@[simp] theorem colorConvert_status (A : ArithOps Sample) (tick : Nat) (col : BitVec 16) : (colorConvert A tick col h).status = h.status := by unfold colorConvert; rfl
@[simp] theorem colorConvert_width (A : ArithOps Sample) (tick : Nat) (col : BitVec 16) : (colorConvert A tick col h).width = h.width := by unfold colorConvert; rfl
@[simp] theorem colorConvert_pixlen (A : ArithOps Sample) (tick : Nat) (col : BitVec 16) : (colorConvert A tick col h).pixlen = h.pixlen := by unfold colorConvert; rfl
@[simp] theorem colorConvert_qllen (A : ArithOps Sample) (tick : Nat) (col : BitVec 16) : (colorConvert A tick col h).qllen = h.qllen := by unfold colorConvert; rfl
@[simp] theorem colorConvert_qclen (A : ArithOps Sample) (tick : Nat) (col : BitVec 16) : (colorConvert A tick col h).qclen = h.qclen := by unfold colorConvert; rfl
@[simp] theorem colorConvert_outlen (A : ArithOps Sample) (tick : Nat) (col : BitVec 16) : (colorConvert A tick col h).outlen = h.outlen := by unfold colorConvert; rfl
@[simp] theorem colorConvert_pix (A : ArithOps Sample) (tick : Nat) (col : BitVec 16) : (colorConvert A tick col h).pix = h.pix := by unfold colorConvert; rfl
@[simp] theorem colorConvert_ql (A : ArithOps Sample) (tick : Nat) (col : BitVec 16) : (colorConvert A tick col h).ql = h.ql := by unfold colorConvert; rfl
@[simp] theorem colorConvert_qc (A : ArithOps Sample) (tick : Nat) (col : BitVec 16) : (colorConvert A tick col h).qc = h.qc := by unfold colorConvert; rfl
@[simp] theorem colorConvert_out (A : ArithOps Sample) (tick : Nat) (col : BitVec 16) : (colorConvert A tick col h).out = h.out := by unfold colorConvert; rfl

/-! ## `rowPass` -/

@[simp] theorem rowPass_sb (A : ArithOps Sample) (c : Component) (ph : Phase) : (rowPass A c ph h).sb = setComp h.sb c (rowTransform A (getComp h.sb c)) := rfl
@[simp] theorem rowPass_cf (A : ArithOps Sample) (c : Component) (ph : Phase) : (rowPass A c ph h).cf = h.cf := rfl
@[simp] theorem rowPass_pred (A : ArithOps Sample) (c : Component) (ph : Phase) : (rowPass A c ph h).pred = h.pred := rfl
@[simp] theorem rowPass_run (A : ArithOps Sample) (c : Component) (ph : Phase) : (rowPass A c ph h).run = h.run := rfl
@[simp] theorem rowPass_k (A : ArithOps Sample) (c : Component) (ph : Phase) : (rowPass A c ph h).k = h.k := rfl
@[simp] theorem rowPass_last (A : ArithOps Sample) (c : Component) (ph : Phase) : (rowPass A c ph h).last = h.last := rfl
@[simp] theorem rowPass_acc (A : ArithOps Sample) (c : Component) (ph : Phase) : (rowPass A c ph h).acc = h.acc := rfl
@[simp] theorem rowPass_cnt (A : ArithOps Sample) (c : Component) (ph : Phase) : (rowPass A c ph h).cnt = h.cnt := rfl
@[simp] theorem rowPass_seq (A : ArithOps Sample) (c : Component) (ph : Phase) : (rowPass A c ph h).seq = { h.seq with ph := ph } := rfl
@[simp] theorem rowPass_status (A : ArithOps Sample) (c : Component) (ph : Phase) : (rowPass A c ph h).status = h.status := rfl
@[simp] theorem rowPass_width (A : ArithOps Sample) (c : Component) (ph : Phase) : (rowPass A c ph h).width = h.width := rfl
@[simp] theorem rowPass_pixlen (A : ArithOps Sample) (c : Component) (ph : Phase) : (rowPass A c ph h).pixlen = h.pixlen := rfl
@[simp] theorem rowPass_qllen (A : ArithOps Sample) (c : Component) (ph : Phase) : (rowPass A c ph h).qllen = h.qllen := rfl
@[simp] theorem rowPass_qclen (A : ArithOps Sample) (c : Component) (ph : Phase) : (rowPass A c ph h).qclen = h.qclen := rfl
@[simp] theorem rowPass_outlen (A : ArithOps Sample) (c : Component) (ph : Phase) : (rowPass A c ph h).outlen = h.outlen := rfl
@[simp] theorem rowPass_pix (A : ArithOps Sample) (c : Component) (ph : Phase) : (rowPass A c ph h).pix = h.pix := rfl
@[simp] theorem rowPass_ql (A : ArithOps Sample) (c : Component) (ph : Phase) : (rowPass A c ph h).ql = h.ql := rfl
@[simp] theorem rowPass_qc (A : ArithOps Sample) (c : Component) (ph : Phase) : (rowPass A c ph h).qc = h.qc := rfl
@[simp] theorem rowPass_out (A : ArithOps Sample) (c : Component) (ph : Phase) : (rowPass A c ph h).out = h.out := rfl

/-! ## `columnPass` -/

@[simp] theorem columnPass_sb (A : ArithOps Sample) (c : Component) (ph : Phase) : (columnPass A c ph h).sb = setComp h.sb c (columnTransform A (getComp h.sb c)) := rfl
@[simp] theorem columnPass_cf (A : ArithOps Sample) (c : Component) (ph : Phase) : (columnPass A c ph h).cf = h.cf := rfl
@[simp] theorem columnPass_pred (A : ArithOps Sample) (c : Component) (ph : Phase) : (columnPass A c ph h).pred = h.pred := rfl
@[simp] theorem columnPass_run (A : ArithOps Sample) (c : Component) (ph : Phase) : (columnPass A c ph h).run = h.run := rfl
@[simp] theorem columnPass_k (A : ArithOps Sample) (c : Component) (ph : Phase) : (columnPass A c ph h).k = h.k := rfl
@[simp] theorem columnPass_last (A : ArithOps Sample) (c : Component) (ph : Phase) : (columnPass A c ph h).last = h.last := rfl
@[simp] theorem columnPass_acc (A : ArithOps Sample) (c : Component) (ph : Phase) : (columnPass A c ph h).acc = h.acc := rfl
@[simp] theorem columnPass_cnt (A : ArithOps Sample) (c : Component) (ph : Phase) : (columnPass A c ph h).cnt = h.cnt := rfl
@[simp] theorem columnPass_seq (A : ArithOps Sample) (c : Component) (ph : Phase) : (columnPass A c ph h).seq = { h.seq with ph := ph } := rfl
@[simp] theorem columnPass_status (A : ArithOps Sample) (c : Component) (ph : Phase) : (columnPass A c ph h).status = h.status := rfl
@[simp] theorem columnPass_width (A : ArithOps Sample) (c : Component) (ph : Phase) : (columnPass A c ph h).width = h.width := rfl
@[simp] theorem columnPass_pixlen (A : ArithOps Sample) (c : Component) (ph : Phase) : (columnPass A c ph h).pixlen = h.pixlen := rfl
@[simp] theorem columnPass_qllen (A : ArithOps Sample) (c : Component) (ph : Phase) : (columnPass A c ph h).qllen = h.qllen := rfl
@[simp] theorem columnPass_qclen (A : ArithOps Sample) (c : Component) (ph : Phase) : (columnPass A c ph h).qclen = h.qclen := rfl
@[simp] theorem columnPass_outlen (A : ArithOps Sample) (c : Component) (ph : Phase) : (columnPass A c ph h).outlen = h.outlen := rfl
@[simp] theorem columnPass_pix (A : ArithOps Sample) (c : Component) (ph : Phase) : (columnPass A c ph h).pix = h.pix := rfl
@[simp] theorem columnPass_ql (A : ArithOps Sample) (c : Component) (ph : Phase) : (columnPass A c ph h).ql = h.ql := rfl
@[simp] theorem columnPass_qc (A : ArithOps Sample) (c : Component) (ph : Phase) : (columnPass A c ph h).qc = h.qc := rfl
@[simp] theorem columnPass_out (A : ArithOps Sample) (c : Component) (ph : Phase) : (columnPass A c ph h).out = h.out := rfl

/-! ## `quantizePass` -/

@[simp] theorem quantizePass_sb (A : ArithOps Sample) (tick : Nat) (c : Component) (ph : Phase) : (quantizePass A tick c ph h).sb = h.sb := rfl
@[simp] theorem quantizePass_cf (A : ArithOps Sample) (tick : Nat) (c : Component) (ph : Phase) : (quantizePass A tick c ph h).cf = setComp h.cf c (quantizeBlock A tick h c) := rfl
@[simp] theorem quantizePass_pred (A : ArithOps Sample) (tick : Nat) (c : Component) (ph : Phase) : (quantizePass A tick c ph h).pred = h.pred := rfl
@[simp] theorem quantizePass_run (A : ArithOps Sample) (tick : Nat) (c : Component) (ph : Phase) : (quantizePass A tick c ph h).run = h.run := rfl
@[simp] theorem quantizePass_k (A : ArithOps Sample) (tick : Nat) (c : Component) (ph : Phase) : (quantizePass A tick c ph h).k = h.k := rfl
@[simp] theorem quantizePass_last (A : ArithOps Sample) (tick : Nat) (c : Component) (ph : Phase) : (quantizePass A tick c ph h).last = h.last := rfl
@[simp] theorem quantizePass_acc (A : ArithOps Sample) (tick : Nat) (c : Component) (ph : Phase) : (quantizePass A tick c ph h).acc = h.acc := rfl
@[simp] theorem quantizePass_cnt (A : ArithOps Sample) (tick : Nat) (c : Component) (ph : Phase) : (quantizePass A tick c ph h).cnt = h.cnt := rfl
@[simp] theorem quantizePass_seq (A : ArithOps Sample) (tick : Nat) (c : Component) (ph : Phase) : (quantizePass A tick c ph h).seq = { h.seq with ph := ph } := rfl
@[simp] theorem quantizePass_status (A : ArithOps Sample) (tick : Nat) (c : Component) (ph : Phase) : (quantizePass A tick c ph h).status = h.status := rfl
@[simp] theorem quantizePass_width (A : ArithOps Sample) (tick : Nat) (c : Component) (ph : Phase) : (quantizePass A tick c ph h).width = h.width := rfl
@[simp] theorem quantizePass_pixlen (A : ArithOps Sample) (tick : Nat) (c : Component) (ph : Phase) : (quantizePass A tick c ph h).pixlen = h.pixlen := rfl
@[simp] theorem quantizePass_qllen (A : ArithOps Sample) (tick : Nat) (c : Component) (ph : Phase) : (quantizePass A tick c ph h).qllen = h.qllen := rfl
@[simp] theorem quantizePass_qclen (A : ArithOps Sample) (tick : Nat) (c : Component) (ph : Phase) : (quantizePass A tick c ph h).qclen = h.qclen := rfl
@[simp] theorem quantizePass_outlen (A : ArithOps Sample) (tick : Nat) (c : Component) (ph : Phase) : (quantizePass A tick c ph h).outlen = h.outlen := rfl
@[simp] theorem quantizePass_pix (A : ArithOps Sample) (tick : Nat) (c : Component) (ph : Phase) : (quantizePass A tick c ph h).pix = h.pix := rfl
@[simp] theorem quantizePass_ql (A : ArithOps Sample) (tick : Nat) (c : Component) (ph : Phase) : (quantizePass A tick c ph h).ql = h.ql := rfl
@[simp] theorem quantizePass_qc (A : ArithOps Sample) (tick : Nat) (c : Component) (ph : Phase) : (quantizePass A tick c ph h).qc = h.qc := rfl
@[simp] theorem quantizePass_out (A : ArithOps Sample) (tick : Nat) (c : Component) (ph : Phase) : (quantizePass A tick c ph h).out = h.out := rfl

/-! ## `nextMcu` -/

@[simp] theorem nextMcu_sb (tick : Nat) : (nextMcu tick h).sb = h.sb := rfl
@[simp] theorem nextMcu_cf (tick : Nat) : (nextMcu tick h).cf = h.cf := rfl
@[simp] theorem nextMcu_pred (tick : Nat) : (nextMcu tick h).pred = h.pred := rfl
@[simp] theorem nextMcu_run (tick : Nat) : (nextMcu tick h).run = h.run := rfl
@[simp] theorem nextMcu_k (tick : Nat) : (nextMcu tick h).k = h.k := rfl
@[simp] theorem nextMcu_last (tick : Nat) : (nextMcu tick h).last = h.last := rfl
@[simp] theorem nextMcu_acc (tick : Nat) : (nextMcu tick h).acc = h.acc := rfl
@[simp] theorem nextMcu_cnt (tick : Nat) : (nextMcu tick h).cnt = h.cnt := rfl
@[simp] theorem nextMcu_seq (tick : Nat) : (nextMcu tick h).seq = { ph := if h.seq.col.toNat + 8 < h.width.toNat then .csc else .fin, col := nextColumn tick h.seq.col } := rfl
@[simp] theorem nextMcu_status (tick : Nat) : (nextMcu tick h).status = h.status := rfl
@[simp] theorem nextMcu_width (tick : Nat) : (nextMcu tick h).width = h.width := rfl
@[simp] theorem nextMcu_pixlen (tick : Nat) : (nextMcu tick h).pixlen = h.pixlen := rfl
@[simp] theorem nextMcu_qllen (tick : Nat) : (nextMcu tick h).qllen = h.qllen := rfl
@[simp] theorem nextMcu_qclen (tick : Nat) : (nextMcu tick h).qclen = h.qclen := rfl
@[simp] theorem nextMcu_outlen (tick : Nat) : (nextMcu tick h).outlen = h.outlen := rfl
@[simp] theorem nextMcu_pix (tick : Nat) : (nextMcu tick h).pix = h.pix := rfl
@[simp] theorem nextMcu_ql (tick : Nat) : (nextMcu tick h).ql = h.ql := rfl
@[simp] theorem nextMcu_qc (tick : Nat) : (nextMcu tick h).qc = h.qc := rfl
@[simp] theorem nextMcu_out (tick : Nat) : (nextMcu tick h).out = h.out := rfl

/-! ## `storeByte` -/

@[simp] theorem storeByte_sb (sp : Space) (i : Nat) (b : Byte) : (storeByte sp i b h).sb = h.sb := by
  cases sp <;> rfl
@[simp] theorem storeByte_cf (sp : Space) (i : Nat) (b : Byte) : (storeByte sp i b h).cf = h.cf := by
  cases sp <;> rfl
@[simp] theorem storeByte_pred (sp : Space) (i : Nat) (b : Byte) : (storeByte sp i b h).pred = h.pred := by
  cases sp <;> rfl
@[simp] theorem storeByte_run (sp : Space) (i : Nat) (b : Byte) : (storeByte sp i b h).run = h.run := by
  cases sp <;> rfl
@[simp] theorem storeByte_k (sp : Space) (i : Nat) (b : Byte) : (storeByte sp i b h).k = h.k := by
  cases sp <;> rfl
@[simp] theorem storeByte_last (sp : Space) (i : Nat) (b : Byte) : (storeByte sp i b h).last = h.last := by
  cases sp <;> rfl
@[simp] theorem storeByte_acc (sp : Space) (i : Nat) (b : Byte) : (storeByte sp i b h).acc = h.acc := by
  cases sp <;> rfl
@[simp] theorem storeByte_cnt (sp : Space) (i : Nat) (b : Byte) : (storeByte sp i b h).cnt = h.cnt := by
  cases sp <;> rfl
@[simp] theorem storeByte_seq (sp : Space) (i : Nat) (b : Byte) : (storeByte sp i b h).seq = h.seq := by
  cases sp <;> rfl
@[simp] theorem storeByte_status (sp : Space) (i : Nat) (b : Byte) : (storeByte sp i b h).status = h.status := by
  cases sp <;> rfl
@[simp] theorem storeByte_width (sp : Space) (i : Nat) (b : Byte) : (storeByte sp i b h).width = h.width := by
  cases sp <;> rfl
@[simp] theorem storeByte_pixlen (sp : Space) (i : Nat) (b : Byte) : (storeByte sp i b h).pixlen = h.pixlen := by
  cases sp <;> rfl
@[simp] theorem storeByte_qllen (sp : Space) (i : Nat) (b : Byte) : (storeByte sp i b h).qllen = h.qllen := by
  cases sp <;> rfl
@[simp] theorem storeByte_qclen (sp : Space) (i : Nat) (b : Byte) : (storeByte sp i b h).qclen = h.qclen := by
  cases sp <;> rfl
@[simp] theorem storeByte_outlen (sp : Space) (i : Nat) (b : Byte) : (storeByte sp i b h).outlen = h.outlen := by
  cases sp <;> rfl
@[simp] theorem memoryOf_storeByte (sp : Space) (i : Nat) (b : Byte) :
    memoryOf sp (storeByte sp i b h) = writeByte (memoryOf sp h) i b := by
  cases sp <;> rfl
theorem memoryOf_storeByte_of_ne {sp sp' : Space} (hne : sp' ≠ sp) (i : Nat) (b : Byte) :
    memoryOf sp' (storeByte sp i b h) = memoryOf sp' h := by
  cases sp <;> cases sp' <;> first | rfl | exact absurd rfl hne

/-! ## `getComp`, `setComp` -/

@[simp] theorem getComp_setComp {α : Type} (t : Triple α) (c : Component) (v : α) : getComp (setComp t c v) c = v := by
  cases c <;> rfl
theorem getComp_setComp_of_ne {α : Type} (t : Triple α) {c c' : Component} (hne : c' ≠ c) (v : α) :
    getComp (setComp t c v) c' = getComp t c' := by
  cases c <;> cases c' <;> first | rfl | exact absurd rfl hne
theorem triple_ext {α : Type} {t u : Triple α} (h : ∀ c, getComp t c = getComp u c) : t = u := by
  have hy := h .y; have hcb := h .cb; have hcr := h .cr
  cases t; cases u; simp_all [getComp]

/-! ## The environment's updates -/

@[simp] theorem advance_hw (rest : List Word) : (advance rest s).hw = s.hw := rfl
@[simp] theorem advance_cfg (rest : List Word) : (advance rest s).cfg = s.cfg := rfl
@[simp] theorem advance_listing (rest : List Word) : (advance rest s).env.listing = rest := rfl
@[simp] theorem advance_turns (rest : List Word) : (advance rest s).env.turns = s.env.turns.tail := rfl
@[simp] theorem advance_resp (rest : List Word) : (advance rest s).env.resp = s.env.resp := rfl
@[simp] theorem advance_tick (rest : List Word) : (advance rest s).env.tick = s.env.tick + 1 := rfl
@[simp] theorem placeWords_hw (ws : List Word) : (placeWords ws s).hw = s.hw := rfl
@[simp] theorem placeWords_cfg (ws : List Word) : (placeWords ws s).cfg = s.cfg := rfl
@[simp] theorem placeWords_listing (ws : List Word) : (placeWords ws s).env.listing = ws ++ s.env.listing := rfl
@[simp] theorem placeWords_turns (ws : List Word) : (placeWords ws s).env.turns = .host :: s.env.turns := rfl
@[simp] theorem placeWords_resp (ws : List Word) : (placeWords ws s).env.resp = s.env.resp := rfl
@[simp] theorem placeWords_tick (ws : List Word) : (placeWords ws s).env.tick = s.env.tick := rfl
@[simp] theorem assertReset_hw : (assertReset s).hw = resetHardware s.cfg.arith s.env.tick := by simp only [assertReset]
@[simp] theorem assertReset_cfg : (assertReset s).cfg = s.cfg := by simp only [assertReset]
@[simp] theorem assertReset_env : (assertReset s).env = s.env := by simp only [assertReset]

/-! ## Outcomes of one shape -/

@[simp] theorem nextHw_eq_next {h : Hardware} {s t : State} : nextHw s h = .next t ↔ t = { s with hw := h } := by
  simp [nextHw, eq_comm]
@[simp] theorem respond_eq_next {r : BusResponse} {s t : State} :
    respond s r = .next t ↔ t = { s with env := { s.env with resp := r } } := by
  simp [respond, eq_comm]
@[simp] theorem written_eq_next {h : Hardware} {s t : State} :
    written s h = .next t ↔ t = { s with hw := h, env := { s.env with resp := .written } } := by
  simp [written, eq_comm]

end Sys2Proof.Laws
end

