-- ==== Sys2Proof/Laws/Writer.lean ====
section
/-! SUPPORT. What the writer's operations can do: which fields they touch, how `OUTLEN` moves, and when they succeed. -/

namespace Sys2Proof.Laws

open Sys2Proof Sys2Proof.Machine

/-- `h'` differs from `h` in the writer's fields at most: `ACC`, `CNT`, `OUT`, `OUTLEN`. -/
def writerOnly (h h' : Hardware) : Prop :=
  h' = { h with acc := h'.acc, cnt := h'.cnt, out := h'.out, outlen := h'.outlen }

theorem writerOnly_refl (h : Hardware) : writerOnly h h := rfl

theorem writerOnly_trans {h h' h'' : Hardware} (h1 : writerOnly h h') (h2 : writerOnly h' h'') : writerOnly h h'' := by
  unfold writerOnly at *
  rw [h2, h1]

/-- `emit`, said once: it succeeds exactly below the capacity, and then appends. -/
theorem emit_eq_some {b : Byte} {h h' : Hardware} :
    emit b h = some h' ↔
      h.outlen.toNat < capacity .out ∧ h' = { h with out := writeByte h.out h.outlen.toNat b, outlen := h.outlen + 1 } := by
  unfold emit
  split
  · simp [storeByte, *, eq_comm]
  · simp [*]

theorem capacity_out : capacity .out = 16777216 := rfl

theorem outlen_succ {x : BitVec 32} (h : x.toNat < capacity .out) : (x + 1).toNat = x.toNat + 1 := by
  rw [capacity_out] at h
  have h1 : (1 : BitVec 32).toNat = 1 := rfl
  rw [BitVec.toNat_add, h1]
  omega

/-- A computed byte adds one byte to the output, or two when it is 0xFF. -/
theorem emitStuffed_outlen {b : Byte} {h h' : Hardware} (hs : emitStuffed b h = some h') :
    h'.outlen.toNat = h.outlen.toNat + (if b = 0xFF then 2 else 1) := by
  unfold emitStuffed at hs
  split at hs
  · obtain ⟨h1, he, he'⟩ := Option.bind_eq_some_iff.1 hs
    obtain ⟨hlt, rfl⟩ := emit_eq_some.1 he
    obtain ⟨hlt', rfl⟩ := emit_eq_some.1 he'
    simp only at hlt' ⊢
    rw [outlen_succ hlt', outlen_succ hlt, if_pos (by assumption)]
  · obtain ⟨hlt, rfl⟩ := emit_eq_some.1 hs
    simp only
    rw [outlen_succ hlt, if_neg (by assumption)]

theorem emitStuffed_frame {b : Byte} {h h' : Hardware} (hs : emitStuffed b h = some h') :
    h' = { h with out := h'.out, outlen := h'.outlen } := by
  unfold emitStuffed at hs
  split at hs
  · obtain ⟨h1, he, he'⟩ := Option.bind_eq_some_iff.1 hs
    obtain ⟨_, rfl⟩ := emit_eq_some.1 he
    obtain ⟨_, rfl⟩ := emit_eq_some.1 he'
    rfl
  · obtain ⟨_, rfl⟩ := emit_eq_some.1 hs
    rfl

/-- With room for two bytes a computed byte can be appended. -/
theorem emitStuffed_isSome {b : Byte} {h : Hardware} (hroom : h.outlen.toNat + 2 ≤ capacity .out) :
    ∃ h', emitStuffed b h = some h' := by
  have hlt : h.outlen.toNat < capacity .out := by omega
  have h1 : emit b h = some _ := emit_eq_some.2 ⟨hlt, rfl⟩
  unfold emitStuffed
  split
  · rw [h1, Option.bind_some]
    exact ⟨_, emit_eq_some.2 ⟨by simp only [outlen_succ hlt]; omega, rfl⟩⟩
  · exact ⟨_, h1⟩

/-- A computed byte is written at `OUTLEN`, the stuffing byte after it, and every other byte of `OUT` stays. -/
theorem emitStuffed_read {b : Byte} {h h' : Hardware} (hwf : h.out.wf = true) (hs : emitStuffed b h = some h') (a : Nat) :
    readByte h'.out a = if a = h.outlen.toNat then b
      else if b = 0xFF ∧ a = h.outlen.toNat + 1 then 0x00 else readByte h.out a := by
  unfold emitStuffed at hs
  split at hs
  · rename_i hb
    obtain ⟨h1, he, he'⟩ := Option.bind_eq_some_iff.1 hs
    obtain ⟨hlt, rfl⟩ := emit_eq_some.1 he
    obtain ⟨hlt', rfl⟩ := emit_eq_some.1 he'
    simp only [outlen_succ hlt]
    rw [readByte_writeByte (wf_writeByte _ _ hwf), readByte_writeByte hwf]
    by_cases h1 : a = h.outlen.toNat <;> by_cases h2 : a = h.outlen.toNat + 1 <;> simp [h1, h2, hb]
  · rename_i hb
    obtain ⟨_, rfl⟩ := emit_eq_some.1 hs
    rw [readByte_writeByte hwf, if_neg (c := b = 0xFF ∧ a = h.outlen.toNat + 1) (fun hc => hb hc.1)]

theorem emitStuffed_memory {b : Byte} {h h' : Hardware} (hwf : h.out.wf = true) (hin : inRange (capacity .out) h.out)
    (hs : emitStuffed b h = some h') : h'.out.wf = true ∧ inRange (capacity .out) h'.out := by
  unfold emitStuffed at hs
  split at hs
  · obtain ⟨h1, he, he'⟩ := Option.bind_eq_some_iff.1 hs
    obtain ⟨hlt, rfl⟩ := emit_eq_some.1 he
    obtain ⟨hlt', rfl⟩ := emit_eq_some.1 he'
    exact ⟨wf_writeByte _ _ (wf_writeByte _ _ hwf), inRange_writeByte _ (inRange_writeByte _ hin hlt) hlt'⟩
  · obtain ⟨hlt, rfl⟩ := emit_eq_some.1 hs
    exact ⟨wf_writeByte _ _ hwf, inRange_writeByte _ hin hlt⟩

theorem drain_zero (acc cnt : Nat) (h : Hardware) :
    drain 0 acc cnt h = some { h with acc := BitVec.ofNat 32 acc, cnt := BitVec.ofNat 5 cnt } := rfl

theorem drain_succ {bytes acc cnt : Nat} {h h' : Hardware} :
    drain (bytes + 1) acc cnt h = some h' ↔
      ∃ h1, emitStuffed (BitVec.ofNat 8 (acc >>> (cnt - 8))) h = some h1 ∧
        drain bytes (acc % 2 ^ (cnt - 8)) (cnt - 8) h1 = some h' := by
  rw [drain, Option.bind_eq_some_iff]

/-- The loop of `PUTB` touches the writer's fields only. -/
theorem drain_writerOnly {bytes : Nat} : ∀ {acc cnt : Nat} {h h' : Hardware}, drain bytes acc cnt h = some h' →
    writerOnly h h' := by
  induction bytes with
  | zero => intro acc cnt h h' hs; rw [drain_zero] at hs; cases hs; rfl
  | succ n ih =>
    intro acc cnt h h' hs
    obtain ⟨h1, he, hd⟩ := drain_succ.1 hs
    refine writerOnly_trans (h' := h1) ?_ (ih hd)
    rw [writerOnly, emitStuffed_frame he]

/-- `PUTB` touches the writer's fields only. -/
theorem putBits_writerOnly {v n : Nat} {h h' : Hardware} (hs : putBits v n h = some h') : writerOnly h h' := by
  unfold putBits at hs
  split at hs
  · cases hs; rfl
  · exact drain_writerOnly hs

/-- The loop's count, and how far `OUTLEN` moves: at most two bytes a round. -/
theorem drain_counts {bytes : Nat} : ∀ {acc cnt : Nat} {h h' : Hardware}, bytes = cnt / 8 → drain bytes acc cnt h = some h' →
    h'.cnt.toNat = cnt % 8 ∧ h.outlen.toNat ≤ h'.outlen.toNat ∧ h'.outlen.toNat ≤ h.outlen.toNat + 2 * bytes := by
  induction bytes with
  | zero =>
    intro acc cnt h h' hb hs
    rw [drain_zero] at hs
    cases hs
    simp only [BitVec.toNat_ofNat]
    omega
  | succ n ih =>
    intro acc cnt h h' hb hs
    obtain ⟨h1, he, hd⟩ := drain_succ.1 hs
    have hlen := emitStuffed_outlen he
    have := ih (by omega) hd
    split at hlen <;> omega

/-- With room for two bytes a round the loop comes to its end. -/
theorem drain_isSome {bytes : Nat} : ∀ {acc cnt : Nat} {h : Hardware}, h.outlen.toNat + 2 * bytes ≤ capacity .out →
    ∃ h', drain bytes acc cnt h = some h' := by
  induction bytes with
  | zero => intro acc cnt h _; exact ⟨_, drain_zero acc cnt h⟩
  | succ n ih =>
    intro acc cnt h hroom
    obtain ⟨h1, he⟩ := emitStuffed_isSome (b := BitVec.ofNat 8 (acc >>> (cnt - 8))) (h := h) (by omega)
    have hlen := emitStuffed_outlen he
    obtain ⟨h', hd⟩ := ih (acc := acc % 2 ^ (cnt - 8)) (cnt := cnt - 8) (h := h1) (by split at hlen <;> omega)
    exact ⟨h', drain_succ.2 ⟨h1, he, hd⟩⟩

theorem drain_memory {bytes : Nat} : ∀ {acc cnt : Nat} {h h' : Hardware}, h.out.wf = true → inRange (capacity .out) h.out →
    drain bytes acc cnt h = some h' → h'.out.wf = true ∧ inRange (capacity .out) h'.out := by
  induction bytes with
  | zero => intro acc cnt h h' hwf hin hs; rw [drain_zero] at hs; cases hs; exact ⟨hwf, hin⟩
  | succ n ih =>
    intro acc cnt h h' hwf hin hs
    obtain ⟨h1, he, hd⟩ := drain_succ.1 hs
    obtain ⟨hwf1, hin1⟩ := emitStuffed_memory hwf hin he
    exact ih hwf1 hin1 hd

/-- The flush touches the writer's fields only. -/
theorem flush_writerOnly {tick : Nat} {h h' : Hardware} (hs : flush tick h = some h') : writerOnly h h' := by
  unfold flush at hs
  split at hs
  · cases hs; rfl
  · obtain ⟨h1, he, rfl⟩ := Option.map_eq_some_iff.1 hs
    rw [writerOnly, emitStuffed_frame he]

/-- With room for two bytes the flush comes to its end. -/
theorem flush_isSome {tick : Nat} {h : Hardware} (hroom : h.outlen.toNat + 2 ≤ capacity .out) : ∃ h', flush tick h = some h' := by
  unfold flush
  split
  · exact ⟨h, rfl⟩
  · obtain ⟨h1, he⟩ := emitStuffed_isSome (b := finalByte tick h.acc.toNat h.cnt.toNat) hroom
    exact ⟨_, by rw [he]; rfl⟩

end Sys2Proof.Laws
end

