-- ==== Sys2Proof/Laws/Entropy.lean ====
section
/-! SUPPORT. What the entropy coder can do: bounds of its functions, the fields a coding touches, and that a coding with room
in `OUT` comes to its end or misses. -/

namespace Sys2Proof.Laws

open Sys2Proof Sys2Proof.Machine

theorem huffCode_len_pos (c : HuffCode) : 1 ≤ c.len := by simp [HuffCode.len]

theorem huffCode_len_le (c : HuffCode) : c.len ≤ 16 := by simp only [HuffCode.len]; omega

@[simp] theorem category_zero : category 0 = 0 := rfl

theorem bitLength_le {n k : Nat} (h : n < 2 ^ k) : bitLength n ≤ k := by
  unfold bitLength
  split
  · omega
  · have := (Nat.log2_lt (by assumption)).2 h
    omega

/-- The category of a value of 16 bits, or of a difference of two, is at most 16 (43 R105). -/
theorem category_le_sixteen {v : Int} (h : v.natAbs < 2 ^ 16) : category v ≤ 16 := bitLength_le h

theorem natAbs_toInt_le (x : BitVec 16) : x.toInt.natAbs ≤ 2 ^ 15 := by
  have h1 := BitVec.le_toInt (x := x)
  have h2 := BitVec.toInt_lt (x := x)
  omega

theorem category_toInt_le (x : BitVec 16) : category x.toInt ≤ 16 :=
  category_le_sixteen (by have := natAbs_toInt_le x; omega)

theorem category_diff_le (x y : BitVec 16) : category (x.toInt - y.toInt) ≤ 16 :=
  category_le_sixteen (by
    have h1 := BitVec.le_toInt (x := x)
    have h2 := BitVec.toInt_lt (x := x)
    have h3 := BitVec.le_toInt (x := y)
    have h4 := BitVec.toInt_lt (x := y)
    omega)

/-! ## What holds of wherever a coding stops -/

/-- `P` holds of the hardware where the coding ends or misses. -/
def reaches (P : Hardware → Prop) : Coding → Prop
  | .coded h => P h
  | .missed h => P h
  | .full => True

theorem reaches_mono {P Q : Hardware → Prop} (h : ∀ x, P x → Q x) {r : Coding} (hr : reaches P r) : reaches Q r := by
  cases r with
  | coded x => exact h x hr
  | missed x => exact h x hr
  | full => trivial

theorem reaches_andThen {P : Hardware → Prop} {r : Coding} {f : Hardware → Coding} (hr : reaches P r)
    (hf : ∀ x, P x → reaches P (f x)) : reaches P (andThen r f) := by
  cases r with
  | coded x => exact hf x hr
  | missed x => exact hr
  | full => trivial

/-- `h'` differs from `h` in the fields of a coding operation at most: `PRED`, `RUN`, `K`, `LAST`, `ACC`, `CNT`, `OUT`,
`OUTLEN`. -/
def coderOnly (h h' : Hardware) : Prop :=
  h' = { h with
    pred := h'.pred, run := h'.run, k := h'.k, last := h'.last, acc := h'.acc, cnt := h'.cnt, out := h'.out,
    outlen := h'.outlen }

theorem coderOnly_of_writerOnly {h x x' : Hardware} (h1 : coderOnly h x) (h2 : writerOnly x x') : coderOnly h x' := by
  unfold coderOnly writerOnly at *
  rw [h2, h1]

theorem putCode_coderOnly {h x : Hardware} (code : Option HuffCode) (hx : coderOnly h x) :
    reaches (coderOnly h) (putCode code x) := by
  unfold putCode
  split
  · unfold ofWriter
    split
    · exact coderOnly_of_writerOnly hx (putBits_writerOnly (by assumption))
    · trivial
  · exact hx

theorem putExtra_coderOnly {h x : Hardware} (v : Int) (hx : coderOnly h x) : reaches (coderOnly h) (putExtra v x) := by
  unfold putExtra
  split
  · exact hx
  · unfold ofWriter
    split
    · exact coderOnly_of_writerOnly hx (putBits_writerOnly (by assumption))
    · trivial

/-- `ENCDC` touches the coder's fields only. -/
theorem encodeDc_coderOnly (cfg : Config) (tick : Nat) (c : Component) (h : Hardware) :
    reaches (coderOnly h) (encodeDc cfg tick c h) :=
  reaches_andThen (putCode_coderOnly _ rfl) (fun _ hx => putExtra_coderOnly _ hx)

theorem acPosition_coderOnly {h x : Hardware} (cfg : Config) (tick : Nat) (c : Component) (pos : Nat) (hx : coderOnly h x) :
    reaches (coderOnly h) (acPosition cfg tick c pos x) := by
  have set_run : ∀ (r : BitVec 5) (y : Hardware), coderOnly h y → coderOnly h { y with run := r } := by
    intro r y hy
    unfold coderOnly at *
    rw [hy]
  have hk : coderOnly h { x with k := BitVec.ofNat 6 pos } := by
    unfold coderOnly at *
    rw [hx]
  unfold acPosition
  simp only
  split
  · unfold acZero
    split
    · exact reaches_andThen (putCode_coderOnly _ hk) (fun y hy => set_run 0 y hy)
    · exact set_run _ _ hk
  · exact reaches_andThen (putCode_coderOnly _ hk)
      (fun y hy => reaches_andThen (putExtra_coderOnly _ hy) (fun z hz => set_run 0 z hz))

theorem acScan_coderOnly {h : Hardware} (cfg : Config) (tick : Nat) (c : Component) (ps : List Nat) :
    ∀ {x : Hardware}, coderOnly h x → reaches (coderOnly h) (acScan cfg tick c ps x) := by
  induction ps with
  | nil => intro x hx; exact hx
  | cons p ps ih =>
    intro x hx
    exact reaches_andThen (acPosition_coderOnly cfg tick c p hx) (fun y hy => ih hy)

/-- `ENCAC` touches the coder's fields only. -/
theorem encodeAc_coderOnly (cfg : Config) (tick : Nat) (c : Component) (h : Hardware) :
    reaches (coderOnly h) (encodeAc cfg tick c h) := by
  refine reaches_andThen (acScan_coderOnly cfg tick c _ rfl) (fun x hx => ?_)
  unfold acEnd
  split
  · exact hx
  · exact putCode_coderOnly _ hx

/-! ## Room in OUT -/

/-- The coding does not stop for want of a byte in `OUT`, and where it stops `OUTLEN` is at most `m`. -/
def endsWithin (m : Nat) : Coding → Prop
  | .coded h => h.outlen.toNat ≤ m
  | .missed h => h.outlen.toNat ≤ m
  | .full => False

theorem endsWithin_andThen {m m' : Nat} {r : Coding} {f : Hardware → Coding} (hr : endsWithin m r) (hm : m ≤ m')
    (hf : ∀ x : Hardware, x.outlen.toNat ≤ m → endsWithin m' (f x)) : endsWithin m' (andThen r f) := by
  cases r with
  | coded x => exact hf x hr
  | missed x => exact le_trans hr hm
  | full => exact hr

/-- One `PUTB` needs at most ten bytes of room, whatever `CNT` holds. -/
theorem putBits_room {v n m : Nat} {h : Hardware} (hn : n ≤ 16) (hm : h.outlen.toNat ≤ m) (hroom : m + 10 ≤ capacity .out) :
    ∃ h', putBits v n h = some h' ∧ h'.outlen.toNat ≤ m + 10 := by
  have hc : h.cnt.toNat < 32 := h.cnt.isLt
  unfold putBits
  split
  · exact ⟨h, rfl, by omega⟩
  · obtain ⟨h', hd⟩ := drain_isSome (bytes := (h.cnt.toNat + n) / 8) (acc := (h.acc.toNat <<< n) + v % 2 ^ n)
      (cnt := h.cnt.toNat + n) (h := h) (by omega)
    have := drain_counts rfl hd
    exact ⟨h', hd, by omega⟩

theorem putCode_room {m : Nat} {h : Hardware} (code : Option HuffCode) (hm : h.outlen.toNat ≤ m)
    (hroom : m + 10 ≤ capacity .out) : endsWithin (m + 10) (putCode code h) := by
  unfold putCode
  split
  · rename_i c
    obtain ⟨h', hp, hl⟩ := putBits_room (v := c.code.toNat) (huffCode_len_le c) hm hroom
    simp only [hp, ofWriter]
    exact hl
  · exact le_trans hm (by omega)

theorem putExtra_room {m : Nat} {h : Hardware} {v : Int} (hv : category v ≤ 16) (hm : h.outlen.toNat ≤ m)
    (hroom : m + 10 ≤ capacity .out) : endsWithin (m + 10) (putExtra v h) := by
  unfold putExtra
  split
  · exact le_trans hm (by omega)
  · obtain ⟨h', hp, hl⟩ := putBits_room (v := extraBits v) hv hm hroom
    simp only [hp, ofWriter]
    exact hl

/-- `ENCDC` needs at most twenty bytes of room. -/
theorem encodeDc_room (cfg : Config) (tick : Nat) (c : Component) (h : Hardware) (hroom : h.outlen.toNat + 20 ≤ capacity .out) :
    endsWithin (h.outlen.toNat + 20) (encodeDc cfg tick c h) :=
  endsWithin_andThen (putCode_room _ (m := h.outlen.toNat) le_rfl (by omega)) (by omega)
    (fun _ hx => putExtra_room (category_diff_le _ _) hx (by omega))

theorem zigzag_category_le (cf : Block (BitVec 16)) (k : Nat) : category (zigzag cf k) ≤ 16 := category_toInt_le _

theorem acPosition_room {m : Nat} {h : Hardware} (cfg : Config) (tick : Nat) (c : Component) (pos : Nat)
    (hm : h.outlen.toNat ≤ m) (hroom : m + 20 ≤ capacity .out) : endsWithin (m + 20) (acPosition cfg tick c pos h) := by
  unfold acPosition
  simp only
  split
  · unfold acZero
    split
    · exact endsWithin_andThen (putCode_room _ (h := { h with k := _ }) hm (by omega)) (by omega)
        (fun x hx => le_trans hx (by omega))
    · exact le_trans hm (by omega)
  · exact endsWithin_andThen (putCode_room _ (h := { h with k := _ }) hm (by omega)) (by omega)
      (fun x hx => endsWithin_andThen (putExtra_room (zigzag_category_le _ _) hx (by omega)) (by omega) (fun y hy => hy))

theorem acScan_room (cfg : Config) (tick : Nat) (c : Component) (ps : List Nat) : ∀ {m : Nat} {h : Hardware},
    h.outlen.toNat ≤ m → m + 20 * ps.length ≤ capacity .out → endsWithin (m + 20 * ps.length) (acScan cfg tick c ps h) := by
  induction ps with
  | nil => intro m h hm _; exact hm
  | cons p ps ih =>
    intro m h hm hroom
    simp only [List.length_cons] at hroom ⊢
    exact endsWithin_andThen (acPosition_room cfg tick c p hm (by omega)) (by omega)
      (fun x hx => by
        have := ih hx (by omega)
        rwa [show m + 20 * (ps.length + 1) = m + 20 + 20 * ps.length by omega])

theorem foldl_last_le (p : Nat → Prop) [DecidablePred p] (n : Nat) (ks : List Nat) : ∀ {a : Nat}, a ≤ n → (∀ k ∈ ks, k ≤ n) →
    ks.foldl (fun last k => if p k then last else k) a ≤ n := by
  induction ks with
  | nil => intro a ha _; exact ha
  | cons k ks ih =>
    intro a ha hk
    exact ih (by beta_reduce; split; exact ha; exact hk k (by simp)) (fun x hx => hk x (by simp [hx]))

theorem lastNonzero_le (cf : Block (BitVec 16)) : lastNonzero cf ≤ 63 :=
  foldl_last_le (fun k => zigzag cf k = 0) 63 _ (by omega) (by intro k hk; simp [List.mem_range'_1] at hk; omega)

/-- `ENCAC` needs at most 1270 bytes of room. -/
theorem encodeAc_room (cfg : Config) (tick : Nat) (c : Component) (h : Hardware) (hroom : h.outlen.toNat + 1270 ≤ capacity .out) :
    endsWithin (h.outlen.toNat + 1270) (encodeAc cfg tick c h) := by
  have hl := lastNonzero_le (getComp h.cf c)
  unfold encodeAc
  simp only
  have hs := acScan_room cfg tick c (List.range' 1 (lastNonzero (getComp h.cf c))) (m := h.outlen.toNat)
    (h := { h with last := BitVec.ofNat 6 (lastNonzero (getComp h.cf c)), run := 0 }) le_rfl (by simp only [List.length_range']; omega)
  refine endsWithin_andThen hs (by simp only [List.length_range']; omega) (fun x hx => ?_)
  simp only [List.length_range'] at hx
  unfold acEnd
  split
  · exact le_trans hx (by omega)
  · have := putCode_room (lookup cfg .ac (tableSel c) (some 0x00) (Config.freeCode tick 0)) (h := x)
      (m := h.outlen.toNat + 1260) (by omega) (by omega)
    exact this

/-! ## Outcomes -/

/-- A coding's outcome is a next state exactly when the coding is not stopped for want of room. -/
theorem codingOutcome_cases {s t : State} {next : Hardware → Hardware} {r : Coding} (h : codingOutcome s next r = .next t) :
    (∃ x, r = .coded x ∧ t = { s with hw := next x }) ∨ (∃ x, r = .missed x ∧ t = { s with hw := takeTrap 3 x }) := by
  cases r with
  | coded x => exact .inl ⟨x, rfl, nextHw_eq_next.1 h⟩
  | missed x => exact .inr ⟨x, rfl, nextHw_eq_next.1 h⟩
  | full => cases h

/-- A writer operation's outcome. -/
theorem writerOutcome_eq_next {s t : State} {r : Option Hardware} :
    writerOutcome s r = .next t ↔ ∃ x, r = some x ∧ t = { s with hw := x } := by
  cases r with
  | none => simp [writerOutcome]
  | some x => simp [writerOutcome]

end Sys2Proof.Laws
end

