-- ==== Sys2Proof/Laws/PerInstr.lean ====
section
/-! SUPPORT. Statements about every instruction, one lemma per constructor. -/

namespace Sys2Proof.Laws.FormatLength

open Sys2Proof

/-- Bit 31 of an operation's first word tells its format, and the format its length: one word or three (30 R54, R60). -/
def Statement (i : Instr) : Prop :=
  ∃ w0 ws, encode i = w0 :: ws ∧ isFormatH w0 = i.isHost ∧ ws.length = if i.isHost then 2 else 0

theorem chk : Statement .chk := ⟨_, _, rfl, by decide, rfl⟩
theorem init : Statement .init := ⟨_, _, rfl, by decide, rfl⟩
theorem csc (col : BitVec 16) : Statement (.csc col) := ⟨_, _, rfl, (BitVec.getLsbD_append ..).trans (by simp [Instr.isHost]), rfl⟩
theorem dctr0 : Statement .dctr0 := ⟨_, _, rfl, by decide, rfl⟩
theorem dctr1 : Statement .dctr1 := ⟨_, _, rfl, by decide, rfl⟩
theorem dctr2 : Statement .dctr2 := ⟨_, _, rfl, by decide, rfl⟩
theorem dctc0 : Statement .dctc0 := ⟨_, _, rfl, by decide, rfl⟩
theorem dctc1 : Statement .dctc1 := ⟨_, _, rfl, by decide, rfl⟩
theorem dctc2 : Statement .dctc2 := ⟨_, _, rfl, by decide, rfl⟩
theorem qnt0 : Statement .qnt0 := ⟨_, _, rfl, by decide, rfl⟩
theorem qnt1 : Statement .qnt1 := ⟨_, _, rfl, by decide, rfl⟩
theorem qnt2 : Statement .qnt2 := ⟨_, _, rfl, by decide, rfl⟩
theorem encdc0 : Statement .encdc0 := ⟨_, _, rfl, by decide, rfl⟩
theorem encdc1 : Statement .encdc1 := ⟨_, _, rfl, by decide, rfl⟩
theorem encdc2 : Statement .encdc2 := ⟨_, _, rfl, by decide, rfl⟩
theorem encac0 : Statement .encac0 := ⟨_, _, rfl, by decide, rfl⟩
theorem encac1 : Statement .encac1 := ⟨_, _, rfl, by decide, rfl⟩
theorem encac2 : Statement .encac2 := ⟨_, _, rfl, by decide, rfl⟩
theorem putb (n : BitVec 5) (v : BitVec 16) : Statement (.putb n v) :=
  ⟨_, _, rfl, (BitVec.getLsbD_append ..).trans ((BitVec.getLsbD_append (x := 0x40#8 ++ 0#3) ..).trans (by simp [Instr.isHost])), rfl⟩
theorem fin : Statement .fin := ⟨_, _, rfl, by decide, rfl⟩
theorem halt : Statement .halt := ⟨_, _, rfl, by decide, rfl⟩
theorem trap (e : BitVec 4) : Statement (.trap e) := ⟨_, _, rfl, (BitVec.getLsbD_append ..).trans (by simp [Instr.isHost]), rfl⟩
theorem hwr8 (addr : Word) (data : Byte) : Statement (.hwr8 addr data) := ⟨_, _, rfl, rfl, rfl⟩
theorem hwr32 (addr : Word) (data : Word) : Statement (.hwr32 addr data) := ⟨_, _, rfl, rfl, rfl⟩
theorem hrd8 (addr : Word) (seen : Byte) : Statement (.hrd8 addr seen) := ⟨_, _, rfl, rfl, rfl⟩
theorem hrd32 (addr : Word) (seen : Word) : Statement (.hrd32 addr seen) := ⟨_, _, rfl, rfl, rfl⟩

end Sys2Proof.Laws.FormatLength
end

