-- ==== Sys2Proof/Laws/Step.lean ====
section
/-! SUPPORT. What a step can do, said once, and what a run of steps is. -/

namespace Sys2Proof.Laws

open Sys2Proof Sys2Proof.Machine

/-- A step that answers a next state idles, takes a reset, or performs one operation. -/
theorem step_cases {s t : State} (h : step s = .next t) :
    (nextActivity s = .idle ∧ t = advance s.env.listing s) ∨
    (nextActivity s = .reset ∧ t = assertReset (advance s.env.listing s)) ∨
    (∃ i rest, nextActivity s = .op i rest ∧ exec i (advance rest s) = .next t) := by
  unfold step at h
  split at h
  · rename_i ha
    exact .inl ⟨ha, (Host.Outcome.next.inj h).symm⟩
  · rename_i ha
    exact .inr (.inl ⟨ha, (Host.Outcome.next.inj h).symm⟩)
  · rename_i i rest ha
    exact .inr (.inr ⟨i, rest, ha, h⟩)
  · cases h
  · cases h

/-- Where an operation comes from: the core's schedule, or the head of the listing. -/
theorem nextActivity_op {s : State} {i : Instr} {rest : List Word} (h : nextActivity s = .op i rest) :
    (currentTurn s = .core ∧ scheduledOp s.hw.seq = some i ∧ rest = s.env.listing ∧
      ¬(s.hw.seq.ph = .csc ∧ 2 ^ 16 ≤ s.hw.seq.col.toNat)) ∨
    (currentTurn s = .host ∧ decode s.env.listing = .ok (i, rest)) := by
  unfold nextActivity at h
  split at h
  · rename_i hc
    unfold coreActivity at h
    split at h
    · cases h
    · split at h
      · cases h
      · cases h
        exact .inl ⟨hc, by assumption, rfl, by assumption⟩
  · rename_i hc
    unfold listingActivity at h
    split at h
    · cases h
    · rename_i w ws hl
      split at h
      · rename_i hd
        cases h
        exact .inr ⟨hc, by rw [hl]; exact hd⟩
      · cases h
  · cases h

theorem runSteps_zero (s : State) : runSteps 0 s = .next s := rfl

theorem runSteps_succ {n : Nat} {s t u : State} (h : step s = .next t) (hr : runSteps n t = .next u) :
    runSteps (n + 1) s = .next u := by
  simp only [runSteps, h, hr]

theorem runSteps_add {m n : Nat} : ∀ {s t : State}, runSteps m s = .next t → runSteps (m + n) s = runSteps n t := by
  induction m with
  | zero => intro s t h; cases h; simp
  | succ m ih =>
    intro s t h
    rw [Nat.succ_add]
    simp only [runSteps] at h ⊢
    split at h
    · exact ih h
    · cases h
    · cases h

/-- A predicate that every step keeps holds after any number of steps. -/
theorem runSteps_keeps {P : State → Prop} (hP : ∀ s t, P s → step s = .next t → P t) {n : Nat} :
    ∀ {s t : State}, P s → runSteps n s = .next t → P t := by
  induction n with
  | zero => intro s t hs h; cases h; exact hs
  | succ n ih =>
    intro s t hs h
    unfold runSteps at h
    split at h
    · rename_i u hu
      exact ih (hP s u hs hu) h
    · cases h
    · cases h

end Sys2Proof.Laws
end

