-- ==== Sys2Proof/Tests/Slice0.lean ====
section
/-! SUPPORT. Tests: ill-formed terms, words written out from the spec, one step on a small state for each operation with the
expected result taken from 95_test_vectors.md, and for every obligation with hypotheses a state that meets them. -/

namespace Sys2Proof.Tests

open Sys2Proof Sys2Proof.Machine Sys2Proof.Claims

set_option maxRecDepth 20000

/-! ## States -/

/-- The reset state with other hardware. -/
def withHw (h : Hardware) : State := { State.reset with hw := h }

/-- A memory that holds the bytes of the list from index 0 on. -/
def memoryFrom (bytes : List Byte) : Memory := (bytes.mapIdx fun i b => (i, b)).filter fun c => c.2 ≠ 0

/-- A field of the hardware after an outcome, if it is a next state. -/
def after {α : Type} (o : Host.Outcome State Fault Refusal) (f : State → α) : Option α :=
  match o with
  | .next t => some (f t)
  | .fault _ => none
  | .refused _ => none

/-- The next state of an outcome, the given state otherwise. -/
def orSame (s : State) (o : Host.Outcome State Fault Refusal) : State :=
  match o with
  | .next t => t
  | .fault _ => s
  | .refused _ => s

/-- Launched and checked: `WIDTH = 8`, all steps 1, pixels all zero. -/
def ready : Hardware :=
  { Hardware.reset with
    width := 8, pixlen := 256, qllen := 64, qclen := 64
    ql := memoryFrom (List.replicate 64 1), qc := memoryFrom (List.replicate 64 1) }

/-- As a `START` leaves it. -/
def launchedHw (h : Hardware) : Hardware := { h with status := statusBusy, seq := { h.seq with ph := .chk } }

/-- In the middle of the first macroblock column. -/
def coding : Hardware :=
  { ready with status := statusBusy, seq := { ph := .encdc0, col := 0 }, acc := 22, cnt := 5 }

/-! ## Ill-formed terms, one for each check -/

theorem test_wf_csc_column : (Instr.csc 4).wellFormed = false ∧ (Instr.csc 65528).wellFormed = true := by decide
theorem test_wf_putb_count : (Instr.putb 17 0).wellFormed = false ∧ (Instr.putb 16 0xFFFF).wellFormed = true := by decide
theorem test_wf_putb_value : (Instr.putb 2 7).wellFormed = false ∧ (Instr.putb 0 1).wellFormed = false ∧
    (Instr.putb 2 3).wellFormed = true := by decide
theorem test_wf_trap_code : (Instr.trap 0).wellFormed = false ∧ (Instr.trap 4).wellFormed = false ∧
    (Instr.trap 3).wellFormed = true := by decide

/-! ## Words (30 R61, 95 V8) -/

theorem test_decode_chk : decodeTableWord 32 0x10000000 = some .chk := by decide
theorem test_decode_init : decodeTableWord 32 0x14000000 = some .init := by decide
theorem test_decode_csc : decodeTableWord 32 0x18000008 = some (.csc 8) ∧ decodeTableWord 32 0x1800FFF8 = some (.csc 65528) := by
  decide
theorem test_decode_dctr : decodeTableWord 32 0x20000000 = some .dctr0 ∧ decodeTableWord 32 0x21000000 = some .dctr1 ∧
    decodeTableWord 32 0x22000000 = some .dctr2 := by decide
theorem test_decode_dctc : decodeTableWord 32 0x24000000 = some .dctc0 ∧ decodeTableWord 32 0x25000000 = some .dctc1 ∧
    decodeTableWord 32 0x26000000 = some .dctc2 := by decide
theorem test_decode_qnt : decodeTableWord 32 0x28000000 = some .qnt0 ∧ decodeTableWord 32 0x29000000 = some .qnt1 ∧
    decodeTableWord 32 0x2A000000 = some .qnt2 := by decide
theorem test_decode_encdc : decodeTableWord 32 0x30000000 = some .encdc0 ∧ decodeTableWord 32 0x31000000 = some .encdc1 ∧
    decodeTableWord 32 0x32000000 = some .encdc2 := by decide
theorem test_decode_encac : decodeTableWord 32 0x34000000 = some .encac0 ∧ decodeTableWord 32 0x35000000 = some .encac1 ∧
    decodeTableWord 32 0x36000000 = some .encac2 := by decide
theorem test_decode_putb : decodeTableWord 32 0x400901FE = some (.putb 9 0x1FE) ∧
    decodeTableWord 32 0x4010FFFF = some (.putb 16 0xFFFF) ∧ decodeTableWord 32 0x40000000 = some (.putb 0 0) := by decide
theorem test_decode_fin_halt : decodeTableWord 32 0x44000000 = some .fin ∧ decodeTableWord 32 0x48000000 = some .halt := by
  decide
theorem test_decode_trap : decodeTableWord 32 0x4C000001 = some (.trap 1) ∧ decodeTableWord 32 0x4C000003 = some (.trap 3) := by
  decide
theorem test_decode_hwr : decode [0x81000000, 0x00000008, 0x00000008] = .ok (.hwr32 8 8, []) ∧
    decode [0x80000000, 0x00000100, 0x00000010] = .ok (.hwr8 0x100 16, []) := ⟨rfl, rfl⟩
theorem test_decode_hrd : decode [0x85000000, 0x00000004, 0x00000000] = .ok (.hrd32 4 0, []) ∧
    decode [0x84000000, 0x01000000, 0x00000000] = .ok (.hrd8 0x1000000 0, []) := ⟨rfl, rfl⟩

/-- The words that 95 V8 lists as decoding to none. -/
theorem test_decode_reserved :
    ([0x00000000, 0x23000000, 0x27000000, 0x2B000000, 0x33000000, 0x37000000, 0x18000004, 0x18010000, 0x10000001,
      0x40110000, 0x40020007, 0x40200000, 0x4C000000, 0x4C000004].all fun w => decodeTableWord 32 w == none) = true ∧
    ([0x82000000, 0x83000000, 0x86000000, 0x80000001, 0x00000100_00000100_80000000].all fun w =>
      decodeTableWord 96 w == none) = true := by decide

/-- `PUTB 0x1FF, 4` is recorded as `PUTB 0xF, 4` (44 R121, R128). -/
theorem test_encode_putb : encode (.putb 4 0x1FF) = [0x4004000F] := by decide

/-- Too few words are no operation of Format H (30 R60). -/
theorem test_decode_truncated : decode [0x85000000, 4] = .error .truncated ∧ decode [] = .error .truncated := ⟨rfl, rfl⟩

/-! ## The sequencer's operations (95 V7b, V7c) -/

/-- Table lengths wrong and pixel length wrong: error 1. -/
theorem test_chk_table_first : after (exec .chk (withHw { launchedHw ready with qllen := 63, pixlen := 255 }))
    (fun t => (statusWord t.hw.status, t.hw.seq.ph)) = some (0x14, .idle) := by decide
theorem test_chk_pixels : after (exec .chk (withHw { launchedHw ready with pixlen := 257 }))
    (fun t => statusWord t.hw.status) = some 0x24 ∧
    after (exec .chk (withHw (launchedHw ready))) (fun t => t.hw.seq.ph) = some .init := by decide
theorem test_init : after (exec .init (withHw { coding with pred := ⟨1, 2, 3⟩, seq := ⟨.init, 9⟩ }))
    (fun t => (t.hw.pred, t.hw.acc, t.hw.cnt, t.hw.seq)) = some (⟨0, 0, 0⟩, 0, 0, ⟨.csc, 0⟩) := by decide
theorem test_init_width_zero : after (exec .init (withHw { coding with width := 0 })) (fun t => t.hw.seq) =
    some ⟨.fin, 0⟩ := by decide
theorem test_halt : after (exec .halt (withHw { coding with outlen := 9 }))
    (fun t => (statusWord t.hw.status, t.hw.outlen, t.hw.seq.ph)) = some (2, 9, .idle) := by decide
theorem test_trap : after (exec (.trap 3) (withHw { coding with outlen := 37 }))
    (fun t => (statusWord t.hw.status, t.hw.outlen, t.hw.seq.ph, t.hw.acc)) = some (0x34, 0, .idle, 22) := by decide

/-! ## The datapath (95 V1 to V3) -/

/-- V1b and V1c: `WIDTH = 10`, pixel (7, 9) starts at byte 316 and is what `CSC 8` reads for row 7, column 7. V1a: (12, 200, 99). -/
theorem test_csc_clamp : after (exec (.csc 8) (withHw { ready with width := 10, pix := [(316, 12), (317, 200), (318, 99), (319, 7)] }))
    (fun t => (blockAt t.hw.sb.y 7 7, blockAt t.hw.sb.cb 7 1, blockAt t.hw.sb.cr 7 7)) =
    some (.exact (4274 / 1000), .exact (-18777632 / 1000000), .exact (-85787488 / 1000000)) := by decide +kernel
/-- V1a: black is the minimum of Y. -/
theorem test_csc_black : after (exec (.csc 0) (withHw ready)) (fun t => (blockAt t.hw.sb.y 3 5, blockAt t.hw.sb.cr 3 5, t.hw.seq)) =
    some (.exact (-128), .exact 0, ⟨.dctr0, 0⟩) := by decide +kernel

/-- A record whose carrier is `Fin 3`: bytes modulo 3, and arithmetic modulo 3. -/
def moduloThree : ArithOps (Fin 3) :=
  { lit := fun q => Fin.ofNat 3 (q.num.toNat), add := fun x y => x + y, sub := fun x y => x - y, mul := fun x y => x * y
    const := fun _ => 1, roundDiv := fun x step => x.val / step }

/-- Under that record `Y` of the pixel (12, 200, 99) is `299*0 + 587*2 + 57*0 - 128 = 1 - 2 = 2` modulo 3. -/
theorem test_csc_other_arithmetic : after (exec (.csc 0) { withHw { ready with pix := [(0, 12), (1, 200), (2, 99)] } with
      cfg := { stdConfig with arith := .finite (tablesOf moduloThree) } }) (fun t => blockAt t.hw.sb.y 0 0) =
    some (.pattern 2) := by decide +kernel

/-- The first and the last literal, and the ends of the steps. -/
theorem witness_EveryFiniteRecordIsAnInstance : (0 : Rat) ∈ literals ∧ (81312 / 1000000 : Rat) ∈ literals ∧ 0 < 256 ∧ 255 < 256 := by
  decide +kernel

/-- A block with one row or column given and zeros elsewhere. -/
def rowBlock (r : Nat) (xs : List Rat) : Block Sample := 
  Vector.ofFn fun i => .exact (if i.val / 8 = r then xs.getD (i.val % 8) 0 else 0)
def colBlock (j : Nat) (xs : List Rat) : Block Sample := 
  Vector.ofFn fun i => .exact (if i.val % 8 = j then xs.getD (i.val / 8) 0 else 0)
def zeroBlock : Block Sample := Vector.replicate 64 (.exact 0)

/-- V2a, last row: the row (52, 55, 61, 66, 70, 61, 64, 73). -/
theorem test_dctr : after (exec .dctr1 (withHw { ready with sb := ⟨zeroBlock, rowBlock 2 [52, 55, 61, 66, 70, 61, 64, 73], zeroBlock⟩ }))
    (fun t => (blockAt t.hw.sb.cb 2 0, blockAt t.hw.sb.cb 2 3, blockAt t.hw.sb.cb 2 6, blockAt t.hw.sb.cb 1 0)) =
    some (.exact (190571781124 / 2 ^ 30), .exact (-7238505966 / 2 ^ 30), .exact (-771955492 / 2 ^ 30), .exact 0) := by decide +kernel
/-- V2a: a unit at the bottom of column 3 gives the constants, the odd ones negated. -/
theorem test_dctc : after (exec .dctc2 (withHw { ready with sb := ⟨zeroBlock, zeroBlock, colBlock 3 [0, 0, 0, 0, 0, 0, 0, 1]⟩ }))
    (fun t => (blockAt t.hw.sb.cr 1 3, blockAt t.hw.sb.cr 6 3, blockAt t.hw.sb.cr 1 2, t.hw.seq.ph)) =
    some (.exact (-526555088 / 2 ^ 30), .exact (205451603 / 2 ^ 30), .exact 0, .qnt2) := by decide +kernel

/-- V3: -414.04 by 16 is -26, 2.5 is 3, -0.49 is 0; components 1 and 2 read `QC`. -/
theorem test_qnt_values : after (exec .qnt0 (withHw { ready with
      sb := ⟨rowBlock 0 [-41404 / 100, 5 / 2, -49 / 100, -5 / 2], zeroBlock, zeroBlock⟩, ql := writeByte ready.ql 0 16 }))
    (fun t => (t.hw.cf.y[0], t.hw.cf.y[1], t.hw.cf.y[2], t.hw.cf.y[3])) = some (BitVec.ofInt 16 (-26), 3, 0, BitVec.ofInt 16 (-3)) := by
  decide +kernel
theorem test_qnt_table : after (exec .qnt2 (withHw { ready with
      sb := ⟨zeroBlock, zeroBlock, rowBlock 0 [1020]⟩, qc := writeByte ready.qc 0 8 }))
    (fun t => (t.hw.cf.cr[0], t.hw.seq.ph)) = some (128, .encdc0) := by decide +kernel

/-! ## The entropy coder (95 V6) and the writer (95 V5) -/

/-- A coefficient block with one entry. -/
def unitCoef (i : Nat) (v : Int) : Block (BitVec 16) := Vector.ofFn fun k => if k.val = i then BitVec.ofInt 16 v else 0
def zeroCoef : Block (BitVec 16) := Vector.replicate 64 0

/-- E2: `PRED = 3`, coefficient 5: bits `011` `10`. -/
theorem test_encdc : after (exec .encdc0 (withHw { ready with cf := ⟨unitCoef 0 5, zeroCoef, zeroCoef⟩, pred := ⟨3, 0, 0⟩ }))
    (fun t => (t.hw.acc, t.hw.cnt, t.hw.pred, t.hw.seq.ph)) = some (14, 5, ⟨5, 0, 0⟩, .encac0) := by decide +kernel
/-- E7, the DC part: chroma code `111111110` and extra `001100001`; the byte FF is stuffed. -/
theorem test_encdc_stuffed : after (exec .encdc2 (withHw { ready with cf := ⟨zeroCoef, zeroCoef, unitCoef 0 (-414)⟩ }))
    (fun t => (outBytes t.hw, t.hw.acc, t.hw.cnt)) = some ([0xFF, 0x00, 0x18], 1, 2) := by decide +kernel
/-- E3, after the two DC bits `00`: nineteen zeros and a 1 at scan position 20, natural index 40. -/
theorem test_encac_zrl : after (exec .encac0 (withHw { ready with cf := ⟨unitCoef 40 1, zeroCoef, zeroCoef⟩, cnt := 2 }))
    (fun t => (outBytes t.hw, t.hw.cnt, t.hw.last, t.hw.run, t.hw.seq.ph)) = some ([0x3F, 0xCF, 0x5A], 0, 20, 0, .encdc1) := by
  decide +kernel
/-- E10 under `FAULT`: the missing symbol 0x31 ends the run with error 3. -/
theorem test_encac_miss : after (exec .encac0
      { withHw { ready with cf := ⟨unitCoef 9 1, zeroCoef, zeroCoef⟩, cnt := 2 } with
        cfg := { stdConfig with missPolicy := .fault, huff := { huffStd with acLuma := acLumaStd.take 0x30 } } })
    (fun t => (statusWord t.hw.status, t.hw.outlen, t.hw.seq.ph)) = some (0x34, 0, .idle) := by decide +kernel

/-- V5, the `CNT = 7` corner. -/
theorem test_putb : after (exec (.putb 16 0xFFFF) (withHw { ready with acc := 0x55, cnt := 7 }))
    (fun t => (outBytes t.hw, t.hw.acc, t.hw.cnt)) = some ([0xAB, 0xFF, 0x00], 0x7F, 7) := by decide
/-- W4: only the low 4 bits are used. -/
theorem test_putb_low_bits : after (exec (.putb 4 0x1FF) (withHw ready)) (fun t => (t.hw.outlen, t.hw.acc, t.hw.cnt)) =
    some (0, 15, 4) := by decide
/-- W5: `10110` flushes to B0. -/
theorem test_fin : after (exec .fin (withHw { ready with acc := 22, cnt := 5 })) (fun t => (outBytes t.hw, t.hw.acc, t.hw.cnt, t.hw.seq.ph)) =
    some ([0xB0], 0, 0, .halt) := by decide
/-- V5: seven ones flush to FE, never to FF. -/
theorem test_fin_ones : after (exec .fin (withHw { ready with acc := 0x7F, cnt := 7 })) (fun t => outBytes t.hw) = some [0xFE] := by
  decide

/-! ## The host's operations (95 V7a) -/

/-- H3: bits 31:16 of `WIDTH` are reserved. -/
theorem test_hwr32_width : after (exec (.hwr32 0x08 0x12345678) (withHw ready)) (fun t => t.hw.width) = some 0x5678 := by decide
/-- H8: with both bits set `START` wins. -/
theorem test_hwr32_start : after (exec (.hwr32 0x00 3) (withHw { ready with status := statusDone, outlen := 9 }))
    (fun t => (statusWord t.hw.status, t.hw.outlen, t.hw.seq.ph)) = some (1, 0, .chk) := by decide
/-- H11, H6. -/
theorem test_hrd32 : after (exec (.hrd32 0x04 0) (withHw coding)) (fun t => t.env.resp) = some (.word 1) ∧
    after (exec (.hrd32 0x00 0) (withHw ready)) (fun t => t.env.resp) = some (.word 0) := by decide
/-- H18: outside the registers and misaligned. -/
theorem test_hrd32_bus_error : after (exec (.hrd32 0x1C 0) (withHw ready)) (fun t => t.env.resp) = some .error ∧
    after (exec (.hrd32 0x02 0) (withHw ready)) (fun t => t.env.resp) = some .error := by decide
/-- H16, H14: the last bytes of `PIX` and of `QL`. -/
theorem test_hwr8 : after (exec (.hwr8 0x3FFFFF 9) (withHw ready)) (fun t => readByte t.hw.pix 2097151) = some 9 ∧
    after (exec (.hwr8 0x13F 0xAB) (withHw ready)) (fun t => (readByte t.hw.ql 63, readByte t.hw.qc 0)) = some (0xAB, 1) := by
  decide
/-- H10, H17: ignored while busy; `OUT` is read-only. -/
theorem test_hwr8_ignored : after (exec (.hwr8 0x100 7) (withHw coding)) (fun t => (t.hw, t.env.resp)) = some (coding, .written) ∧
    after (exec (.hwr8 0x1000000 5) (withHw ready)) (fun t => (t.hw, t.env.resp)) = some (ready, .error) := by decide +kernel
/-- H13: the bytes of P1's output. -/
theorem test_hrd8 : after (exec (.hrd8 0x1000000 0) (withHw { ready with status := statusDone, outlen := 2, out := [(0, 0x28)] }))
    (fun t => t.env.resp) = some (.byte 0x28) ∧
    after (exec (.hrd8 0x1000001 0) (withHw { ready with status := statusDone, outlen := 2, out := [(0, 0x28)] }))
    (fun t => t.env.resp) = some (.byte 0) := by decide
/-- H18. -/
theorem test_hrd8_bus_error : after (exec (.hrd8 0xFFFFFF 0) (withHw ready)) (fun t => t.env.resp) = some .error ∧
    after (exec (.hrd8 0x04 0) (withHw ready)) (fun t => t.env.resp) = some .error := by decide

/-! ## The step -/

/-- The word placed for the next step is what it runs. -/
theorem test_fetch_word : after (step (State.reset.withFetchWord 96 0x00000040_00000010_81000000)) (fun t => (t.hw.qllen, t.env.listing)) =
    some (64, []) := by decide
/-- A launched core moves without a turn, and the listing waits. -/
theorem test_step_core : after (step { withHw (launchedHw ready) with env := { State.reset.env with listing := [0x48000000] } })
    (fun t => (t.hw.seq.ph, t.env.listing)) = some (.init, [0x48000000]) := by decide

/-! ## Witnesses: for every obligation with hypotheses, states and operands that meet them, at the ends of their ranges -/

/-- The host's turn with this listing. -/
def listed (ws : List Word) : State := { State.reset with env := { State.reset.env with listing := ws } }

/-- `coding` as a state, and with `OUT` so full that just `n` bytes of room are left. -/
def room (n : Nat) (h : Hardware) : State := withHw { h with outlen := BitVec.ofNat 32 (2 ^ 24 - n) }

theorem witness_DecodeOfEncode : (Instr.putb 16 0xFFFF).wellFormed = true ∧ (Instr.csc 65528).wellFormed = true ∧
    (Instr.trap 3).wellFormed = true ∧ (Instr.hrd8 0xFFFFFFFF 0xFF).wellFormed = true ∧ (16 : BitVec 5).toNat ≤ 16 := by decide

theorem witness_EncodeOfDecode : decode [0x4C000003, 5] = .ok (.trap 3, [5]) := rfl

theorem witness_ReservedWordsRefused :
    (opOf 0x23000000).toNat ∉ assignedOps ∧ (opOf 0x86000000).toNat ∉ assignedOps ∧
    ((opOf 0x80000001).toNat ∈ plainOps ∧ immOf 0x80000001 ≠ 0) ∧
    ((opOf 0x18010000).toNat = 0x18 ∧ (0x18010000 : Word).extractLsb' 16 8 ≠ 0) ∧
    ((opOf 0x18000004).toNat = 0x18 ∧ ((0x18000004 : Word).extractLsb' 0 16).toNat % 8 ≠ 0) ∧
    ((opOf 0x40110000).toNat = 0x40 ∧ 16 < ((0x40110000 : Word).extractLsb' 16 5).toNat) ∧
    ((opOf 0x40020004).toNat = 0x40 ∧
      2 ^ ((0x40020004 : Word).extractLsb' 16 5).toNat ≤ ((0x40020004 : Word).extractLsb' 0 16).toNat) ∧
    ((opOf 0x40200000).toNat = 0x40 ∧ (0x40200000 : Word).extractLsb' 21 3 ≠ 0) ∧
    ((opOf 0x4C000000).toNat = 0x4C ∧ ((0x4C000000 : Word).extractLsb' 0 4).toNat = 0) ∧
    ((opOf 0x4C000004).toNat = 0x4C ∧ 3 < ((0x4C000004 : Word).extractLsb' 0 4).toNat) ∧
    ((opOf 0x4C000011).toNat = 0x4C ∧ (0x4C000011 : Word).extractLsb' 4 20 ≠ 0) ∧
    ((opOf 0x84000000).toNat = 0x84 ∧ (0x00000100 : Word).extractLsb' 8 24 ≠ 0) := by decide

theorem witness_StepRunsListedOperation :
    (hostMoves (listed [0x48000000, 7]) ∧ decode (listed [0x48000000, 7]).env.listing = .ok (.halt, [7])) ∧
    (hostMoves (listed []) ∧ (listed []).env.listing = []) ∧
    (hostMoves (listed [0x23000000]) ∧ (listed [0x23000000]).env.listing ≠ [] ∧
      decode (listed [0x23000000]).env.listing = .error (.reservedOp 0x23)) :=
  ⟨⟨.inr ⟨rfl, rfl⟩, rfl⟩, ⟨.inr ⟨rfl, rfl⟩, rfl⟩, .inr ⟨rfl, rfl⟩, by decide, rfl⟩

theorem witness_StepRunsScheduledOperation :
    (coreMoves (withHw { coding with seq := ⟨.csc, 65528⟩ }) ∧ operationAt ⟨.csc, 65528⟩ = some (.csc 65528) ∧
      (65528 : BitVec 17).toNat < 2 ^ 16) ∧
    (coreMoves { State.reset with env := { State.reset.env with turns := [.core] } } ∧ State.reset.hw.seq.ph = .idle) ∧
    (coreMoves (withHw { coding with seq := ⟨.csc, 65536⟩ }) ∧ 2 ^ 16 ≤ (65536 : BitVec 17).toNat) :=
  ⟨⟨.inr ⟨rfl, by decide⟩, rfl, by decide⟩, ⟨.inl rfl, rfl⟩, .inr ⟨rfl, by decide⟩, by decide⟩

theorem witness_NextPhaseOfSchedule :
    (∃ t, coreMoves (withHw { coding with seq := ⟨.encac2, 65528⟩ }) ∧
      step (withHw { coding with seq := ⟨.encac2, 65528⟩ }) = .next t ∧ t.hw.seq = ⟨.fin, 65536⟩) ∧
    (∃ t, coreMoves (withHw (launchedHw Hardware.reset)) ∧ step (withHw (launchedHw Hardware.reset)) = .next t ∧
      t.hw.status.err = true) ∧
    (∃ t, coreMoves (withHw { coding with seq := ⟨.halt, 8⟩ }) ∧ step (withHw { coding with seq := ⟨.halt, 8⟩ }) = .next t) :=
  ⟨⟨_, .inr ⟨rfl, by decide⟩, rfl, by decide +kernel⟩, ⟨_, .inr ⟨rfl, by decide⟩, rfl, rfl⟩, ⟨_, .inr ⟨rfl, by decide⟩, rfl⟩⟩

theorem witness_ResetInput : ({ withHw coding with env := { State.reset.env with turns := [.reset] } } : State).env.turns.head? =
    some .reset := rfl

theorem witness_TrapOutcome : 1 ≤ (1 : BitVec 4).toNat ∧ (1 : BitVec 4).toNat ≤ 3 ∧ 1 ≤ (3 : BitVec 4).toNat ∧
    (3 : BitVec 4).toNat ≤ 3 := by decide

theorem witness_OperandsWithoutMeaningStop : 16 < (17 : BitVec 5).toNat ∧ (4 : BitVec 16).toNat % 8 ≠ 0 ∧
    (0 : BitVec 4).toNat = 0 ∧ 3 < (4 : BitVec 4).toNat := by decide

theorem witness_CscResult : (65528 : BitVec 16).toNat % 8 = 0 ∧ (withHw ready).cfg.arith = .q30 ∧ (withHw ready).hw.width ≠ 0 := by
  decide

/-- Two states with different alpha bytes, accumulators and columns. -/
theorem witness_CscIgnoresAlphaAndState :
    (withHw { ready with pix := [(0, 9), (3, 1)] }).hw.width = (withHw { coding with pix := [(0, 9), (3, 2)] }).hw.width ∧
    (withHw ready).hw.width ≠ 0 ∧ (0 : BitVec 16).toNat % 8 = 0 ∧
    ∀ a, a % 4 ≠ 3 → readByte [(0, 9), (3, 1)] a = readByte [(0, 9), (3, 2)] a := by
  refine ⟨rfl, by decide, rfl, fun a ha => ?_⟩
  have h : a ≠ 3 := by rintro rfl; exact ha rfl
  simp [readByte, h]

/-- The hypotheses on the arithmetic hold of `Q30` with zero. -/
theorem witness_FlatBlockTransform : (∀ y : ℚ, q30Ops.sub y y = 0) ∧ (∀ k, q30Ops.mul 0 (q30Ops.const k) = 0) ∧
    q30Ops.add 0 0 = 0 ∧ q30Ops.sub 0 0 = 0 ∧ (0 : Fin 8) ≠ 1 :=
  ⟨fun y => sub_self y, fun _ => zero_mul _, by decide +kernel, by decide +kernel, by decide⟩

theorem witness_RoundingRule : (0 : ℚ) ≤ 1 / 2 ∧ (-1 / 2 : ℚ) < 0 ∧ 0 < 1 := by decide +kernel

/-- A step of 1 and the two ends of a 16-bit coefficient. -/
theorem witness_QntResult :
    0 < (readByte (withHw ready).hw.ql 0).toNat ∧ (arithOps .q30).roundDiv (.exact (-32768)) 1 = -(2 ^ 15) ∧
    (arithOps .q30).roundDiv (.exact 32767) 1 = 2 ^ 15 - 1 := by decide +kernel

theorem witness_tablesPositive : tablesPositive (List.replicate 64 1) (List.replicate 64 255) := by
  refine ⟨by simp, by simp, ?_, ?_⟩ <;> (intro b hb; rw [List.mem_replicate] at hb; rw [hb.2]; decide)

theorem witness_QuantizedRanges : tablesPositive (List.replicate 64 1) (List.replicate 64 1) := by
  refine ⟨by simp, by simp, ?_, ?_⟩ <;> (intro b hb; rw [List.mem_replicate] at hb; rw [hb.2]; decide)

/-- A mid-grey strip of 8 pixels has the samples 0 under the reference meaning (41 R97). -/
theorem grey_samples : stripSamples realOps (List.replicate 256 128) 8 0 .cb = Vector.replicate 64 0 := by
  ext i hi
  have h : ∀ k ≤ 2, (List.replicate 256 (128 : Byte)).getD (pixelAddress 8 (i / 8) (stripColumn 8 0 (i % 8)) + k) 0 = 128 := by
    intro k hk
    have hlt : pixelAddress 8 (i / 8) (stripColumn 8 0 (i % 8)) + k < 256 := by simp only [pixelAddress, stripColumn]; omega
    simp only [List.getD_eq_getElem?_getD, List.getElem?_replicate, if_pos hlt, Option.getD_some]
  simp only [stripSamples, Vector.getElem_ofFn, Vector.getElem_replicate, h 1 (by omega), h 2 (by omega)]
  have h0 := h 0 (by omega)
  rw [Nat.add_zero] at h0
  rw [h0]
  simp [convert, realOps]
  norm_num

theorem isStrip_grey : isStrip (List.replicate 256 128) 8 0 := ⟨by omega, by simp, by omega, by omega⟩

/-- The reference arithmetic is admissible with bound 0 and rounds exactly; a mid-grey strip has the quotient 0 at an index, which is
no half-integer, so the first clause applies, and 0 is below 1, so the second does. -/
theorem witness_QThirtyIsAdmissible : arithClose realOps id 0 ∧ roundsExactly realOps id ∧
    isStrip (List.replicate 256 128) 8 0 ∧ tablesPositive (List.replicate 64 1) (List.replicate 64 255) ∧
    (∀ k : ℤ, 0 / (255 : ℝ) < |(columnPassOf realOps (List.replicate 256 128) 8 0 .cb)[(9 : Fin 64)] / 255 - (k + 1 / 2)|) ∧ (0 : ℝ) < 1 := by
  refine ⟨fun pixels width col c i _ => by simp, fun _ _ _ => rfl, isStrip_grey, witness_tablesPositive, fun k => ?_, by norm_num⟩
  have h : (columnPassOf realOps (List.replicate 256 128) 8 0 .cb)[(9 : Fin 64)] = 0 := by
    rw [columnPassOf, grey_samples]
    simp [transform, columnTransform, rowTransform, dct8, octGet, octOf, columnOf, rowOf, blockAt, realOps]
  rw [h, zero_div, abs_pos]
  intro hk
  have : ((2 * k + 1 : ℤ) : ℝ) = 0 := by push_cast; linarith
  have : (2 * k + 1 : ℤ) = 0 := by exact_mod_cast this
  omega

theorem witness_LookupRule :
    (romOf huffStd .dc .luma)[11]? = some (some ⟨0x1FE, 8⟩) ∧ (romOf huffStd .dc .luma)[12]? = some none ∧
    (romOf huffStd .ac .chroma)[256]? = none := by decide +kernel

theorem witness_ReachableSymbols : tablesPositive (List.replicate 64 1) (List.replicate 64 255) ∧ stdConfig.arith = .q30 ∧
    stdConfig.huff = huffStd ∧ (List.replicate 256 (0 : Byte)).length = 8 * 32 :=
  ⟨witness_tablesPositive, rfl, rfl, by simp⟩

/-- Category 15 and the least room; a valid code, and a miss under `FAULT`. -/
theorem witness_EncdcResult :
    category (((unitCoef 0 32767)[0] : BitVec 16).toInt - (0 : BitVec 16).toInt) < 16 ∧
    (room 20 ready).hw.outlen.toNat + 20 ≤ capacity .out ∧
    lookup stdConfig .dc .luma (some 11) default = some ⟨0x1FE, 8⟩ ∧
    lookup { stdConfig with missPolicy := .fault } .dc .luma (some 15) default = none := by decide +kernel

/-- An all-zero block, a block that ends at scan position 63, and one that misses. -/
theorem witness_EncacResult :
    (∀ k < 64, category (zigzag zeroCoef k) < 16 ∧ category (zigzag (unitCoef 63 (-32767)) k) < 16) ∧
    (room 1270 ready).hw.outlen.toNat + 1270 ≤ capacity .out ∧ (65528 : BitVec 17).toNat + 8 < 2 ^ 17 ∧
    (acPairs stdConfig .luma 0 (acValues fun i => zeroCoef[i].toInt)).isSome = true ∧
    (acPairs stdConfig .luma 0 (acValues fun i => (unitCoef 63 1)[i].toInt)).isSome = true ∧
    (acPairs { stdConfig with missPolicy := .fault } .luma 0 (acValues fun i => (unitCoef 63 32767)[i].toInt)).isSome = false := by
  decide +kernel

theorem witness_CodingCompletes : (room 20 ready).hw.outlen.toNat + 20 ≤ capacity .out ∧
    (room 1270 ready).hw.outlen.toNat + 1270 ≤ capacity .out := by decide

theorem writerOk_coding : writerOk coding := ⟨by decide, by decide⟩

theorem witness_PutbResult : (0 : BitVec 5).toNat ≤ 16 ∧ (16 : BitVec 5).toNat ≤ 16 ∧
    writerOk { coding with acc := 0x7F, cnt := 7 } ∧ Memory.wf coding.out = true ∧
    (room 4 coding).hw.outlen.toNat + 4 ≤ capacity .out := ⟨by decide, by decide, ⟨by decide, by decide⟩, by decide, by decide⟩

theorem witness_FinResult : (ready.cnt = 0) ∧ 0 < coding.cnt.toNat ∧ writerOk coding ∧ Memory.wf coding.out = true ∧
    (room 1 coding).hw.outlen.toNat < capacity .out := ⟨rfl, by decide, writerOk_coding, by decide, by decide⟩

theorem witness_WriterStream : (∀ p ∈ [(0xFFFF, 16), (0, 0), (5, 3)], p.2 ≤ 16) ∧ ready.acc = 0 ∧ ready.cnt = 0 ∧ ready.outlen = 0 ∧
    Memory.wf ready.out = true ∧ 2 * (((pairBits [(0xFFFF, 16), (0, 0), (5, 3)]).length + 7) / 8) ≤ capacity .out := by decide

theorem witness_AccumulatorInvariant : (∃ t, exec (.putb 16 0xFFFF) (withHw coding) = .next t) ∧ writerOk (withHw coding).hw ∧
    (∃ t, exec .init (withHw coding) = .next t) ∧ ∃ t, exec .fin (withHw coding) = .next t :=
  ⟨⟨_, rfl⟩, writerOk_coding, ⟨_, rfl⟩, ⟨_, rfl⟩⟩

theorem witness_StuffingInvariant : Memory.wf [(0, 0xFF)] = true ∧
    stuffed (outBytes { coding with out := [(0, 0xFF)], outlen := 2 }) = true ∧
    ∃ t, exec (.putb 8 0xFF) (withHw { coding with out := [(0, 0xFF)], outlen := 2 }) = .next t := ⟨by decide, by decide, _, rfl⟩

theorem witness_HrdThirtyTwoResult : 0x18 < (0x1C : Word).toNat ∧ (0x02 : Word).toNat % 4 ≠ 0 ∧ (0x18 : Word).toNat % 4 = 0 ∧
    (0x18 : Word).toNat ≤ 0x18 ∧ (withHw ready).hw.status.busy = false := by decide

/-- The first and the last offset of each writable window, the offsets just outside, and the `OUT` window. -/
theorem witness_HwrEightResult :
    (∀ sp, Memory.wf (memoryOf sp (withHw ready).hw) = true) ∧ (withHw ready).hw.status.busy = false ∧
    (windows.all fun w => w.2.1 ≤ w.2.2 && w.2.2 < 2 ^ 32) = true ∧ (withHw coding).hw.status.busy = true ∧
    outsideWindows 0xFF ∧ outsideWindows 0x180 ∧ outsideWindows 0x1FFFFF ∧ outsideWindows 0x400000 ∧ 0x1000000 ≤ (0x1000000 : Word).toNat := by
  refine ⟨fun sp => by cases sp <;> decide, rfl, by decide, rfl, ?_, ?_, ?_, ?_, by decide⟩ <;>
    (unfold outsideWindows; decide)

theorem witness_HrdEightResult :
    (windows.all fun w => w.2.1 ≤ w.2.2 && w.2.2 < 2 ^ 32) = true ∧ (withHw ready).hw.status.busy = false ∧
    (0x1000008 : Word).toNat - 0x1000000 < (withHw { ready with outlen := 9 }).hw.outlen.toNat ∧
    outsideWindows 0xFFFFFF ∧ outsideWindows 0x2000000 := by
  refine ⟨by decide, rfl, by decide, ?_, ?_⟩ <;> (unfold outsideWindows; decide)

/-- A byte of `OUT` beyond `OUTLEN`, read twice at different moments (20 R43). -/
theorem test_hrd8_twice : after (exec (.hrd8 0x1000000 0) (withHw ready)) (fun t => t.env.resp) =
    after (exec (.hrd8 0x1000000 0) { withHw ready with env := { State.reset.env with tick := 7 } }) (fun t => t.env.resp) := rfl

theorem witness_HrdEightResult_twice : (withHw ready).hw.status.busy = false ∧
    ({ withHw ready with env := { State.reset.env with tick := 7 } } : State).hw = (withHw ready).hw := ⟨rfl, rfl⟩

theorem witness_HostCannotDisturbRun : (Instr.hwr32 0 3).isHost = true ∧ (withHw coding).hw.status.busy = true := by decide

theorem witness_CoreKeepsLaunchState : (Instr.csc 0).isHost = false ∧ ∃ t, exec (.csc 0) (withHw coding) = .next t :=
  ⟨rfl, _, rfl⟩

theorem witness_FrameOfOperationsWithoutStores :
    (∃ t, exec .chk (withHw ready) = .next t) ∧ (∃ t, exec .halt (withHw ready) = .next t) ∧
    (∃ t, exec (.trap 1) (withHw ready) = .next t) ∧ (∃ t, exec .init (withHw ready) = .next t) ∧
    (∃ t, exec (.csc 8) (withHw ready) = .next t) ∧ (∃ t, exec (dctrOp .cb) (withHw ready) = .next t) ∧
    (∃ t, exec (dctcOp .cr) (withHw ready) = .next t) ∧ ∃ t, exec (qntOp .y) (withHw ready) = .next t :=
  ⟨⟨_, rfl⟩, ⟨_, rfl⟩, ⟨_, rfl⟩, ⟨_, rfl⟩, ⟨_, rfl⟩, ⟨_, rfl⟩, ⟨_, rfl⟩, _, rfl⟩

theorem witness_FrameOfStoringOperations : Memory.wf (withHw coding).hw.out = true ∧
    (∃ t, exec (.putb 16 0xFFFF) (withHw coding) = .next t) ∧ (∃ t, exec .fin (withHw coding) = .next t) ∧
    (∃ t, exec (encdcOp .y) (withHw coding) = .next t ∧
      (codingEnd (encodeDc stdConfig 0 .y coding)).isSome = true) ∧
    ∃ t, exec (encacOp .cr) (withHw coding) = .next t ∧ (codingEnd (encodeAc stdConfig 0 .cr coding)).isSome = true :=
  ⟨by decide, ⟨_, rfl⟩, ⟨_, rfl⟩, ⟨_, rfl, by decide +kernel⟩, _, rfl, by decide +kernel⟩

/-- After the DC codes of the first component. -/
def codingAc : Hardware := { coding with seq := { ph := .encac0, col := 0 } }

/-- The invariant in the middle of a run. -/
theorem inv_codingAc : Inv (withHw codingAc) where
  hw :=
    { memories := fun sp => by cases sp <;> (unfold memoryOk; decide)
      status := .inr (.inl rfl)
      busy := by decide
      failed := by decide
      starting := by decide
      checked := fun _ => by unfold launchOk; decide
      aligned := by decide
      column := by decide
      finished := by decide
      writer := by decide
      flushed := by decide
      stuffing := by decide
      budget := by decide
      capacity := by decide }
  samples := fun c i => by
    cases c <;> simp [withHw, codingAc, coding, ready, Hardware.reset, State.reset, stdConfig, getComp, carried]
  listing := rfl

theorem witness_InvariantKept : Inv (withHw codingAc) ∧ ∃ t, step (withHw codingAc) = .next t := ⟨inv_codingAc, _, rfl⟩

theorem witness_InvariantSafe : Inv (withHw codingAc) := inv_codingAc

theorem witness_LegalStateKept : legalState (withHw codingAc).hw ∧ ∃ t, step (withHw codingAc) = .next t :=
  ⟨⟨inv_codingAc.hw.memories, inv_codingAc.hw.status⟩, _, rfl⟩

theorem started_ready : started (launchedHw ready) := ⟨rfl, rfl, rfl⟩

theorem stepsNonzero_ready : stepsNonzero (launchedHw ready) := by unfold stepsNonzero; decide

/-- A launched run with nonzero steps, with a host operation and turns beside it; and one with `WIDTH = 0`. -/
theorem witness_RunIsEncodeStrip :
    (started (launchedHw ready) ∧
      undisturbed { withHw (launchedHw ready) with
        env := { State.reset.env with turns := [.host, .core], listing := [0x81000000, 8, 99] } } ∧
      (withHw (launchedHw ready)).cfg.arith = .q30 ∧ Memory.wf (launchedHw ready).out = true ∧ stepsNonzero (launchedHw ready)) ∧
    (started (launchedHw Hardware.reset) ∧ undisturbed (withHw (launchedHw Hardware.reset)) ∧ (launchedHw Hardware.reset).width = 0) :=
  ⟨⟨started_ready, ⟨by decide, by decide⟩, rfl, by decide, stepsNonzero_ready⟩, ⟨rfl, rfl, rfl⟩, ⟨by decide, rfl⟩, rfl⟩

/-- A check that passes and one that fails; `WIDTH = 0`. -/
theorem witness_RunStepCount : launched (withHw (launchedHw ready)) ∧ launchOk (launchedHw ready) ∧
    stdConfig.missPolicy = .placeholder ∧ stepsNonzero (launchedHw ready) ∧ launched (withHw (launchedHw Hardware.reset)) ∧ ¬launchOk (launchedHw Hardware.reset) ∧
    launched (withHw (launchedHw { ready with width := 0, pixlen := 0 })) ∧
    launchOk (launchedHw { ready with width := 0, pixlen := 0 }) :=
  ⟨⟨rfl, rfl, rfl, rfl⟩, by unfold launchOk; decide, rfl, stepsNonzero_ready, ⟨rfl, rfl, rfl, rfl⟩, by unfold launchOk; decide, ⟨rfl, rfl, rfl, rfl⟩,
    by unfold launchOk; decide⟩

theorem witness_OutputLength : stdConfig.arith = .q30 ∧ tablesPositive (List.replicate 64 1) (List.replicate 64 255) ∧
    ∃ bytes, encodeStrip stdConfig [] 0 (List.replicate 64 1) (List.replicate 64 255) = .ok bytes :=
  ⟨rfl, witness_tablesPositive, _, rfl⟩

/-- Two runs from the same launch state with different hidden state; the check fails, so each ends after one step. -/
theorem witness_HiddenStateIsDead :
    ∃ t t', started (launchedHw Hardware.reset) ∧ started (launchedHw { Hardware.reset with acc := 9, cnt := 30, out := [(0, 1)] }) ∧
      sameLaunch (launchedHw Hardware.reset) (launchedHw { Hardware.reset with acc := 9, cnt := 30, out := [(0, 1)] }) ∧
      (launchedHw Hardware.reset).width = 0 ∧ endsAfter 1 (withHw (launchedHw Hardware.reset)) t ∧
      endsAfter 1 (withHw (launchedHw { Hardware.reset with acc := 9, cnt := 30, out := [(0, 1)] })) t' := by
  refine ⟨_, _, ⟨rfl, rfl, rfl⟩, ⟨rfl, rfl, rfl⟩, ⟨rfl, rfl, rfl, rfl, rfl, rfl, rfl⟩, rfl, ⟨rfl, rfl, ?_⟩, ⟨rfl, rfl, ?_⟩⟩ <;>
    (intro m hm u hu; have hm0 : m = 0 := by omega
     subst hm0; rw [← Host.Outcome.next.inj hu]; decide)

theorem witness_ComponentsCommute : (Component.y ≠ .cr) ∧ (∃ t u, exec .dctr0 (withHw ready) = .next t ∧ exec .qnt2 t = .next u) ∧
    ∃ t' u', exec .qnt2 (withHw ready) = .next t' ∧ exec .dctr0 t' = .next u' :=
  ⟨by decide, ⟨_, _, rfl, rfl⟩, _, _, rfl, rfl⟩

end Sys2Proof.Tests
end

section
/-! PROOFS. A finite record of an arithmetic is recovered from its tables (00 R8, log entry 12). -/

namespace Sys2Proof.Laws

open Sys2Proof Sys2Proof.Machine

/-! ## Operations on registers that hold carrier values -/

section

variable {α : Type} {put : α → Sample} {get : Sample → α} (A : ArithOps α)

theorem onRegisters_add (h : ∀ x, get (put x) = x) (x y : α) :
    (onRegisters put get A).add (put x) (put y) = put (A.add x y) := by
  simp [onRegisters, h]

theorem onRegisters_sub (h : ∀ x, get (put x) = x) (x y : α) :
    (onRegisters put get A).sub (put x) (put y) = put (A.sub x y) := by
  simp [onRegisters, h]

theorem onRegisters_mul (h : ∀ x, get (put x) = x) (x y : α) :
    (onRegisters put get A).mul (put x) (put y) = put (A.mul x y) := by
  simp [onRegisters, h]

theorem onRegisters_roundDiv (h : ∀ x, get (put x) = x) (x : α) (step : Nat) :
    (onRegisters put get A).roundDiv (put x) step = A.roundDiv x step := by
  simp [onRegisters, h]

end

/-! ## The tables of a record hold its results -/

theorem getD_map_finRange {β : Type} {n : Nat} (f : Fin n → β) (x : Fin n) (d : β) :
    ((List.finRange n).map f).getD x.val d = f x := by
  simp

theorem getD_table {β : Type} {n : Nat} (f : Fin n → Fin n → β) (x y : Fin n) (d : β) :
    (((List.finRange n).map fun x => (List.finRange n).map (f x)).getD x.val []).getD y.val d = f x y := by
  rw [getD_map_finRange, getD_map_finRange]

section

variable {top : Nat} (A : ArithOps (Fin (top + 1)))

theorem tableOps_tablesOf_add (x y : Fin (top + 1)) : (tableOps (tablesOf A)).add x y = A.add x y :=
  getD_table A.add x y 0

theorem tableOps_tablesOf_sub (x y : Fin (top + 1)) : (tableOps (tablesOf A)).sub x y = A.sub x y :=
  getD_table A.sub x y 0

theorem tableOps_tablesOf_mul (x y : Fin (top + 1)) : (tableOps (tablesOf A)).mul x y = A.mul x y :=
  getD_table A.mul x y 0

theorem tableOps_tablesOf_const (k : DctConst) : (tableOps (tablesOf A)).const k = A.const k := by
  cases k <;> rfl

/-- A number that `literals` lists twice has the same entry twice, so the first one found is the record's. -/
theorem tableOps_tablesOf_lit {q : Rat} (hq : q ∈ literals) : (tableOps (tablesOf A)).lit q = A.lit q :=
  congrArg (·.getD 0) (List.lookup_graph A.lit hq)

theorem tableOps_tablesOf_roundDiv (x : Fin (top + 1)) {step : Nat} (hstep : step < 256) :
    (tableOps (tablesOf A)).roundDiv x step = A.roundDiv x step := by
  have hrow : (tablesOf A).quotients.getD x.val [] = (List.range 256).map (A.roundDiv x) :=
    getD_map_finRange _ x []
  change ((tablesOf A).quotients.getD x.val []).getD step 0 = A.roundDiv x step
  rw [hrow]
  simp [hstep]

end

/-- Settles O21: an operation on patterns is the operation of the tables, and a table holds the record's results. -/
theorem everyFiniteRecordIsAnInstance : Obligations.EveryFiniteRecordIsAnInstance := by
  intro top A B p
  have hget : ∀ x : Fin (top + 1), finOf top (p x) = x := finOf_pattern
  refine ⟨fun x y => ⟨?_, ?_, ?_⟩, fun k => ?_, fun q hq => ?_, fun x step hstep => ?_⟩
  · exact (onRegisters_add _ hget x y).trans (congrArg p (tableOps_tablesOf_add A x y))
  · exact (onRegisters_sub _ hget x y).trans (congrArg p (tableOps_tablesOf_sub A x y))
  · exact (onRegisters_mul _ hget x y).trans (congrArg p (tableOps_tablesOf_mul A x y))
  · exact congrArg p (tableOps_tablesOf_const A k)
  · exact congrArg p (tableOps_tablesOf_lit A hq)
  · exact (onRegisters_roundDiv _ hget x step).trans (tableOps_tablesOf_roundDiv A x hstep)

end Sys2Proof.Laws
end

section
/-! PROOFS. The reset state and the reset input (10 R35, 70 R169, R170), and the zig-zag tables (30 R76). -/

namespace Sys2Proof.Laws

open Sys2Proof Sys2Proof.Machine Sys2Proof.Claims

/-- Settles O8: each value is the field of the reset state. -/
theorem resetValues : Obligations.ResetValues := ⟨rfl, rfl, rfl, rfl, rfl, rfl, rfl⟩

/-- With the reset turn first a step asserts the reset input. -/
theorem step_resetTurn {s : State} (h : s.env.turns.head? = some .reset) :
    step s = .next (assertReset (advance s.env.listing s)) := by
  obtain ⟨rest, hr⟩ := List.head?_eq_some_iff.1 h
  simp [step, nextActivity, currentTurn, hr]

/-- A `START` while idle launches a run (45 R134). -/
theorem exec_start {s : State} (hidle : s.hw.status.busy = false) :
    exec (.hwr32 0 1) s = written s (startRun s.hw) := by
  change (if s.hw.status.busy then respond s .written else written s (startRun s.hw)) = _
  rw [hidle]
  rfl

/-- A table length other than 64 fails the launch check with error 1 (45 R137). -/
theorem checkLaunch_of_qllen {h : Hardware} (hlen : h.qllen.toNat ≠ 64) : checkLaunch h = takeTrap 1 h :=
  if_pos (.inl hlen)

/-- Settles O9: the reset input sets the fields of the table, and a table length of 0 fails the check. -/
theorem resetInput : Obligations.ResetInput := by
  intro s hs
  have hidle : (assertReset (advance s.env.listing s)).hw.status.busy = false := by rw [assertReset_hw]; rfl
  have hqllen : (startRun (assertReset (advance s.env.listing s)).hw).qllen.toNat ≠ 64 := by
    rw [assertReset_hw]
    exact (by decide : (0 : BitVec 8).toNat ≠ 64)
  refine ⟨_, step_resetTurn hs, rfl, rfl, rfl, rfl, rfl, rfl, rfl, by simp, _, _, exec_start hidle, rfl, ?_⟩
  simp only [checkLaunch_of_qllen hqllen]
  rfl

/-- Settles O59: the tables are finite, and each of their entries and steps is checked. -/
theorem zigZagInverse : Obligations.ZigZagInverse := ⟨by decide, by decide, by decide, by decide⟩

end Sys2Proof.Laws
end

section
/-! PROOFS. The operations by kind and component: one equation for each, which operation a phase schedules, what an
operation of the host can change, and what a step can do from a listing of host operations. -/

namespace Sys2Proof.Laws

open Sys2Proof Sys2Proof.Machine Sys2Proof.Claims

/-! ## The operations of the core -/

/-- The phase `DCTRc`. -/
def dctrPhase : Component → Phase
  | .y => .dctr0
  | .cb => .dctr1
  | .cr => .dctr2

/-- The phase `ENCDCc`. -/
def encdcPhase : Component → Phase
  | .y => .encdc0
  | .cb => .encdc1
  | .cr => .encdc2

/-- What `ENCAC c` does to `SEQ` after its coding (43 R112, 45 R139). -/
def closeBlock (tick : Nat) : Component → Hardware → Hardware
  | .y => gotoPhase .encdc1
  | .cb => gotoPhase .encdc2
  | .cr => nextMcu tick

/-- The operations of the core, those of one kind in one case. -/
inductive CoreOp : Instr → Prop
  | chk : CoreOp .chk
  | init : CoreOp .init
  | csc (col : BitVec 16) : CoreOp (.csc col)
  | dctr (c : Component) : CoreOp (dctrOp c)
  | dctc (c : Component) : CoreOp (dctcOp c)
  | qnt (c : Component) : CoreOp (qntOp c)
  | encdc (c : Component) : CoreOp (encdcOp c)
  | encac (c : Component) : CoreOp (encacOp c)
  | putb (n : BitVec 5) (v : BitVec 16) : CoreOp (.putb n v)
  | fin : CoreOp .fin
  | halt : CoreOp .halt
  | trap (e : BitVec 4) : CoreOp (.trap e)

theorem coreOp_of_not_isHost {i : Instr} (h : i.isHost = false) : CoreOp i := by
  cases i with
  | chk => exact .chk
  | init => exact .init
  | csc col => exact .csc col
  | dctr0 => exact .dctr .y
  | dctr1 => exact .dctr .cb
  | dctr2 => exact .dctr .cr
  | dctc0 => exact .dctc .y
  | dctc1 => exact .dctc .cb
  | dctc2 => exact .dctc .cr
  | qnt0 => exact .qnt .y
  | qnt1 => exact .qnt .cb
  | qnt2 => exact .qnt .cr
  | encdc0 => exact .encdc .y
  | encdc1 => exact .encdc .cb
  | encdc2 => exact .encdc .cr
  | encac0 => exact .encac .y
  | encac1 => exact .encac .cb
  | encac2 => exact .encac .cr
  | putb n v => exact .putb n v
  | fin => exact .fin
  | halt => exact .halt
  | trap e => exact .trap e
  | hwr8 | hwr32 | hrd8 | hrd32 => cases h

theorem exec_chk (s : State) : exec .chk s = nextHw s (checkLaunch s.hw) := rfl

theorem exec_init (s : State) : exec .init s = nextHw s (initStrip s.hw) := rfl

theorem exec_halt (s : State) : exec .halt s = nextHw s (endRun s.hw) := rfl

theorem exec_fin (s : State) :
    exec .fin s = writerOutcome s ((flush s.env.tick s.hw).map (gotoPhase .halt)) := rfl

theorem exec_dctr (c : Component) (s : State) :
    exec (dctrOp c) s = nextHw s (rowPass (arithOps s.cfg.arith) c (dctcPhase c) s.hw) := by
  cases c <;> rfl

theorem exec_dctc (c : Component) (s : State) :
    exec (dctcOp c) s = nextHw s (columnPass (arithOps s.cfg.arith) c (qntPhase c) s.hw) := by
  cases c <;> rfl

theorem exec_qnt (c : Component) (s : State) :
    exec (qntOp c) s = nextHw s (quantizePass (arithOps s.cfg.arith) s.env.tick c (afterQnt c) s.hw) := by
  cases c <;> rfl

theorem exec_encdc (c : Component) (s : State) :
    exec (encdcOp c) s = codingOutcome s (gotoPhase (encacPhase c)) (encodeDc s.cfg s.env.tick c s.hw) := by
  cases c <;> rfl

theorem exec_encac (c : Component) (s : State) :
    exec (encacOp c) s = codingOutcome s (closeBlock s.env.tick c) (encodeAc s.cfg s.env.tick c s.hw) := by
  cases c <;> rfl

theorem exec_csc_eq_next {col : BitVec 16} {s t : State} :
    exec (.csc col) s = .next t ↔
      col.toNat % 8 = 0 ∧ t = { s with hw := colorConvert (arithOps s.cfg.arith) s.env.tick col s.hw } := by
  change execCsc col s = _ ↔ _
  unfold execCsc
  split <;> simp [*]

theorem exec_putb_eq_next {n : BitVec 5} {v : BitVec 16} {s t : State} :
    exec (.putb n v) s = .next t ↔
      n.toNat ≤ 16 ∧ ∃ x, putBits v.toNat n.toNat s.hw = some x ∧ t = { s with hw := x } := by
  change execPutb n v s = _ ↔ _
  unfold execPutb
  split <;> simp [*, writerOutcome_eq_next]

theorem exec_trap_eq_next {e : BitVec 4} {s t : State} :
    exec (.trap e) s = .next t ↔ (1 ≤ e.toNat ∧ e.toNat ≤ 3) ∧ t = { s with hw := takeTrap e s.hw } := by
  change execTrap e s = _ ↔ _
  unfold execTrap
  split <;> simp [*]

theorem exec_fin_eq_next {s t : State} :
    exec .fin s = .next t ↔ ∃ x, flush s.env.tick s.hw = some x ∧ t = { s with hw := gotoPhase .halt x } := by
  simp [exec_fin, writerOutcome_eq_next]

/-- An operation of the core changes the hardware and nothing else. -/
theorem exec_core_keeps {i : Instr} {s t : State} (hi : i.isHost = false) (h : exec i s = .next t) :
    t.cfg = s.cfg ∧ t.env = s.env := by
  have of_nextHw : ∀ {x}, nextHw s x = .next t → t.cfg = s.cfg ∧ t.env = s.env := fun hx => by
    rw [nextHw_eq_next.1 hx]; exact ⟨rfl, rfl⟩
  have of_coding : ∀ {f r}, codingOutcome s f r = .next t → t.cfg = s.cfg ∧ t.env = s.env := fun hx => by
    rcases codingOutcome_cases hx with ⟨_, _, rfl⟩ | ⟨_, _, rfl⟩ <;> exact ⟨rfl, rfl⟩
  cases coreOp_of_not_isHost hi with
  | chk => exact of_nextHw (exec_chk s ▸ h)
  | init => exact of_nextHw (exec_init s ▸ h)
  | csc col => rw [(exec_csc_eq_next.1 h).2]; exact ⟨rfl, rfl⟩
  | dctr c => exact of_nextHw (exec_dctr c s ▸ h)
  | dctc c => exact of_nextHw (exec_dctc c s ▸ h)
  | qnt c => exact of_nextHw (exec_qnt c s ▸ h)
  | encdc c => exact of_coding (exec_encdc c s ▸ h)
  | encac c => exact of_coding (exec_encac c s ▸ h)
  | putb n v => obtain ⟨_, _, _, rfl⟩ := exec_putb_eq_next.1 h; exact ⟨rfl, rfl⟩
  | fin => obtain ⟨_, _, rfl⟩ := exec_fin_eq_next.1 h; exact ⟨rfl, rfl⟩
  | halt => exact of_nextHw (exec_halt s ▸ h)
  | trap e => rw [(exec_trap_eq_next.1 h).2]; exact ⟨rfl, rfl⟩

/-! ## The schedule -/

/-- The phase that schedules an operation; `IDLE`, which schedules none, for the others (45 R136). -/
def phaseOf : Instr → Phase
  | .chk => .chk
  | .init => .init
  | .csc _ => .csc
  | .dctr0 => .dctr0
  | .dctr1 => .dctr1
  | .dctr2 => .dctr2
  | .dctc0 => .dctc0
  | .dctc1 => .dctc1
  | .dctc2 => .dctc2
  | .qnt0 => .qnt0
  | .qnt1 => .qnt1
  | .qnt2 => .qnt2
  | .encdc0 => .encdc0
  | .encdc1 => .encdc1
  | .encdc2 => .encdc2
  | .encac0 => .encac0
  | .encac1 => .encac1
  | .encac2 => .encac2
  | .fin => .fin
  | .halt => .halt
  | .putb _ _ | .trap _ | .hwr8 _ _ | .hwr32 _ _ | .hrd8 _ _ | .hrd32 _ _ => .idle

@[simp] theorem phaseOf_dctrOp (c : Component) : phaseOf (dctrOp c) = dctrPhase c := by cases c <;> rfl
@[simp] theorem phaseOf_dctcOp (c : Component) : phaseOf (dctcOp c) = dctcPhase c := by cases c <;> rfl
@[simp] theorem phaseOf_qntOp (c : Component) : phaseOf (qntOp c) = qntPhase c := by cases c <;> rfl
@[simp] theorem phaseOf_encdcOp (c : Component) : phaseOf (encdcOp c) = encdcPhase c := by cases c <;> rfl
@[simp] theorem phaseOf_encacOp (c : Component) : phaseOf (encacOp c) = encacPhase c := by cases c <;> rfl

/-- The core is at `q`, which schedules `i`, and can perform it: a `CSC` has a column that it can name (30 R57). -/
structure Scheduled (q : Seq) (i : Instr) : Prop where
  op : scheduledOp q = some i
  column : q.ph = .csc → q.col.toNat < 2 ^ 16

section

variable {q : Seq} {i : Instr} (h : Scheduled q i)

include h

theorem Scheduled.phase : q.ph = phaseOf i := by
  have hop := h.op
  unfold scheduledOp at hop
  split at hop <;> cases hop <;> assumption

theorem Scheduled.not_isHost : i.isHost = false := by
  have hop := h.op
  unfold scheduledOp at hop
  split at hop <;> cases hop <;> rfl

theorem Scheduled.phase_ne_idle : q.ph ≠ .idle := by
  have hop := h.op
  unfold scheduledOp at hop
  split at hop <;> cases hop <;> simp [*]

end

theorem Scheduled.csc_operand {q : Seq} {col : BitVec 16} (h : Scheduled q (.csc col)) :
    col.setWidth 17 = q.col ∧ col.toNat = q.col.toNat := by
  have hop := h.op
  have hcol := h.column h.phase
  unfold scheduledOp at hop
  split at hop <;> cases hop
  have hnat : (q.col.setWidth 16).toNat = q.col.toNat := by
    rw [BitVec.toNat_setWidth, Nat.mod_eq_of_lt hcol]
  refine ⟨BitVec.eq_of_toNat_eq ?_, hnat⟩
  rw [BitVec.toNat_setWidth, hnat, Nat.mod_eq_of_lt (by omega)]

/-! ## The operations of the host -/

theorem windowAt_lt_capacity {a i : Nat} {sp : Space} (h : windowAt a = some (sp, i)) : i < capacity sp := by
  unfold windowAt at h
  split_ifs at h <;> cases h <;> simp only [capacity] <;> omega

theorem writeWindow_eq_some {addr : Word} {sp : Space} {i : Nat} (h : writeWindow addr = some (sp, i)) :
    sp ≠ .out ∧ i < capacity sp := by
  unfold writeWindow at h
  split at h
  · cases h
  · rename_i hne
    exact ⟨fun hsp => hne i (hsp ▸ h), windowAt_lt_capacity h⟩

/-- What an operation of the host can make of the hardware `h`: nothing while `BUSY`, else one write (45 R129 to R133). -/
inductive HostEffect (h : Hardware) : Hardware → Prop
  | none : HostEffect h h
  | reg (r : Reg) (data : Word) : h.status.busy = false → HostEffect h (writeReg r data h)
  | mem (sp : Space) (i : Nat) (b : Byte) :
      h.status.busy = false → sp ≠ .out → i < capacity sp → HostEffect h (storeByte sp i b h)

theorem HostEffect.eq_of_busy {h h' : Hardware} (he : HostEffect h h') (hb : h.status.busy = true) : h' = h := by
  cases he with
  | none => rfl
  | reg r data hidle => rw [hb] at hidle; cases hidle
  | mem sp i b hidle => rw [hb] at hidle; cases hidle

/-- An operation of the host changes the hardware at most as `HostEffect` says, and `resp`. -/
theorem exec_host {i : Instr} {s t : State} (hi : i.isHost = true) (h : exec i s = .next t) :
    HostEffect s.hw t.hw ∧ t.cfg = s.cfg ∧ t.env.listing = s.env.listing ∧ t.env.turns = s.env.turns := by
  have of_respond : ∀ {r}, respond s r = .next t →
      HostEffect s.hw t.hw ∧ t.cfg = s.cfg ∧ t.env.listing = s.env.listing ∧ t.env.turns = s.env.turns := fun hr => by
    rw [respond_eq_next.1 hr]; exact ⟨.none, rfl, rfl, rfl⟩
  have of_written : ∀ {x}, HostEffect s.hw x → written s x = .next t →
      HostEffect s.hw t.hw ∧ t.cfg = s.cfg ∧ t.env.listing = s.env.listing ∧ t.env.turns = s.env.turns := fun hx hw => by
    rw [written_eq_next.1 hw]; exact ⟨hx, rfl, rfl, rfl⟩
  cases i with
  | hwr8 addr data =>
    change execHwr8 addr data s = _ at h
    unfold execHwr8 at h
    split at h
    · exact of_respond h
    · rename_i sp i hw
      obtain ⟨hsp, hlt⟩ := writeWindow_eq_some hw
      split at h
      · exact of_respond h
      · exact of_written (.mem sp i data (Bool.eq_false_iff.2 ‹_›) hsp hlt) h
  | hwr32 addr data =>
    change execHwr32 addr data s = _ at h
    unfold execHwr32 at h
    split at h
    · exact of_respond h
    · rename_i r _
      split at h
      · exact of_respond h
      · exact of_written (.reg r data (Bool.eq_false_iff.2 ‹_›)) h
  | hrd8 addr seen =>
    change execHrd8 addr s = _ at h
    unfold execHrd8 at h
    split at h <;> exact of_respond h
  | hrd32 addr seen =>
    change execHrd32 addr s = _ at h
    unfold execHrd32 at h
    split at h <;> exact of_respond h
  | _ => cases hi

/-! ## Steps -/

/-- The first operation of a listing of host operations is one of the host's, and the rest is such a listing too. -/
theorem hostListing_decode {ws rest : List Word} {i : Instr} (hl : hostListing ws = true)
    (hd : decode ws = .ok (i, rest)) : i.isHost = true ∧ hostListing rest = true := by
  match ws with
  | [] => cases hd
  | [_] | [_, _] => cases hl
  | w0 :: w1 :: w2 :: ws =>
    simp only [hostListing, Bool.and_eq_true] at hl
    obtain ⟨hfirst, hrest⟩ := hl
    split at hfirst
    · rename_i j hj
      have hfmt : isFormatH w0 = true := by
        by_contra hf
        simp only [decode, if_neg hf] at hj
        cases hU : decodeU w0 <;> rw [hU] at hj <;> cases hj
      simp only [decode, if_pos hfmt] at hj hd
      cases hH : decodeH w0 w1 w2 with
      | error e => rw [hH] at hj; cases hj
      | ok k =>
        rw [hH] at hj hd
        cases hj
        cases hd
        exact ⟨hfirst, hrest⟩
    · cases hfirst

/-- What a step can do from a listing of host operations: the host's operation or nothing, the reset input, or the scheduled
operation of the core. -/
inductive ListedStep (s t : State) : Prop
  | host : HostEffect s.hw t.hw → ListedStep s t
  | reset : currentTurn s = .reset → t.hw = resetHardware s.cfg.arith (s.env.tick + 1) → ListedStep s t
  | core (i : Instr) : Scheduled s.hw.seq i → exec i (advance s.env.listing s) = .next t → ListedStep s t

/-- Only the reset input's own turn asserts it. -/
theorem currentTurn_of_reset {s : State} (h : nextActivity s = .reset) : currentTurn s = .reset := by
  unfold nextActivity coreActivity listingActivity at h
  split at h
  · split at h
    · cases h
    · split at h <;> cases h
  · split at h
    · cases h
    · split at h <;> cases h
  · assumption

theorem step_of_hostListing {s t : State} (hl : hostListing s.env.listing = true) (h : step s = .next t) :
    ListedStep s t ∧ t.cfg = s.cfg ∧ hostListing t.env.listing = true ∧ t.env.turns = s.env.turns.tail := by
  rcases step_cases h with ⟨_, rfl⟩ | ⟨ha, rfl⟩ | ⟨i, rest, ha, he⟩
  · exact ⟨.host .none, rfl, hl, rfl⟩
  · have hturn := currentTurn_of_reset ha
    exact ⟨.reset hturn (by simp), by simp, by simpa using hl, by simp⟩
  · rcases nextActivity_op ha with ⟨_, hop, rfl, hcol⟩ | ⟨_, hd⟩
    · have hs : Scheduled s.hw.seq i := ⟨hop, fun hph => by by_contra hlt; exact hcol ⟨hph, by omega⟩⟩
      obtain ⟨hcfg, henv⟩ := exec_core_keeps hs.not_isHost he
      exact ⟨.core i hs he, hcfg, by rw [henv]; exact hl, by rw [henv]; rfl⟩
    · obtain ⟨hhost, hrest⟩ := hostListing_decode hl hd
      obtain ⟨heff, hcfg, hlist, hturns⟩ := exec_host hhost he
      exact ⟨.host heff, hcfg, by rw [hlist]; exact hrest, by rw [hturns]; rfl⟩

end Sys2Proof.Laws
end

section
/-! PROOFS. Properties of the writer that `PUTB` keeps, carried through a whole coding, and legal states. -/

namespace Sys2Proof.Laws

open Sys2Proof Sys2Proof.Machine Sys2Proof.Claims

/-! ## Properties of the writer along a coding -/

theorem reaches_andThen_of_imp {P Q : Hardware → Prop} {r : Coding} {f : Hardware → Coding} (hr : reaches P r)
    (hPQ : ∀ x, P x → Q x) (hf : ∀ x, P x → reaches Q (f x)) : reaches Q (andThen r f) := by
  cases r with
  | coded x => exact hf x hr
  | missed x => exact hPQ x hr
  | full => trivial

/-- `P m h`, a property of the writer with a bound of `m` bits: `PUTB v, n` moves the bound up by `n`, and the coder's own
registers play no part. -/
structure BitRule (P : Nat → Hardware → Prop) : Prop where
  put : ∀ {m v n : Nat} {h h' : Hardware}, P m h → putBits v n h = some h' → P (m + n) h'
  mono : ∀ {m m' : Nat} {h : Hardware}, m ≤ m' → P m h → P m' h
  coder : ∀ {m : Nat} {h : Hardware} (pred : Triple (BitVec 16)) (run : BitVec 5) (k last : BitVec 6), P m h →
    P m { h with pred := pred, run := run, k := k, last := last }

section

variable {P : Nat → Hardware → Prop} (hP : BitRule P) {m : Nat} {h : Hardware}

include hP

theorem BitRule.putCode (code : Option HuffCode) (hm : P m h) : reaches (P (m + 16)) (putCode code h) := by
  cases code with
  | none => exact hP.mono (by omega) hm
  | some c =>
    simp only [Machine.putCode]
    cases hp : putBits c.code.toNat c.len h with
    | none => trivial
    | some x => exact hP.mono (by have := huffCode_len_le c; omega) (hP.put hm hp)

theorem BitRule.putExtra {v : Int} (hv : category v ≤ 16) (hm : P m h) : reaches (P (m + 16)) (putExtra v h) := by
  unfold Machine.putExtra
  split
  · exact hP.mono (by omega) hm
  · cases hp : putBits (extraBits v) (category v) h with
    | none => trivial
    | some x => exact hP.mono (by omega) (hP.put hm hp)

/-- A DC part sends at most 16 bits of code and 16 extra bits. -/
theorem BitRule.encodeDc (cfg : Config) (tick : Nat) (c : Component) (hm : P m h) :
    reaches (P (m + 32)) (encodeDc cfg tick c h) :=
  reaches_andThen_of_imp (hP.putCode _ (hP.coder _ h.run h.k h.last hm)) (fun _ => hP.mono (by omega))
    (fun _ hx => hP.putExtra (category_diff_le _ _) hx)

/-- A scan position sends at most one code and its extra bits. -/
theorem BitRule.acPosition (cfg : Config) (tick : Nat) (c : Component) (pos : Nat) (hm : P m h) :
    reaches (P (m + 32)) (acPosition cfg tick c pos h) := by
  have hk : P m { h with k := BitVec.ofNat 6 pos } := hP.coder h.pred h.run _ h.last hm
  have hrun : ∀ {m : Nat} (x : Hardware) (r : BitVec 5), P m x → P m { x with run := r } :=
    fun x r hx => hP.coder x.pred r x.k x.last hx
  unfold Machine.acPosition
  simp only
  split
  · unfold acZero
    split
    · exact reaches_andThen_of_imp (hP.putCode _ hk) (fun _ => hP.mono (by omega))
        (fun x hx => hrun x 0 (hP.mono (by omega) hx))
    · exact hrun _ _ (hP.mono (by omega) hk)
  · exact reaches_andThen_of_imp (hP.putCode _ hk) (fun _ => hP.mono (by omega))
      (fun x hx => reaches_andThen (hP.putExtra (zigzag_category_le _ _) hx) (fun y hy => hrun y 0 hy))

theorem BitRule.acScan (cfg : Config) (tick : Nat) (c : Component) (positions : List Nat) :
    ∀ {m : Nat} {h : Hardware}, P m h → reaches (P (m + 32 * positions.length)) (acScan cfg tick c positions h) := by
  induction positions with
  | nil => intro m h hm; exact hm
  | cons pos rest ih =>
    intro m h hm
    refine reaches_andThen_of_imp (hP.acPosition cfg tick c pos hm) (fun _ => hP.mono ?_) (fun x hx => ?_)
    · simp only [List.length_cons]; omega
    · exact reaches_mono (fun _ => hP.mono (by simp only [List.length_cons]; omega)) (ih hx)

/-- An AC part sends at most 32 bits for each of 63 positions, the EOB in place of the last one. -/
theorem BitRule.encodeAc (cfg : Config) (tick : Nat) (c : Component) (hm : P m h) :
    reaches (P (m + 2016)) (encodeAc cfg tick c h) := by
  have hlast := lastNonzero_le (getComp h.cf c)
  refine reaches_andThen_of_imp (hP.acScan cfg tick c _ (hP.coder h.pred 0 h.k _ hm)) (fun _ => hP.mono ?_)
    (fun x hx => ?_)
  · simp only [List.length_range']; omega
  · simp only [List.length_range'] at hx
    unfold acEnd
    split
    · exact hP.mono (by omega) hx
    · exact reaches_mono (fun _ => hP.mono (by omega)) (hP.putCode _ hx)

end

/-! ## `OUT` stays canonical and within its size -/

theorem putBits_memoryOk {v n : Nat} {h h' : Hardware} (hok : memoryOk .out h) (hs : putBits v n h = some h') :
    memoryOk .out h' := by
  unfold putBits at hs
  split at hs
  · cases hs; exact hok
  · exact drain_memory hok.1 hok.2 hs

theorem bitRule_memoryOk : BitRule fun _ h => memoryOk .out h where
  put := putBits_memoryOk
  mono _ h := h
  coder _ _ _ _ h := h

theorem flush_memoryOk {tick : Nat} {h h' : Hardware} (hok : memoryOk .out h) (hs : flush tick h = some h') :
    memoryOk .out h' := by
  unfold flush at hs
  split at hs
  · cases hs; exact hok
  · obtain ⟨x, hx, rfl⟩ := Option.map_eq_some_iff.1 hs
    have hmem := emitStuffed_memory hok.1 hok.2 hx
    exact hmem

/-! ## Legal states -/

theorem memoryOk_of_eq {sp : Space} {h h' : Hardware} (heq : memoryOf sp h' = memoryOf sp h) (hok : memoryOk sp h) :
    memoryOk sp h' := by
  unfold memoryOk
  rw [heq]
  exact hok

theorem memoryOk_storeByte {sp : Space} {i : Nat} {h : Hardware} (b : Byte) (hi : i < capacity sp) (hok : memoryOk sp h) :
    memoryOk sp (storeByte sp i b h) := by
  unfold memoryOk
  rw [memoryOf_storeByte]
  exact ⟨wf_writeByte i b hok.1, inRange_writeByte b hok.2 hi⟩

theorem memoryOk_resetHardware (a : Arith) (tick : Nat) (sp : Space) : memoryOk sp (resetHardware a tick) := by
  cases sp <;> exact ⟨wf_memoryOfCells _ _, inRange_memoryOfCells _ _⟩

theorem statusLegal_trap {e : BitVec 4} (h1 : 1 ≤ e.toNat) (h3 : e.toNat ≤ 3) : statusLegal (statusTrap e) := by
  have he : e = 1 ∨ e = 2 ∨ e = 3 := by
    rcases (by omega : e.toNat = 1 ∨ e.toNat = 2 ∨ e.toNat = 3) with h | h | h
    · exact .inl (BitVec.eq_of_toNat_eq h)
    · exact .inr (.inl (BitVec.eq_of_toNat_eq h))
    · exact .inr (.inr (BitVec.eq_of_toNat_eq h))
  unfold statusLegal
  rcases he with rfl | rfl | rfl <;> simp

/-- Hardware with the memories and the `STATUS` of a legal one is legal. -/
theorem legalState_of_eq {h h' : Hardware} (hl : legalState h) (hmem : ∀ sp, memoryOf sp h' = memoryOf sp h)
    (hst : h'.status = h.status) : legalState h' :=
  ⟨fun sp => memoryOk_of_eq (hmem sp) (hl.1 sp), hst ▸ hl.2⟩

/-- A change of `STATUS` and of no memory keeps a state legal when the new value is. -/
theorem legalState_of_status {h h' : Hardware} (hl : legalState h) (hmem : ∀ sp, memoryOf sp h' = memoryOf sp h)
    (hst : statusLegal h'.status) : legalState h' :=
  ⟨fun sp => memoryOk_of_eq (hmem sp) (hl.1 sp), hst⟩

theorem memoryOf_coderOnly {h h' : Hardware} (hc : coderOnly h h') {sp : Space} (hsp : sp ≠ .out) :
    memoryOf sp h' = memoryOf sp h := by
  rw [hc]
  cases sp with
  | out => exact absurd rfl hsp
  | _ => rfl

theorem writerOnly_coderOnly {h h' : Hardware} (hw : writerOnly h h') : coderOnly h h' :=
  coderOnly_of_writerOnly (x := h) rfl hw

theorem coderOnly_status {h h' : Hardware} (hc : coderOnly h h') : h'.status = h.status := by rw [hc]

/-- The coder and the writer touch no memory but `OUT`. -/
theorem legalState_of_coderOnly {h h' : Hardware} (hl : legalState h) (hc : coderOnly h h') (hout : memoryOk .out h') :
    legalState h' := by
  refine ⟨fun sp => ?_, coderOnly_status hc ▸ hl.2⟩
  by_cases hsp : sp = .out
  · exact hsp ▸ hout
  · exact memoryOk_of_eq (memoryOf_coderOnly hc hsp) (hl.1 sp)

theorem legalState_gotoPhase {h : Hardware} (ph : Phase) (hl : legalState h) : legalState (gotoPhase ph h) :=
  legalState_of_eq hl (fun sp => by cases sp <;> rfl) rfl

theorem legalState_closeBlock {h : Hardware} (tick : Nat) (c : Component) (hl : legalState h) :
    legalState (closeBlock tick c h) := by
  cases c with
  | y => exact legalState_gotoPhase _ hl
  | cb => exact legalState_gotoPhase _ hl
  | cr => exact legalState_of_eq hl (fun sp => by cases sp <;> rfl) rfl

theorem legalState_takeTrap {e : BitVec 4} {h : Hardware} (h1 : 1 ≤ e.toNat) (h3 : e.toNat ≤ 3) (hl : legalState h) :
    legalState (takeTrap e h) :=
  legalState_of_status hl (fun sp => by cases sp <;> rfl) (statusLegal_trap h1 h3)

theorem legalState_checkLaunch {h : Hardware} (hl : legalState h) : legalState (checkLaunch h) := by
  unfold checkLaunch
  split_ifs
  · exact legalState_takeTrap (by decide) (by decide) hl
  · exact legalState_takeTrap (by decide) (by decide) hl
  · exact legalState_gotoPhase _ hl

theorem legalState_resetHardware (a : Arith) (tick : Nat) : legalState (resetHardware a tick) :=
  ⟨memoryOk_resetHardware a tick, .inl rfl⟩

theorem legalState_writeReg {h : Hardware} (r : Reg) (data : Word) (hl : legalState h) : legalState (writeReg r data h) := by
  cases r with
  | ctrl =>
    simp only [writeReg, writeCtrl]
    split_ifs
    · exact legalState_of_status hl (fun sp => by cases sp <;> rfl) (.inr (.inl rfl))
    · exact legalState_of_status hl (fun sp => by cases sp <;> rfl) (.inl rfl)
    · exact hl
  | status | outlen => exact hl
  | width | pixlen | qllen | qclen => exact legalState_of_eq hl (fun sp => by cases sp <;> rfl) rfl

theorem legalState_storeByte {h : Hardware} {sp : Space} {i : Nat} (b : Byte) (hi : i < capacity sp) (hl : legalState h) :
    legalState (storeByte sp i b h) := by
  refine ⟨fun sp' => ?_, (storeByte_status h sp i b).symm ▸ hl.2⟩
  by_cases hsp : sp' = sp
  · subst hsp
    exact memoryOk_storeByte b hi (hl.1 _)
  · exact memoryOk_of_eq (memoryOf_storeByte_of_ne h hsp i b) (hl.1 sp')

theorem legalState_hostEffect {h h' : Hardware} (hl : legalState h) (he : HostEffect h h') : legalState h' := by
  cases he with
  | none => exact hl
  | reg r data _ => exact legalState_writeReg r data hl
  | mem sp i b _ _ hi => exact legalState_storeByte b hi hl

/-- Where a coding from a legal state ends or misses the state is legal but for what `SEQ` and a trap add. -/
theorem legalState_coding {s t : State} {next : Hardware → Hardware} {r : Coding} (hl : legalState s.hw)
    (hnext : ∀ x, legalState x → legalState (next x)) (hc : reaches (coderOnly s.hw) r) (hout : reaches (memoryOk .out) r)
    (h : codingOutcome s next r = .next t) : legalState t.hw := by
  rcases codingOutcome_cases h with ⟨x, rfl, rfl⟩ | ⟨x, rfl, rfl⟩
  · exact hnext x (legalState_of_coderOnly hl hc hout)
  · exact legalState_takeTrap (by decide) (by decide) (legalState_of_coderOnly hl hc hout)

/-- Every operation keeps a state legal, from whatever phase it is performed. -/
theorem exec_legalState {i : Instr} {s t : State} (hl : legalState s.hw) (h : exec i s = .next t) : legalState t.hw := by
  by_cases hi : i.isHost = true
  · exact legalState_hostEffect hl (exec_host hi h).1
  have hblocks : ∀ sb cf seq, legalState { s.hw with sb := sb, cf := cf, seq := seq } := fun sb cf seq =>
    legalState_of_eq hl (fun sp => by cases sp <;> rfl) rfl
  cases coreOp_of_not_isHost (Bool.eq_false_iff.2 hi) with
  | chk => rw [exec_chk, nextHw_eq_next] at h; rw [h]; exact legalState_checkLaunch hl
  | init =>
    rw [exec_init, nextHw_eq_next] at h
    rw [h]
    exact legalState_of_eq hl (fun sp => by cases sp <;> rfl) rfl
  | csc col => rw [(exec_csc_eq_next.1 h).2]; exact hblocks _ s.hw.cf _
  | dctr c => rw [exec_dctr, nextHw_eq_next] at h; rw [h]; exact hblocks _ s.hw.cf _
  | dctc c => rw [exec_dctc, nextHw_eq_next] at h; rw [h]; exact hblocks _ s.hw.cf _
  | qnt c => rw [exec_qnt, nextHw_eq_next] at h; rw [h]; exact hblocks s.hw.sb _ _
  | encdc c =>
    rw [exec_encdc] at h
    exact legalState_coding hl (fun _ => legalState_gotoPhase _) (encodeDc_coderOnly _ _ _ _)
      (bitRule_memoryOk.encodeDc (m := 0) _ _ _ (hl.1 .out)) h
  | encac c =>
    rw [exec_encac] at h
    exact legalState_coding hl (fun _ => legalState_closeBlock _ _) (encodeAc_coderOnly _ _ _ _)
      (bitRule_memoryOk.encodeAc (m := 0) _ _ _ (hl.1 .out)) h
  | putb n v =>
    obtain ⟨_, x, hx, rfl⟩ := exec_putb_eq_next.1 h
    exact legalState_of_coderOnly hl (writerOnly_coderOnly (putBits_writerOnly hx)) (putBits_memoryOk (hl.1 .out) hx)
  | fin =>
    obtain ⟨x, hx, rfl⟩ := exec_fin_eq_next.1 h
    exact legalState_gotoPhase _
      (legalState_of_coderOnly hl (writerOnly_coderOnly (flush_writerOnly hx)) (flush_memoryOk (hl.1 .out) hx))
  | halt =>
    rw [exec_halt, nextHw_eq_next] at h
    rw [h]
    exact legalState_of_status hl (fun sp => by cases sp <;> rfl) (.inr (.inr (.inl rfl)))
  | trap e =>
    obtain ⟨⟨h1, h3⟩, rfl⟩ := exec_trap_eq_next.1 h
    exact legalState_takeTrap h1 h3 hl

/-- Settles O53: nothing happens, the reset input leaves a legal state, or an operation keeps the state legal. -/
theorem legalStateKept : Obligations.LegalStateKept := by
  intro s t hl h
  rcases step_cases h with ⟨_, rfl⟩ | ⟨_, rfl⟩ | ⟨i, rest, _, he⟩
  · exact hl
  · rw [assertReset_hw]
    exact legalState_resetHardware _ _
  · exact exec_legalState (s := advance rest s) hl he

end Sys2Proof.Laws
end

section
/-! PROOFS. The writer's part of the invariant: pending bits, stuffing, and how many bits the output has cost. -/

namespace Sys2Proof.Laws

open Sys2Proof Sys2Proof.Machine Sys2Proof.Claims

/-! ## The output as a list of bytes -/

@[simp] theorem length_outBytes (h : Hardware) : (outBytes h).length = h.outlen.toNat := by simp [outBytes]

theorem outBytes_of_outlen {h : Hardware} (h0 : h.outlen = 0) : outBytes h = [] := by simp [outBytes, h0]

/-- `emit` appends its byte (44 R122). -/
theorem emit_outBytes {b : Byte} {h h' : Hardware} (hwf : h.out.wf = true) (hs : emit b h = some h') :
    h'.out.wf = true ∧ outBytes h' = outBytes h ++ [b] := by
  obtain ⟨hlt, rfl⟩ := emit_eq_some.1 hs
  refine ⟨wf_writeByte _ b hwf, ?_⟩
  simp only [outBytes, outlen_succ hlt, List.range_succ, List.map_append, List.map_cons, List.map_nil,
    readByte_writeByte hwf h.outlen.toNat h.outlen.toNat, if_true, List.append_cancel_right_eq]
  exact List.map_congr_left fun a ha => by rw [readByte_writeByte hwf, if_neg (List.mem_range.1 ha).ne]

theorem stuffBytes_singleton (b : Byte) : stuffBytes [b] = if b = 0xFF then [0xFF, 0x00] else [b] :=
  List.flatMap_singleton _ b

/-- A computed byte is appended with its stuffing (44 R121, 30 R78). -/
theorem emitStuffed_outBytes {b : Byte} {h h' : Hardware} (hwf : h.out.wf = true) (hs : emitStuffed b h = some h') :
    h'.out.wf = true ∧ outBytes h' = outBytes h ++ stuffBytes [b] := by
  unfold emitStuffed at hs
  split at hs
  · rename_i hb
    obtain ⟨x, hx, hx'⟩ := Option.bind_eq_some_iff.1 hs
    obtain ⟨hwfx, hox⟩ := emit_outBytes hwf hx
    obtain ⟨hwf', ho'⟩ := emit_outBytes hwfx hx'
    exact ⟨hwf', by rw [ho', hox, stuffBytes_singleton, if_pos hb, hb, List.append_assoc]; rfl⟩
  · rename_i hb
    obtain ⟨hwf', ho'⟩ := emit_outBytes hwf hs
    exact ⟨hwf', by rw [ho', stuffBytes_singleton, if_neg hb]⟩

/-! ## Stuffing -/

theorem stuffed_append {l l' : List Byte} (h : stuffed l = true) (h' : stuffed l' = true) : stuffed (l ++ l') = true := by
  induction l using stuffed.induct with
  | case1 => exact h'
  | case2 b =>
    cases l' with
    | nil => exact h
    | cons c l' =>
      change ((b != 0xFF || c == 0x00) && stuffed (c :: l')) = true
      rw [show (b != 0xFF) = true from h, h']
      rfl
  | case3 b b' rest ih =>
    simp only [stuffed, Bool.and_eq_true] at h
    simp only [List.cons_append, stuffed, Bool.and_eq_true]
    exact ⟨h.1, ih h.2⟩

theorem stuffed_stuffBytes (b : Byte) : stuffed (stuffBytes [b]) = true := by
  rw [stuffBytes_singleton]
  split
  · rfl
  · exact bne_iff_ne.2 ‹_›

/-- `OUT` is canonical and its output stuffed (44 R125). -/
def outputOk (h : Hardware) : Prop := h.out.wf = true ∧ stuffed (outBytes h) = true

theorem emitStuffed_outputOk {b : Byte} {h h' : Hardware} (hok : outputOk h) (hs : emitStuffed b h = some h') :
    outputOk h' := by
  obtain ⟨hwf', ho'⟩ := emitStuffed_outBytes hok.1 hs
  exact ⟨hwf', ho' ▸ stuffed_append hok.2 (stuffed_stuffBytes b)⟩

theorem drain_outputOk {bytes : Nat} : ∀ {acc cnt : Nat} {h h' : Hardware}, outputOk h → drain bytes acc cnt h = some h' →
    outputOk h' := by
  induction bytes with
  | zero => intro acc cnt h h' hok hs; rw [drain_zero] at hs; cases hs; exact hok
  | succ n ih =>
    intro acc cnt h h' hok hs
    obtain ⟨x, hx, hd⟩ := drain_succ.1 hs
    exact ih (emitStuffed_outputOk hok hx) hd

/-! ## The writer between two operations -/

theorem writerOk_empty {h : Hardware} (hacc : h.acc = 0) (hcnt : h.cnt = 0) : writerOk h := by
  unfold writerOk
  rw [hacc, hcnt]
  decide

/-- The loop of `PUTB` leaves the pending bits below one byte (44 R124). -/
theorem drain_writerOk {bytes : Nat} : ∀ {acc cnt : Nat} {h h' : Hardware}, bytes = cnt / 8 → acc < 2 ^ cnt →
    drain bytes acc cnt h = some h' → writerOk h' := by
  induction bytes with
  | zero =>
    intro acc cnt h h' hb hacc hs
    rw [drain_zero] at hs
    cases hs
    have hcnt : cnt ≤ 7 := by omega
    have hpow : 2 ^ cnt ≤ 2 ^ 7 := Nat.pow_le_pow_right (by decide) hcnt
    have hc : (BitVec.ofNat 5 cnt).toNat = cnt := by rw [BitVec.toNat_ofNat]; omega
    have ha : (BitVec.ofNat 32 acc).toNat = acc := by rw [BitVec.toNat_ofNat]; omega
    exact ⟨by rw [hc]; exact hcnt, by rw [ha, hc]; exact hacc⟩
  | succ n ih =>
    intro acc cnt h h' hb hacc hs
    obtain ⟨x, _, hd⟩ := drain_succ.1 hs
    exact ih (by omega) (Nat.mod_lt _ (Nat.two_pow_pos _)) hd

/-- The pending bits with `n` more behind them. -/
theorem pending_lt {acc cnt v n : Nat} (hacc : acc < 2 ^ cnt) : acc <<< n + v % 2 ^ n < 2 ^ (cnt + n) := by
  have hv := Nat.mod_lt v (Nat.two_pow_pos n)
  rw [Nat.shiftLeft_eq, pow_add]
  calc acc * 2 ^ n + v % 2 ^ n < acc * 2 ^ n + 2 ^ n := by omega
    _ = (acc + 1) * 2 ^ n := by ring
    _ ≤ 2 ^ cnt * 2 ^ n := Nat.mul_le_mul_right _ hacc

/-- The writer in a strip that has sent at most `m` bits: eight bits cost at most two bytes. -/
structure WriterInv (m : Nat) (h : Hardware) : Prop where
  output : outputOk h
  pending : writerOk h
  budget : 4 * h.outlen.toNat + h.cnt.toNat ≤ m

theorem writerInv_putBits {m v n : Nat} {h h' : Hardware} (hw : WriterInv m h) (hs : putBits v n h = some h') :
    WriterInv (m + n) h' := by
  obtain ⟨hout, hpend, hbudget⟩ := hw
  unfold putBits at hs
  split at hs
  · cases hs
    exact ⟨hout, hpend, by omega⟩
  · obtain ⟨hcnt, _, hlen⟩ := drain_counts rfl hs
    exact ⟨drain_outputOk hout hs, drain_writerOk rfl (pending_lt hpend.2) hs, by omega⟩

theorem bitRule_writerInv : BitRule WriterInv where
  put := writerInv_putBits
  mono hle hw := ⟨hw.output, hw.pending, hw.budget.trans hle⟩
  coder _ _ _ _ hw := ⟨hw.output, hw.pending, hw.budget⟩

/-- `FIN` sends the last byte and leaves nothing pending (44 R123). -/
theorem writerInv_flush {m tick : Nat} {h h' : Hardware} (hw : WriterInv m h) (hs : flush tick h = some h') :
    WriterInv (m + 8) h' ∧ h'.cnt = 0 := by
  obtain ⟨hout, hpend, hbudget⟩ := hw
  unfold flush at hs
  split at hs
  · rename_i h0
    cases hs
    exact ⟨⟨hout, hpend, by omega⟩, BitVec.eq_of_toNat_eq h0⟩
  · obtain ⟨x, hx, rfl⟩ := Option.map_eq_some_iff.1 hs
    have hlen := emitStuffed_outlen hx
    have hout' := emitStuffed_outputOk hout hx
    refine ⟨⟨hout', writerOk_empty rfl rfl, ?_⟩, rfl⟩
    change 4 * x.outlen.toNat + 0 ≤ m + 8
    split at hlen <;> omega

end Sys2Proof.Laws
end

section
/-! PROOFS. The invariant of the machine: where it holds at once, and that every operation and every step keeps it. -/

namespace Sys2Proof.Laws

open Sys2Proof Sys2Proof.Machine Sys2Proof.Claims

/-! ## The invariant while idle -/

theorem hwInv_of_idle {h : Hardware} (hl : legalState h) (hph : h.seq.ph = .idle) (hbusy : h.status.busy = false)
    (hfailed : h.status.err = true → h.outlen = 0) (hstuffed : stuffed (outBytes h) = true)
    (hcap : h.outlen.toNat ≤ 12582914) : HwInv h where
  memories := hl.1
  status := hl.2
  busy := by simp [hph, hbusy]
  failed := hfailed
  starting := by simp [hph]
  checked := by simp [hph, inStrip, inMcu]
  aligned := by simp [hph, inStrip, inMcu]
  column := by simp [hph, inMcu]
  finished := by simp [hph]
  writer := by simp [hph, inStrip, inMcu]
  flushed := by simp [hph]
  stuffing := hstuffed
  budget := by simp [hph, inStrip, inMcu]
  capacity := hcap

theorem stuffed_of_outlen {h : Hardware} (h0 : h.outlen = 0) : stuffed (outBytes h) = true := by
  rw [outBytes_of_outlen h0]
  rfl

/-- While idle and with an empty output the invariant asks for a legal state only. -/
theorem hwInv_of_idle_empty {h : Hardware} (hl : legalState h) (hph : h.seq.ph = .idle) (hbusy : h.status.busy = false)
    (h0 : h.outlen = 0) : HwInv h :=
  hwInv_of_idle hl hph hbusy (fun _ => h0) (stuffed_of_outlen h0) (by rw [h0]; decide)

theorem hwInv_takeTrap {e : BitVec 4} {h : Hardware} (h1 : 1 ≤ e.toNat) (h3 : e.toNat ≤ 3) (hl : legalState h) :
    HwInv (takeTrap e h) :=
  hwInv_of_idle_empty (legalState_takeTrap h1 h3 hl) rfl rfl rfl

theorem hwInv_resetHardware (a : Arith) (tick : Nat) : HwInv (resetHardware a tick) :=
  hwInv_of_idle_empty (legalState_resetHardware a tick) rfl rfl rfl

section

variable {h : Hardware} (hi : HwInv h)

include hi

theorem hwInv_legalState : legalState h := ⟨hi.memories, hi.status⟩

theorem hwInv_idle (hidle : h.status.busy = false) : h.seq.ph = .idle := by
  by_contra hph
  rw [hi.busy.2 hph] at hidle
  cases hidle

/-- A run in progress has the one `STATUS` with `BUSY` set. -/
theorem hwInv_statusBusy (hph : h.seq.ph ≠ .idle) : h.status = statusBusy := by
  have hb := hi.busy.2 hph
  rcases hi.status with hs | hs | hs | hs | hs | hs <;> rw [hs] at hb ⊢ <;> cases hb

end

/-! ## The host's operations -/

/-- `START` from a legal state: the output is empty and the check is still to come. -/
theorem hwInv_startRun {h : Hardware} (hl : legalState h) : HwInv (startRun h) where
  memories := (legalState_writeReg .ctrl 1 hl).1
  status := .inr (.inl rfl)
  busy := by simp [startRun, statusBusy]
  failed _ := rfl
  starting _ := rfl
  checked := by simp [startRun, inStrip, inMcu]
  aligned := by simp [startRun, inStrip, inMcu]
  column := by simp [startRun, inMcu]
  finished := by simp [startRun]
  writer := by simp [startRun, inStrip, inMcu]
  flushed := by simp [startRun]
  stuffing := stuffed_of_outlen rfl
  budget := by simp [startRun, inStrip, inMcu]
  capacity := Nat.zero_le _

theorem outBytes_storeByte {sp : Space} (hsp : sp ≠ .out) (i : Nat) (b : Byte) (h : Hardware) :
    outBytes (storeByte sp i b h) = outBytes h := by
  cases sp with
  | out => exact absurd rfl hsp
  | _ => rfl

theorem hwInv_hostEffect {h h' : Hardware} (hi : HwInv h) (he : HostEffect h h') : HwInv h' := by
  have hl' := legalState_hostEffect (hwInv_legalState hi) he
  cases he with
  | none => exact hi
  | reg r data hidle =>
    have hph := hwInv_idle hi hidle
    cases r with
    | ctrl =>
      simp only [writeReg, writeCtrl] at hl' ⊢
      split_ifs at hl' ⊢
      · exact hwInv_startRun (hwInv_legalState hi)
      · exact hwInv_of_idle_empty hl' hph rfl rfl
      · exact hi
    | status | outlen => exact hi
    | width | pixlen | qllen | qclen => exact hwInv_of_idle hl' hph hidle hi.failed hi.stuffing hi.capacity
  | mem sp i b hidle hsp =>
    refine hwInv_of_idle hl' ?_ ?_ ?_ ?_ ?_
    · simpa using hwInv_idle hi hidle
    · simpa using hidle
    · simpa using hi.failed
    · simpa [outBytes_storeByte hsp] using hi.stuffing
    · simpa using hi.capacity

/-! ## The invariant in a strip -/

theorem launchOk_of_sameLaunch {h h' : Hardware} (hs : sameLaunch h h') (hok : launchOk h) : launchOk h' := by
  obtain ⟨hw, hp, hql, hqc, _⟩ := hs
  unfold launchOk
  rw [hw, hp, hql, hqc]
  exact hok

theorem sameLaunch_of_coderOnly {h h' : Hardware} (hc : coderOnly h h') : sameLaunch h h' := by
  rw [hc]
  exact ⟨rfl, rfl, rfl, rfl, rfl, rfl, rfl⟩

theorem coderOnly_seq {h h' : Hardware} (hc : coderOnly h h') : h'.seq = h.seq := by rw [hc]

/-- What every phase of a strip shares, with at most `m` bits sent. -/
structure StripState (m : Nat) (h : Hardware) : Prop where
  legal : legalState h
  busy : h.status = statusBusy
  launch : launchOk h
  aligned : h.seq.col.toNat % 8 = 0
  writer : WriterInv m h

theorem stripState_of_hwInv {h : Hardware} (hi : HwInv h) (hph : inStrip h.seq.ph = true) :
    StripState (bitBudget h.seq) h where
  legal := hwInv_legalState hi
  busy := hwInv_statusBusy hi fun hidle => by rw [hidle] at hph; cases hph
  launch := hi.checked (.inl hph)
  aligned := hi.aligned hph
  writer := ⟨⟨(hi.memories .out).1, hi.stuffing⟩, hi.writer hph, hi.budget hph⟩

/-- The coder's operations keep what the phases of a strip share. -/
theorem bitRule_stripState : BitRule StripState where
  put {m v n h h'} hs hp := by
    have hc := writerOnly_coderOnly (putBits_writerOnly hp)
    refine ⟨legalState_of_coderOnly hs.legal hc (putBits_memoryOk (hs.legal.1 .out) hp), ?_,
      launchOk_of_sameLaunch (sameLaunch_of_coderOnly hc) hs.launch, ?_, writerInv_putBits hs.writer hp⟩
    · rw [coderOnly_status hc]; exact hs.busy
    · rw [coderOnly_seq hc]; exact hs.aligned
  mono hle hs := ⟨hs.legal, hs.busy, hs.launch, hs.aligned, bitRule_writerInv.mono hle hs.writer⟩
  coder pred run k last hs :=
    ⟨legalState_of_eq hs.legal (fun sp => by cases sp <;> rfl) rfl, hs.busy, hs.launch, hs.aligned,
      bitRule_writerInv.coder pred run k last hs.writer⟩

/-- The datapath touches `SB`, `CF` and `SEQ` only. -/
theorem stripState_blocks {m : Nat} {h : Hardware} (hs : StripState m h) (sb : Triple (Block Sample))
    (cf : Triple (Block (BitVec 16))) {q : Seq} (hq : q.col.toNat % 8 = 0) :
    StripState m { h with sb := sb, cf := cf, seq := q } :=
  ⟨legalState_of_eq hs.legal (fun sp => by cases sp <;> rfl) rfl, hs.busy, hs.launch, hq,
    ⟨hs.writer.output, hs.writer.pending, hs.writer.budget⟩⟩

theorem stripState_flush {m tick : Nat} {h h' : Hardware} (hs : StripState m h) (hf : flush tick h = some h') :
    StripState (m + 8) h' ∧ h'.cnt = 0 := by
  have hc := writerOnly_coderOnly (flush_writerOnly hf)
  obtain ⟨hw, hcnt⟩ := writerInv_flush hs.writer hf
  refine ⟨⟨legalState_of_coderOnly hs.legal hc (flush_memoryOk (hs.legal.1 .out) hf), ?_,
    launchOk_of_sameLaunch (sameLaunch_of_coderOnly hc) hs.launch, ?_, hw⟩, hcnt⟩
  · rw [coderOnly_status hc]; exact hs.busy
  · rw [coderOnly_seq hc]; exact hs.aligned

theorem bitBudget_le (q : Seq) : bitBudget q ≤ 768 * q.col.toNat + 4128 := by
  unfold bitBudget
  split <;> omega

/-- In a macroblock column. The last column starts at 65528 at most, and so the output fits. -/
theorem hwInv_of_mcu {h : Hardware} (hs : StripState (bitBudget h.seq) h) (hmcu : inMcu h.seq.ph = true)
    (hcol : h.seq.col.toNat < h.width.toNat) : HwInv h where
  memories := hs.legal.1
  status := hs.legal.2
  busy := by
    refine ⟨fun _ hph => ?_, fun _ => by rw [hs.busy]; rfl⟩
    rw [hph] at hmcu
    cases hmcu
  failed := by rw [hs.busy]; intro he; cases he
  starting := by rintro (hph | hph) <;> rw [hph] at hmcu <;> cases hmcu
  checked _ := hs.launch
  aligned _ := hs.aligned
  column _ := hcol
  finished := by rintro (hph | hph) <;> rw [hph] at hmcu <;> cases hmcu
  writer _ := hs.writer.pending
  flushed := by intro hph; rw [hph] at hmcu; cases hmcu
  stuffing := hs.writer.output.2
  budget _ := hs.writer.budget
  capacity := by
    have hwidth := h.width.isLt
    have hcol8 := hs.aligned
    have hbits := hs.writer.budget
    have hmax := bitBudget_le h.seq
    omega

/-- After the last column. -/
theorem hwInv_of_strip_end {h : Hardware} (hs : StripState (bitBudget h.seq) h) (hph : h.seq.ph = .fin ∨ h.seq.ph = .halt)
    (hcol : h.width.toNat ≤ h.seq.col.toNat ∧ h.seq.col.toNat ≤ 65536) (hflushed : h.seq.ph = .halt → h.cnt = 0) :
    HwInv h where
  memories := hs.legal.1
  status := hs.legal.2
  busy := by
    rw [hs.busy]
    rcases hph with hph | hph <;> simp [hph, statusBusy]
  failed := by rw [hs.busy]; intro he; cases he
  starting := by rcases hph with hph | hph <;> simp [hph]
  checked _ := hs.launch
  aligned _ := hs.aligned
  column := by rcases hph with hph | hph <;> simp [hph, inMcu]
  finished _ := hcol
  writer _ := hs.writer.pending
  flushed := hflushed
  stuffing := hs.writer.output.2
  budget _ := hs.writer.budget
  capacity := by
    have hbits := hs.writer.budget
    have hbudget : bitBudget h.seq ≤ 768 * h.seq.col.toNat + 8 := by
      rcases hph with hph | hph <;> simp [bitBudget, hph]
    omega

/-! ## The operations of the core -/

theorem hwInv_checkLaunch {h : Hardware} (hi : HwInv h) (hph : h.seq.ph = .chk) : HwInv (checkLaunch h) := by
  have hl := hwInv_legalState hi
  have hst : h.status = statusBusy := hwInv_statusBusy hi (by rw [hph]; decide)
  have h0 : h.outlen = 0 := hi.starting (.inl hph)
  unfold checkLaunch
  split_ifs with hq hp
  · exact hwInv_takeTrap (by decide) (by decide) hl
  · exact hwInv_takeTrap (by decide) (by decide) hl
  · obtain ⟨hql, hqc⟩ := not_or.1 hq
    exact
      { memories := (legalState_gotoPhase .init hl).1
        status := hl.2
        busy := by simp [gotoPhase, hst, statusBusy]
        failed := fun _ => h0
        starting := fun _ => h0
        checked := fun _ => ⟨not_not.1 hql, not_not.1 hqc, not_not.1 hp⟩
        aligned := by simp [gotoPhase, inStrip, inMcu]
        column := by simp [gotoPhase, inMcu]
        finished := by simp [gotoPhase]
        writer := by simp [gotoPhase, inStrip, inMcu]
        flushed := by simp [gotoPhase]
        stuffing := hi.stuffing
        budget := by simp [gotoPhase, inStrip, inMcu]
        capacity := hi.capacity }

/-- `INIT` finds an empty output and empties the writer (45 R138). -/
theorem stripState_initStrip {h : Hardware} (hi : HwInv h) (hph : h.seq.ph = .init) (m : Nat) :
    StripState m (initStrip h) where
  legal := legalState_of_eq (hwInv_legalState hi) (fun sp => by cases sp <;> rfl) rfl
  busy := hwInv_statusBusy (h := h) hi (by rw [hph]; decide)
  launch := hi.checked (.inr hph)
  aligned := rfl
  writer :=
    { output := ⟨(hi.memories .out).1, hi.stuffing⟩
      pending := writerOk_empty rfl rfl
      budget := by
        change 4 * h.outlen.toNat + 0 ≤ m
        rw [hi.starting (.inr hph)]
        exact Nat.zero_le m }

theorem hwInv_initStrip {h : Hardware} (hi : HwInv h) (hph : h.seq.ph = .init) : HwInv (initStrip h) := by
  have hs := stripState_initStrip hi hph (bitBudget (initStrip h).seq)
  by_cases hw : 0 < h.width.toNat
  · have hq : (initStrip h).seq = { ph := .csc, col := 0 } := by simp [initStrip, hw]
    exact hwInv_of_mcu hs (by rw [hq]; rfl) (by rw [hq]; exact hw)
  · have hq : (initStrip h).seq = { ph := .fin, col := 0 } := by simp [initStrip, hw]
    refine hwInv_of_strip_end hs (by rw [hq]; exact .inl rfl) ?_ (by rw [hq]; intro hh; cases hh)
    rw [hq]
    exact ⟨by change h.width.toNat ≤ 0; omega, by decide⟩

/-- The datapath's operations go on to a later phase of the column and touch only `SB` and `CF`. -/
theorem hwInv_blocks {h : Hardware} (hi : HwInv h) (hmcu : inMcu h.seq.ph = true) (sb : Triple (Block Sample))
    (cf : Triple (Block (BitVec 16))) {ph : Phase} (hph : inMcu ph = true)
    (hbudget : bitBudget h.seq ≤ bitBudget { h.seq with ph := ph }) :
    HwInv { h with sb := sb, cf := cf, seq := { h.seq with ph := ph } } := by
  have hs := stripState_of_hwInv hi (by simp [inStrip, hmcu])
  exact hwInv_of_mcu (bitRule_stripState.mono hbudget (stripState_blocks hs sb cf (q := { h.seq with ph := ph }) hs.aligned))
    hph (hi.column hmcu)

/-- A coding that went well within the column. -/
theorem hwInv_gotoPhase {m : Nat} {h x : Hardware} (hi : HwInv h) (hmcu : inMcu h.seq.ph = true) (hc : coderOnly h x)
    (hs : StripState m x) {ph : Phase} (hph : inMcu ph = true) (hm : m ≤ bitBudget { h.seq with ph := ph }) :
    HwInv (gotoPhase ph x) := by
  have hseq := coderOnly_seq hc
  obtain ⟨hwidth, _⟩ := sameLaunch_of_coderOnly hc
  have hs' := stripState_blocks hs x.sb x.cf (q := { x.seq with ph := ph }) hs.aligned
  refine hwInv_of_mcu (bitRule_stripState.mono ?_ hs') hph ?_
  · change m ≤ bitBudget { x.seq with ph := ph }
    rw [hseq]
    exact hm
  · change x.seq.col.toNat < x.width.toNat
    rw [hseq, hwidth]
    exact hi.column hmcu

theorem nextColumn_toNat {tick : Nat} {col : BitVec 17} (h : col.toNat + 8 < 2 ^ 17) :
    (nextColumn tick col).toNat = col.toNat + 8 := by
  have h8 : (8 : BitVec 17).toNat = 8 := rfl
  rw [nextColumn, if_pos h, BitVec.toNat_add, h8, Nat.mod_eq_of_lt h]

/-- The column loop's test after the last block of a column (45 R139). -/
theorem hwInv_nextMcu {tick : Nat} {h x : Hardware} (hi : HwInv h) (hph : h.seq.ph = .encac2) (hc : coderOnly h x)
    (hs : StripState (bitBudget h.seq + 2016) x) : HwInv (nextMcu tick x) := by
  have hseq := coderOnly_seq hc
  obtain ⟨hwidth, _⟩ := sameLaunch_of_coderOnly hc
  have hcol : x.seq.col.toNat < x.width.toNat := by
    rw [hseq, hwidth]
    exact hi.column (by rw [hph]; rfl)
  have hlt := x.width.isLt
  have hcol8 := hs.aligned
  have hnext : (nextColumn tick x.seq.col).toNat = x.seq.col.toNat + 8 := nextColumn_toNat (by omega)
  have hbudget : bitBudget h.seq + 2016 = 768 * (x.seq.col.toNat + 8) := by
    rw [hseq]
    simp only [bitBudget, hph]
    omega
  have hs' := stripState_blocks hs x.sb x.cf (q := (nextMcu tick x).seq) (by rw [nextMcu_seq, hnext]; omega)
  by_cases hw : x.seq.col.toNat + 8 < x.width.toNat
  · have hq : (nextMcu tick x).seq = { ph := .csc, col := nextColumn tick x.seq.col } := by simp [hw]
    refine hwInv_of_mcu (bitRule_stripState.mono ?_ hs') (by rw [hq]; rfl) ?_
    · rw [hbudget, hq]
      simp [bitBudget, hnext]
    · rw [hq]
      change (nextColumn tick x.seq.col).toNat < x.width.toNat
      rw [hnext]
      exact hw
  · have hq : (nextMcu tick x).seq = { ph := .fin, col := nextColumn tick x.seq.col } := by simp [hw]
    refine hwInv_of_strip_end (bitRule_stripState.mono ?_ hs') (by rw [hq]; exact .inl rfl) ?_
      (by rw [hq]; intro hh; cases hh)
    · rw [hbudget, hq]
      simp [bitBudget, hnext]
    · rw [hq]
      change x.width.toNat ≤ (nextColumn tick x.seq.col).toNat ∧ (nextColumn tick x.seq.col).toNat ≤ 65536
      rw [hnext]
      omega

/-- A coding goes on with the invariant, or a miss traps. -/
theorem hwInv_coding {m : Nat} {s t : State} {next : Hardware → Hardware} {r : Coding}
    (hr : reaches (StripState m) r) (hc : reaches (coderOnly s.hw) r)
    (hnext : ∀ x, coderOnly s.hw x → StripState m x → HwInv (next x)) (h : codingOutcome s next r = .next t) :
    HwInv t.hw := by
  rcases codingOutcome_cases h with ⟨x, rfl, rfl⟩ | ⟨x, rfl, rfl⟩
  · exact hnext x hc hr
  · exact hwInv_takeTrap (by decide) (by decide) hr.legal

theorem hwInv_encdc {c : Component} {s t : State} (hi : HwInv s.hw) (hph : s.hw.seq.ph = encdcPhase c)
    (h : exec (encdcOp c) s = .next t) : HwInv t.hw := by
  have hmcu : inMcu s.hw.seq.ph = true := by rw [hph]; cases c <;> rfl
  have hs := stripState_of_hwInv hi (by simp [inStrip, hmcu])
  have hbudget : bitBudget s.hw.seq + 32 = bitBudget { s.hw.seq with ph := encacPhase c } := by
    cases c <;> simp [bitBudget, hph, encdcPhase, encacPhase]
  rw [exec_encdc] at h
  exact hwInv_coding (bitRule_stripState.encodeDc _ _ _ hs) (encodeDc_coderOnly _ _ _ _)
    (fun x hc hx => hwInv_gotoPhase hi hmcu hc hx (by cases c <;> rfl) hbudget.le) h

theorem hwInv_encac {c : Component} {s t : State} (hi : HwInv s.hw) (hph : s.hw.seq.ph = encacPhase c)
    (h : exec (encacOp c) s = .next t) : HwInv t.hw := by
  have hmcu : inMcu s.hw.seq.ph = true := by rw [hph]; cases c <;> rfl
  have hs := stripState_of_hwInv hi (by simp [inStrip, hmcu])
  rw [exec_encac] at h
  refine hwInv_coding (bitRule_stripState.encodeAc _ _ _ hs) (encodeAc_coderOnly _ _ _ _) (fun x hc hx => ?_) h
  cases c with
  | y => exact hwInv_gotoPhase hi hmcu hc hx rfl (by simp [bitBudget, hph, encacPhase])
  | cb => exact hwInv_gotoPhase hi hmcu hc hx rfl (by simp [bitBudget, hph, encacPhase])
  | cr => exact hwInv_nextMcu hi hph hc hx

theorem hwInv_flush {tick : Nat} {h x : Hardware} (hi : HwInv h) (hph : h.seq.ph = .fin) (hf : flush tick h = some x) :
    HwInv (gotoPhase .halt x) := by
  have hc := writerOnly_coderOnly (flush_writerOnly hf)
  have hseq := coderOnly_seq hc
  obtain ⟨hwidth, _⟩ := sameLaunch_of_coderOnly hc
  obtain ⟨hx, hcnt⟩ := stripState_flush (stripState_of_hwInv hi (by rw [hph]; rfl)) hf
  have hx' := stripState_blocks hx x.sb x.cf (q := { x.seq with ph := .halt }) hx.aligned
  refine hwInv_of_strip_end (bitRule_stripState.mono ?_ hx') (.inr rfl) ?_ (fun _ => hcnt)
  · change bitBudget h.seq + 8 ≤ bitBudget { x.seq with ph := .halt }
    rw [hseq]
    simp [bitBudget, hph]
  · change x.width.toNat ≤ x.seq.col.toNat ∧ x.seq.col.toNat ≤ 65536
    rw [hseq, hwidth]
    exact hi.finished (.inl hph)

theorem hwInv_endRun {h : Hardware} (hi : HwInv h) : HwInv (endRun h) :=
  hwInv_of_idle
    (legalState_of_status (hwInv_legalState hi) (fun sp => by cases sp <;> rfl) (.inr (.inr (.inl rfl))))
    rfl rfl (by intro he; cases he) hi.stuffing hi.capacity

/-- The scheduled operation keeps the invariant of the hardware. -/
theorem exec_hwInv {i : Instr} {s t : State} (hi : HwInv s.hw) (hs : Scheduled s.hw.seq i) (h : exec i s = .next t) :
    HwInv t.hw := by
  have hph := hs.phase
  cases coreOp_of_not_isHost hs.not_isHost with
  | chk => rw [exec_chk, nextHw_eq_next] at h; rw [h]; exact hwInv_checkLaunch hi hph
  | init => rw [exec_init, nextHw_eq_next] at h; rw [h]; exact hwInv_initStrip hi hph
  | csc col =>
    rw [(exec_csc_eq_next.1 h).2]
    simp only [colorConvert, hs.csc_operand.1]
    exact hwInv_blocks hi (by rw [hph]; rfl) _ s.hw.cf rfl (by simp [bitBudget, hph, phaseOf])
  | dctr c =>
    rw [exec_dctr, nextHw_eq_next] at h
    rw [phaseOf_dctrOp] at hph
    rw [h]
    refine hwInv_blocks hi ?_ _ s.hw.cf ?_ ?_ <;> cases c <;> simp [hph, inMcu, bitBudget, dctrPhase, dctcPhase]
  | dctc c =>
    rw [exec_dctc, nextHw_eq_next] at h
    rw [phaseOf_dctcOp] at hph
    rw [h]
    refine hwInv_blocks hi ?_ _ s.hw.cf ?_ ?_ <;> cases c <;> simp [hph, inMcu, bitBudget, dctcPhase, qntPhase]
  | qnt c =>
    rw [exec_qnt, nextHw_eq_next] at h
    rw [phaseOf_qntOp] at hph
    rw [h]
    refine hwInv_blocks hi ?_ s.hw.sb _ ?_ ?_ <;> cases c <;> simp [hph, inMcu, bitBudget, qntPhase, afterQnt]
  | encdc c => exact hwInv_encdc hi (hph.trans (phaseOf_encdcOp c)) h
  | encac c => exact hwInv_encac hi (hph.trans (phaseOf_encacOp c)) h
  | fin =>
    obtain ⟨x, hx, rfl⟩ := exec_fin_eq_next.1 h
    exact hwInv_flush hi hph hx
  | halt => rw [exec_halt, nextHw_eq_next] at h; rw [h]; exact hwInv_endRun hi
  | putb | trap => exact absurd hph hs.phase_ne_idle

/-! ## Samples -/

theorem carriedBlock_setComp {a : Arith} {sb : Triple (Block Sample)} {b : Block Sample} (c : Component)
    (hsb : ∀ (c : Component) (i : Fin 64), carried a (getComp sb c)[i] = true) (hb : ∀ i : Fin 64, carried a b[i] = true) :
    ∀ (c' : Component) (i : Fin 64), carried a (getComp (setComp sb c b) c')[i] = true := by
  intro c' i
  by_cases hc : c' = c
  · rw [hc, getComp_setComp]
    exact hb i
  · rw [getComp_setComp_of_ne sb hc]
    exact hsb c' i

theorem samplesCarried_of_sb {s t : State} (hs : samplesCarried s) (hcfg : t.cfg = s.cfg) (hsb : t.hw.sb = s.hw.sb) :
    samplesCarried t := by
  unfold samplesCarried
  rw [hcfg, hsb]
  exact hs

theorem coderOnly_sb {h h' : Hardware} (hc : coderOnly h h') : h'.sb = h.sb := by rw [hc]

theorem closeBlock_sb (tick : Nat) (c : Component) (h : Hardware) : (closeBlock tick c h).sb = h.sb := by
  cases c <;> rfl

theorem checkLaunch_sb (h : Hardware) : (checkLaunch h).sb = h.sb := by
  unfold checkLaunch
  split_ifs <;> rfl

theorem coding_sb {s t : State} {next : Hardware → Hardware} {r : Coding} (hc : reaches (coderOnly s.hw) r)
    (hnext : ∀ x, (next x).sb = x.sb) (h : codingOutcome s next r = .next t) : t.hw.sb = s.hw.sb := by
  rcases codingOutcome_cases h with ⟨x, rfl, rfl⟩ | ⟨x, rfl, rfl⟩
  · exact (hnext x).trans (coderOnly_sb hc)
  · exact coderOnly_sb (h' := x) hc

theorem hostEffect_sb {h h' : Hardware} (he : HostEffect h h') : h'.sb = h.sb := by
  cases he with
  | none => rfl
  | reg r data _ =>
    cases r with
    | ctrl => simp only [writeReg, writeCtrl]; split_ifs <;> rfl
    | _ => rfl
  | mem sp i b => exact storeByte_sb h sp i b

/-- The results of `CSC`, `DCTR` and `DCTC` are values of the carrier, and nothing else writes `SB`. -/
theorem exec_samplesCarried {i : Instr} {s t : State} (hs : samplesCarried s) (hi : i.isHost = false)
    (h : exec i s = .next t) : samplesCarried t := by
  have hkeep : t.hw.sb = s.hw.sb → samplesCarried t := samplesCarried_of_sb hs (exec_core_keeps hi h).1
  cases coreOp_of_not_isHost hi with
  | chk => rw [exec_chk, nextHw_eq_next] at h; exact hkeep (by rw [h]; exact checkLaunch_sb s.hw)
  | init => rw [exec_init, nextHw_eq_next] at h; exact hkeep (by rw [h]; rfl)
  | csc col =>
    rw [(exec_csc_eq_next.1 h).2]
    intro c i
    cases c <;> simp [colorConvert, getComp]
  | dctr c =>
    rw [exec_dctr, nextHw_eq_next] at h
    rw [h]
    exact carriedBlock_setComp c hs fun i => by simp
  | dctc c =>
    rw [exec_dctc, nextHw_eq_next] at h
    rw [h]
    exact carriedBlock_setComp c hs fun i => by simp
  | qnt c => rw [exec_qnt, nextHw_eq_next] at h; exact hkeep (by rw [h]; rfl)
  | encdc c =>
    rw [exec_encdc] at h
    exact hkeep (coding_sb (encodeDc_coderOnly _ _ _ _) (gotoPhase_sb · _) h)
  | encac c =>
    rw [exec_encac] at h
    exact hkeep (coding_sb (encodeAc_coderOnly _ _ _ _) (closeBlock_sb _ c) h)
  | putb n v =>
    obtain ⟨_, x, hx, ht⟩ := exec_putb_eq_next.1 h
    exact hkeep (by rw [ht]; exact coderOnly_sb (writerOnly_coderOnly (putBits_writerOnly hx)))
  | fin =>
    obtain ⟨x, hx, ht⟩ := exec_fin_eq_next.1 h
    exact hkeep (by rw [ht]; exact coderOnly_sb (h' := x) (writerOnly_coderOnly (flush_writerOnly hx)))
  | halt => rw [exec_halt, nextHw_eq_next] at h; exact hkeep (by rw [h]; rfl)
  | trap e => exact hkeep (by rw [(exec_trap_eq_next.1 h).2]; rfl)

theorem samplesCarried_resetHardware {s : State} {tick : Nat} (h : s.hw = resetHardware s.cfg.arith tick) :
    samplesCarried s := by
  intro c i
  rw [h]
  cases c <;> simp [resetHardware, getComp, freeSamples]

/-! ## The obligations -/

/-- Settles O50: at reset the core is idle, the memories are empty and `OUTLEN` is 0. -/
theorem invariantAtReset : Obligations.InvariantAtReset where
  hw := hwInv_of_idle_empty ⟨fun sp => by cases sp <;> exact ⟨rfl, by simp [State.reset, Hardware.reset, memoryOf]⟩, .inl rfl⟩
    rfl rfl rfl
  samples c i := by cases c <;> simp [State.reset, Hardware.reset, stdConfig, getComp, carried]
  listing := rfl

/-- Settles O51: by what a step can do from a listing of host operations. -/
theorem invariantKept : Obligations.InvariantKept := by
  intro s t hinv h
  obtain ⟨hmove, hcfg, hlist, _⟩ := step_of_hostListing hinv.listing h
  cases hmove with
  | host he => exact ⟨hwInv_hostEffect hinv.hw he, samplesCarried_of_sb hinv.samples hcfg (hostEffect_sb he), hlist⟩
  | reset _ ht =>
    exact ⟨ht ▸ hwInv_resetHardware _ _, samplesCarried_resetHardware (by rw [hcfg]; exact ht), hlist⟩
  | core i hs he =>
    exact ⟨exec_hwInv (s := advance s.env.listing s) hinv.hw hs he,
      exec_samplesCarried (s := advance s.env.listing s) hinv.samples hs.not_isHost he, hlist⟩

end Sys2Proof.Laws
end

section
/-! PROOFS. Bounds of a run's values under `Q30`, coarse and enough for the 16 bits of a coefficient. -/

namespace Sys2Proof.Laws

open Sys2Proof Sys2Proof.Machine

/-- Every sample of the block is at most `m` in magnitude. -/
def samplesWithin (m : ℚ) (b : Block Sample) : Prop := ∀ i (hi : i < 64), |exactOf b[i]| ≤ m

theorem byte_bounds (v : Byte) : (0 : ℚ) ≤ (v.toNat : ℚ) ∧ (v.toNat : ℚ) ≤ 255 := by
  have hv : v.toNat ≤ 255 := by have := v.isLt; omega
  exact ⟨by positivity, by exact_mod_cast hv⟩

theorem abs_convert_le (c : Component) (r g b : Byte) : |exactOf (convert (arithOps .q30) c r g b)| ≤ 256 := by
  obtain ⟨hr0, hr⟩ := byte_bounds r
  obtain ⟨hg0, hg⟩ := byte_bounds g
  obtain ⟨hb0, hb⟩ := byte_bounds b
  rw [abs_le]
  cases c <;> simp only [convert, arithOps, onRegisters, q30Ops, exactOf_exact] <;> constructor <;> linarith

/-- Eight inputs within `m` give outputs within `4 * m`: each output is a sum of the inputs with constants below 1/2. -/
theorem abs_dct8_le {m : ℚ} {x : Oct Sample} (hx : ∀ k, |exactOf (octGet x k)| ≤ m) (k : Fin 8) :
    |exactOf (octGet (dct8 (arithOps .q30) x) k)| ≤ 4 * m := by
  obtain ⟨l0, u0⟩ := abs_le.1 (hx 0)
  obtain ⟨l1, u1⟩ := abs_le.1 (hx 1)
  obtain ⟨l2, u2⟩ := abs_le.1 (hx 2)
  obtain ⟨l3, u3⟩ := abs_le.1 (hx 3)
  obtain ⟨l4, u4⟩ := abs_le.1 (hx 4)
  obtain ⟨l5, u5⟩ := abs_le.1 (hx 5)
  obtain ⟨l6, u6⟩ := abs_le.1 (hx 6)
  obtain ⟨l7, u7⟩ := abs_le.1 (hx 7)
  simp only [octGet] at l0 l1 l2 l3 l4 l5 l6 l7 u0 u1 u2 u3 u4 u5 u6 u7
  rw [abs_le]
  fin_cases k <;> simp only [octGet, dct8, arithOps, onRegisters, q30Ops, exactOf_exact, dctNumerator] <;> constructor <;>
    push_cast <;> linarith

theorem samplesWithin_rowTransform {m : ℚ} {b : Block Sample} (hb : samplesWithin m b) :
    samplesWithin (4 * m) (rowTransform (arithOps .q30) b) := by
  intro i hi
  rw [rowTransform_getElem]
  exact abs_dct8_le (fun k => by rw [rowOf, octGet_octOf]; exact hb _ _) _

theorem samplesWithin_columnTransform {m : ℚ} {b : Block Sample} (hb : samplesWithin m b) :
    samplesWithin (4 * m) (columnTransform (arithOps .q30) b) := by
  intro i hi
  rw [columnTransform_getElem]
  exact abs_dct8_le (fun k => by rw [columnOf, octGet_octOf]; exact hb _ _) _

/-- Rounding half away from zero does not leave a range with integer ends. -/
theorem abs_roundHalfAway_le {q : ℚ} {n : ℕ} (hq : |q| ≤ n) : (roundHalfAway q).natAbs ≤ n := by
  obtain ⟨hlo, hhi⟩ := abs_le.1 hq
  have floor_le : ∀ r : ℚ, 0 ≤ r → r ≤ n → 0 ≤ (r + 1 / 2).floor ∧ (r + 1 / 2).floor ≤ n := fun r h0 hr =>
    ⟨Rat.le_floor_iff.2 (by push_cast; linarith), by
      have : (r + 1 / 2).floor < (n : ℤ) + 1 := Rat.floor_lt_iff.2 (by push_cast; linarith)
      omega⟩
  unfold roundHalfAway
  split_ifs with h0
  · have := floor_le q h0 hhi
    omega
  · have := floor_le (-q) (by linarith) (by linarith)
    omega

/-- The register holds an integer of magnitude at most 4096. -/
def smallCoef (x : BitVec 16) : Prop := x.toInt.natAbs ≤ 4096

/-- With a nonzero step the quotient of a run's sample fits the register, and the free value plays no part (42 R103). -/
theorem quantize_of_small {step : Nat} {x : Sample} (hstep : step ≠ 0) (hx : |exactOf x| ≤ 4096) (free free' : BitVec 16) :
    quantize (arithOps .q30) step x free = quantize (arithOps .q30) step x free' ∧
      smallCoef (quantize (arithOps .q30) step x free) := by
  have hpos : (1 : ℚ) ≤ step := by exact_mod_cast Nat.one_le_iff_ne_zero.2 hstep
  have hquot : |exactOf x / step| ≤ (4096 : ℕ) := by
    rw [abs_div, abs_of_pos (by linarith : (0 : ℚ) < step)]
    exact (div_le_self (abs_nonneg _) hpos).trans (by exact_mod_cast hx)
  have hz : ((arithOps .q30).roundDiv x step).natAbs ≤ 4096 := abs_roundHalfAway_le hquot
  have heq : ∀ f, quantize (arithOps .q30) step x f = BitVec.ofInt 16 ((arithOps .q30).roundDiv x step) := fun f => by
    rw [quantize, if_neg hstep, coefOfInt, if_pos (by omega)]
  refine ⟨by rw [heq, heq], ?_⟩
  rw [heq, smallCoef, BitVec.toInt_ofInt_eq_self (by decide) (by omega) (by omega)]
  exact hz

/-- Below 2^15 in magnitude the category is below 16, so that it forms a symbol (43 R105, R107). -/
theorem category_lt_sixteen {v : Int} (hv : v.natAbs < 2 ^ 15) : category v < 16 :=
  Nat.lt_succ_of_le (bitLength_le hv)

end Sys2Proof.Laws
end

section
/-! PROOFS. Two codings that start alike go alike: the free values and the registers that a coding sets play no part. -/

namespace Sys2Proof.Laws

open Sys2Proof Sys2Proof.Machine Sys2Proof.Claims

/-! ## Two writers -/

/-- The writers of `h` and `h'` have the same output and the same pending bits. -/
structure SameWriter (h h' : Hardware) : Prop where
  canonical : h.out.wf = true
  canonical' : h'.out.wf = true
  output : outBytes h = outBytes h'
  acc : h.acc = h'.acc
  cnt : h.cnt = h'.cnt

theorem emitStuffed_alike {b : Byte} {h h' x x' : Hardware} (hwf : h.out.wf = true) (hwf' : h'.out.wf = true)
    (ho : outBytes h = outBytes h') (hx : emitStuffed b h = some x) (hx' : emitStuffed b h' = some x') :
    x.out.wf = true ∧ x'.out.wf = true ∧ outBytes x = outBytes x' := by
  obtain ⟨hw, heq⟩ := emitStuffed_outBytes hwf hx
  obtain ⟨hw', heq'⟩ := emitStuffed_outBytes hwf' hx'
  exact ⟨hw, hw', by rw [heq, heq', ho]⟩

theorem drain_alike {bytes : Nat} : ∀ {acc cnt : Nat} {h h' x x' : Hardware}, h.out.wf = true → h'.out.wf = true →
    outBytes h = outBytes h' → drain bytes acc cnt h = some x → drain bytes acc cnt h' = some x' → SameWriter x x' := by
  induction bytes with
  | zero =>
    intro acc cnt h h' x x' hwf hwf' ho hx hx'
    rw [drain_zero] at hx hx'
    cases hx
    cases hx'
    exact ⟨hwf, hwf', ho, rfl, rfl⟩
  | succ n ih =>
    intro acc cnt h h' x x' hwf hwf' ho hx hx'
    obtain ⟨y, hy, hd⟩ := drain_succ.1 hx
    obtain ⟨y', hy', hd'⟩ := drain_succ.1 hx'
    obtain ⟨hwfy, hwfy', hoy⟩ := emitStuffed_alike hwf hwf' ho hy hy'
    exact ih hwfy hwfy' hoy hd hd'

theorem putBits_alike {v n : Nat} {h h' x x' : Hardware} (hw : SameWriter h h') (hx : putBits v n h = some x)
    (hx' : putBits v n h' = some x') : SameWriter x x' := by
  unfold putBits at hx hx'
  split at hx
  · rw [if_pos (by assumption)] at hx'
    cases hx
    cases hx'
    exact hw
  · rw [if_neg (by assumption), ← hw.acc, ← hw.cnt] at hx'
    exact drain_alike hw.canonical hw.canonical' hw.output hx hx'

/-- The pending bits of a run are fewer than eight, and so the last byte is no free value. -/
theorem flush_alike {tick tick' : Nat} {h h' x x' : Hardware} (hw : SameWriter h h') (hcnt : h.cnt.toNat ≤ 7)
    (hx : flush tick h = some x) (hx' : flush tick' h' = some x') : SameWriter x x' := by
  unfold flush at hx hx'
  rw [← hw.cnt, ← hw.acc] at hx'
  split at hx
  · rw [if_pos (by assumption)] at hx'
    cases hx
    cases hx'
    exact hw
  · rw [if_neg (by assumption)] at hx'
    obtain ⟨y, hy, rfl⟩ := Option.map_eq_some_iff.1 hx
    obtain ⟨y', hy', rfl⟩ := Option.map_eq_some_iff.1 hx'
    rw [finalByte, if_pos (by omega)] at hy hy'
    obtain ⟨hwf, hwf', ho⟩ := emitStuffed_alike hw.canonical hw.canonical' hw.output hy hy'
    exact ⟨hwf, hwf', ho, rfl, rfl⟩

/-! ## Two codings -/

/-- Two codings that come to their ends, or miss, do so at hardware that `R` relates. -/
def alike (R : Hardware → Hardware → Prop) : Coding → Coding → Prop
  | .coded h, .coded h' => R h h'
  | .missed h, .missed h' => R h h'
  | .full, _ => True
  | _, .full => True
  | .coded _, .missed _ => False
  | .missed _, .coded _ => False

theorem alike_andThen {R : Hardware → Hardware → Prop} {r r' : Coding} {f f' : Hardware → Coding} (hr : alike R r r')
    (hf : ∀ x x', R x x' → alike R (f x) (f' x')) : alike R (andThen r f) (andThen r' f') := by
  cases r <;> cases r'
  case coded.coded x x' => exact hf x x' hr
  case missed.missed => exact hr
  case coded.missed => exact hr.elim
  case missed.coded => exact hr.elim
  case coded.full x => simp only [andThen]; cases f x <;> trivial
  case full.coded | full.missed | full.full | missed.full => trivial

/-- The predictors of a run are small. -/
def smallPred (p : Triple (BitVec 16)) : Prop := ∀ c, smallCoef (getComp p c)

/-- The coefficients of a run are small. -/
def smallCoefs (b : Block (BitVec 16)) : Prop := ∀ i (hi : i < 64), smallCoef b[i]

/-- What two codings of component `c` share at each of their points: everything of the coder but `RUN`, `K` and `LAST`. -/
structure SameCoder (c : Component) (h h' : Hardware) : Prop where
  writer : SameWriter h h'
  pred : h.pred = h'.pred
  predSmall : smallPred h.pred
  cf : getComp h.cf c = getComp h'.cf c
  cfSmall : smallCoefs (getComp h.cf c)

/-- What two scans share: `RUN` too, which each sets before it reads it. -/
structure SameScan (c : Component) (h h' : Hardware) : Prop where
  coder : SameCoder c h h'
  run : h.run = h'.run

theorem sameScan_set {c : Component} {h h' : Hardware} (hs : SameCoder c h h') {r r' : BitVec 5} (hr : r = r')
    (k k' last last' : BitVec 6) :
    SameScan c { h with run := r, k := k, last := last } { h' with run := r', k := k', last := last' } :=
  ⟨⟨⟨hs.writer.canonical, hs.writer.canonical', hs.writer.output, hs.writer.acc, hs.writer.cnt⟩, hs.pred, hs.predSmall,
    hs.cf, hs.cfSmall⟩, hr⟩

/-- `PUTB` of the same bits keeps the relation. -/
def keptByPutBits (R : Hardware → Hardware → Prop) : Prop :=
  ∀ ⦃v n : Nat⦄ ⦃h h' x x' : Hardware⦄, R h h' → putBits v n h = some x → putBits v n h' = some x' → R x x'

theorem sameCoder_kept (c : Component) : keptByPutBits (SameCoder c) := by
  intro v n h h' x x' hs hx hx'
  have hw := putBits_alike hs.writer hx hx'
  have hf := putBits_writerOnly hx
  have hf' := putBits_writerOnly hx'
  unfold writerOnly at hf hf'
  exact ⟨hw, by rw [hf, hf']; exact hs.pred, by rw [hf]; exact hs.predSmall, by rw [hf, hf']; exact hs.cf,
    by rw [hf]; exact hs.cfSmall⟩

theorem sameScan_kept (c : Component) : keptByPutBits (SameScan c) := by
  intro v n h h' x x' hs hx hx'
  have hf := putBits_writerOnly hx
  have hf' := putBits_writerOnly hx'
  unfold writerOnly at hf hf'
  exact ⟨sameCoder_kept c hs.coder hx hx', by rw [hf, hf']; exact hs.run⟩

section

variable {R : Hardware → Hardware → Prop} (hR : keptByPutBits R) {h h' : Hardware} (hs : R h h')

include hR hs

theorem ofWriter_alike (v n : Nat) : alike R (ofWriter (putBits v n h)) (ofWriter (putBits v n h')) := by
  cases hx : putBits v n h with
  | none => trivial
  | some x =>
    cases hx' : putBits v n h' with
    | none => trivial
    | some x' => exact hR hs hx hx'

theorem putCode_alike (code : Option HuffCode) : alike R (putCode code h) (putCode code h') := by
  cases code with
  | none => exact hs
  | some code => exact ofWriter_alike hR hs code.code.toNat code.len

theorem putExtra_alike (v : Int) : alike R (putExtra v h) (putExtra v h') := by
  unfold putExtra
  split
  · exact hs
  · exact ofWriter_alike hR hs _ _

end

theorem zigzag_natAbs_lt {b : Block (BitVec 16)} (hb : smallCoefs b) (k : Nat) : (zigzag b k).natAbs < 2 ^ 15 := by
  have := hb (zzNat k).val (zzNat k).isLt
  unfold smallCoef at this
  change (b[(zzNat k).val]).toInt.natAbs < 2 ^ 15
  omega

/-- `ENCDC`: the difference of two small values has a symbol, and so its code is no free value. -/
theorem encodeDc_alike {c : Component} {h h' : Hardware} (hs : SameCoder c h h') (cfg : Config) (tick tick' : Nat) :
    alike (SameCoder c) (encodeDc cfg tick c h) (encodeDc cfg tick' c h') := by
  have hkept := sameCoder_kept c
  have hdc : smallCoef ((getComp h.cf c)[0]) := hs.cfSmall 0 (by decide)
  have hsym : category (((getComp h.cf c)[0]).toInt - (getComp h.pred c).toInt) < 16 := category_lt_sixteen (by
    have hp := hs.predSmall c
    unfold smallCoef at hdc hp
    omega)
  have hpred : smallPred (setComp h.pred c (getComp h.cf c)[0]) := by
    intro c'
    by_cases hc : c' = c
    · rw [hc, getComp_setComp]
      exact hdc
    · rw [getComp_setComp_of_ne h.pred hc]
      exact hs.predSmall c'
  unfold encodeDc
  simp only [← hs.cf, ← hs.pred, dcSymbol, if_pos hsym]
  refine alike_andThen (putCode_alike hkept ?_ _) (fun x x' hx => putExtra_alike hkept hx _)
  exact ⟨⟨hs.writer.canonical, hs.writer.canonical', hs.writer.output, hs.writer.acc, hs.writer.cnt⟩, rfl, hpred, hs.cf,
    hs.cfSmall⟩

section

variable {c : Component} {h h' : Hardware} (hs : SameScan c h h') (cfg : Config) (tick tick' : Nat)

include hs

theorem acZero_alike : alike (SameScan c) (acZero cfg tick c h) (acZero cfg tick' c h') := by
  unfold acZero
  rw [← hs.run]
  split
  · exact alike_andThen (putCode_alike (sameScan_kept c) hs _)
      (fun x x' hx => sameScan_set hx.coder rfl x.k x'.k x.last x'.last)
  · exact sameScan_set hs.coder rfl h.k h'.k h.last h'.last

theorem acNonzero_alike {v : Int} (hv : v.natAbs < 2 ^ 15) :
    alike (SameScan c) (acNonzero cfg tick c v h) (acNonzero cfg tick' c v h') := by
  have hkept := sameScan_kept c
  have hsym := category_lt_sixteen hv
  unfold acNonzero
  simp only [← hs.run, acSymbol, if_pos hsym]
  exact alike_andThen (putCode_alike hkept hs _) (fun x x' hx =>
    alike_andThen (putExtra_alike hkept hx v) (fun y y' hy => sameScan_set hy.coder rfl y.k y'.k y.last y'.last))

theorem acPosition_alike (pos : Nat) : alike (SameScan c) (acPosition cfg tick c pos h) (acPosition cfg tick' c pos h') := by
  have hk : SameScan c { h with k := BitVec.ofNat 6 pos } { h' with k := BitVec.ofNat 6 pos } :=
    sameScan_set hs.coder hs.run _ _ h.last h'.last
  unfold acPosition
  simp only [← hs.coder.cf]
  split
  · exact acZero_alike hk cfg tick tick'
  · exact acNonzero_alike hk cfg tick tick' (zigzag_natAbs_lt hs.coder.cfSmall pos)

end

theorem acScan_alike {c : Component} (cfg : Config) (tick tick' : Nat) (positions : List Nat) :
    ∀ {h h' : Hardware}, SameScan c h h' →
      alike (SameScan c) (acScan cfg tick c positions h) (acScan cfg tick' c positions h') := by
  induction positions with
  | nil => intro h h' hs; exact hs
  | cons pos rest ih =>
    intro h h' hs
    exact alike_andThen (acPosition_alike hs cfg tick tick' pos) (fun x x' hx => ih hx)

/-- `ENCAC` sets `RUN`, `K` and `LAST` itself, and small coefficients have symbols. -/
theorem encodeAc_alike {c : Component} {h h' : Hardware} (hs : SameCoder c h h') (cfg : Config) (tick tick' : Nat) :
    alike (SameScan c) (encodeAc cfg tick c h) (encodeAc cfg tick' c h') := by
  unfold encodeAc
  simp only [← hs.cf]
  refine alike_andThen (acScan_alike cfg tick tick' _ (sameScan_set hs rfl h.k h'.k _ _)) (fun x x' hx => ?_)
  unfold acEnd
  split
  · exact hx
  · exact putCode_alike (sameScan_kept c) hx _

end Sys2Proof.Laws
end

section
/-! PROOFS. Two runs from the same launch state: at each operation of the core they share what is live there, and so they end
alike (10 R33, R36). -/

namespace Sys2Proof.Laws

open Sys2Proof Sys2Proof.Machine Sys2Proof.Claims

/-! ## What is live at a phase -/

/-- How many transform passes the samples of a component have had, at the phases that still read them. -/
def passesAt : Phase → Component → Option Nat
  | .dctr0, _ => some 0
  | .dctc0, .y => some 1
  | .dctc0, _ => some 0
  | .qnt0, .y => some 2
  | .qnt0, _ => some 0
  | .dctr1, .cb => some 0
  | .dctr1, .cr => some 0
  | .dctc1, .cb => some 1
  | .dctc1, .cr => some 0
  | .qnt1, .cb => some 2
  | .qnt1, .cr => some 0
  | .dctr2, .cr => some 0
  | .dctc2, .cr => some 1
  | .qnt2, .cr => some 2
  | _, _ => none

/-- The coefficients of a component are those of the column that the core is at. -/
def coefsReady : Phase → Component → Bool
  | .dctr1, c | .dctc1, c | .qnt1, c => c == .y
  | .dctr2, c | .dctc2, c | .qnt2, c => c != .cr
  | .encdc0, _ | .encac0, _ | .encdc1, _ | .encac1, _ | .encdc2, _ | .encac2, _ => true
  | _, _ => false

theorem passesAt_dctrPhase (c : Component) : passesAt (dctrPhase c) c = some 0 := by cases c <;> rfl

theorem passesAt_dctcPhase (c c' : Component) :
    passesAt (dctcPhase c) c' = if c' = c then some 1 else passesAt (dctrPhase c) c' := by
  cases c <;> cases c' <;> rfl

theorem passesAt_qntPhase (c c' : Component) :
    passesAt (qntPhase c) c' = if c' = c then some 2 else passesAt (dctcPhase c) c' := by
  cases c <;> cases c' <;> rfl

theorem passesAt_afterQnt (c c' : Component) :
    passesAt (afterQnt c) c' = if c' = c then none else passesAt (qntPhase c) c' := by
  cases c <;> cases c' <;> rfl

theorem coefsReady_dctcPhase (c : Component) : coefsReady (dctcPhase c) = coefsReady (dctrPhase c) := by
  cases c <;> rfl

theorem coefsReady_qntPhase (c : Component) : coefsReady (qntPhase c) = coefsReady (dctcPhase c) := by
  cases c <;> rfl

theorem coefsReady_afterQnt (c c' : Component) :
    coefsReady (afterQnt c) c' = (c' == c || coefsReady (qntPhase c) c') := by
  cases c <;> cases c' <;> rfl

/-- Before `CSC` and after the last column no block is read. -/
theorem nothing_live_of_csc_or_fin {ph : Phase} (h : ph = .csc ∨ ph = .fin) (c : Component) :
    passesAt ph c = none ∧ coefsReady ph c = false := by
  rcases h with rfl | rfl <;> exact ⟨rfl, rfl⟩

/-! ## Two runs at the same operation -/

/-- The same samples, within the range that `n` passes leave. -/
def sameSamples (n : Nat) (b b' : Block Sample) : Prop := b = b' ∧ samplesWithin (4 ^ n * 256) b

/-- The same coefficients, and small. -/
def sameCoefs (b b' : Block (BitVec 16)) : Prop := b = b' ∧ smallCoefs b

/-- What two runs share throughout: the launch state, the output so far, and that no step of the quantizer is zero. -/
structure SameRun (h h' : Hardware) : Prop where
  busy : h.status = statusBusy
  busy' : h'.status = statusBusy
  launch : sameLaunch h h'
  steps : h.width = 0 ∨ stepsNonzero h
  canonical : h.out.wf = true
  canonical' : h'.out.wf = true
  output : outBytes h = outBytes h'

/-- What they share while the writer is live. -/
structure SameStrip (h h' : Hardware) : Prop where
  col : h.seq.col = h'.seq.col
  writer : SameWriter h h'
  pending : h.cnt.toNat ≤ 7
  pred : h.pred = h'.pred
  predSmall : smallPred h.pred

/-- Two runs at the same phase, alike in all that is live there. -/
structure InStep (h h' : Hardware) : Prop where
  phase : h.seq.ph = h'.seq.ph
  running : h.seq.ph ≠ .idle
  run : SameRun h h'
  strip : inMcu h.seq.ph = true ∨ h.seq.ph = .fin → SameStrip h h'
  column : inMcu h.seq.ph = true → h.seq.col.toNat < h.width.toNat
  samples : ∀ c n, passesAt h.seq.ph c = some n → sameSamples n (getComp h.sb c) (getComp h'.sb c)
  coefs : ∀ c, coefsReady h.seq.ph c = true → sameCoefs (getComp h.cf c) (getComp h'.cf c)

/-- Two runs that have ended with the same result. -/
structure SameEnd (h h' : Hardware) : Prop where
  idle : h.seq.ph = .idle
  idle' : h'.seq.ph = .idle
  status : h.status = h'.status
  output : outBytes h = outBytes h'

theorem sameEnd_takeTrap (e : BitVec 4) (h h' : Hardware) : SameEnd (takeTrap e h) (takeTrap e h') :=
  ⟨rfl, rfl, rfl, by rw [outBytes_of_outlen rfl, outBytes_of_outlen rfl]⟩

theorem sameEnd_endRun {h h' : Hardware} (hr : SameRun h h') : SameEnd (endRun h) (endRun h') :=
  ⟨rfl, rfl, rfl, hr.output⟩

theorem sameRun_coder {h h' x x' : Hardware} (hr : SameRun h h') (hc : coderOnly h x) (hc' : coderOnly h' x')
    (hw : SameWriter x x') : SameRun x x' := by
  refine ⟨?_, ?_, ?_, ?_, hw.canonical, hw.canonical', hw.output⟩
  · rw [coderOnly_status hc]; exact hr.busy
  · rw [coderOnly_status hc']; exact hr.busy'
  · rw [hc, hc']; exact hr.launch
  · rw [hc]; exact hr.steps

/-! ## The sequencer's operations -/

theorem inStep_checkLaunch {h h' : Hardware} (hi : InStep h h') :
    InStep (checkLaunch h) (checkLaunch h') ∨ SameEnd (checkLaunch h) (checkLaunch h') := by
  obtain ⟨hw, hp, hql, hqc, _⟩ := hi.run.launch
  have hr := hi.run
  unfold checkLaunch
  rw [hw, hp, hql, hqc]
  split_ifs
  · exact .inr (sameEnd_takeTrap 1 h h')
  · exact .inr (sameEnd_takeTrap 2 h h')
  · exact .inl
      { phase := rfl
        running := by simp [gotoPhase]
        run := ⟨hr.busy, hr.busy', hr.launch, hr.steps, hr.canonical, hr.canonical', hr.output⟩
        strip := by simp [gotoPhase, inMcu]
        column := by simp [gotoPhase, inMcu]
        samples := by simp [gotoPhase, passesAt]
        coefs := by simp [gotoPhase, coefsReady] }

theorem initStrip_phase (h : Hardware) : (initStrip h).seq.ph = if 0 < h.width.toNat then .csc else .fin := rfl

theorem inStep_initStrip {h h' : Hardware} (hi : InStep h h') : InStep (initStrip h) (initStrip h') := by
  have hr := hi.run
  have hwidth : h'.width = h.width := hr.launch.1
  have hph : (initStrip h).seq.ph = .csc ∨ (initStrip h).seq.ph = .fin := by
    rw [initStrip_phase]; split <;> simp
  exact
    { phase := by rw [initStrip_phase, initStrip_phase, hwidth]
      running := fun hidle => by rw [hidle] at hph; rcases hph with hp | hp <;> cases hp
      run := ⟨hr.busy, hr.busy', hr.launch, hr.steps, hr.canonical, hr.canonical', hr.output⟩
      strip := fun _ =>
        { col := rfl
          writer := ⟨hr.canonical, hr.canonical', hr.output, rfl, rfl⟩
          pending := Nat.zero_le 7
          pred := rfl
          predSmall := fun c => by cases c <;> exact Nat.zero_le 4096 }
      column := fun hmcu => by
        change 0 < h.width.toNat
        by_contra hw
        rw [initStrip_phase, if_neg hw] at hmcu
        cases hmcu
      samples := fun c n hn => by rw [(nothing_live_of_csc_or_fin hph c).1] at hn; cases hn
      coefs := fun c hc => by rw [(nothing_live_of_csc_or_fin hph c).2] at hc; cases hc }

/-! ## The datapath's operations -/

/-- A datapath operation goes on to a later phase of the column; what is live there is to be shown. -/
theorem inStep_blocks {h h' : Hardware} (hi : InStep h h') (hmcu : inMcu h.seq.ph = true) {sb sb' : Triple (Block Sample)}
    {cf cf' : Triple (Block (BitVec 16))} {ph : Phase} (hph : inMcu ph = true)
    (hsamples : ∀ c n, passesAt ph c = some n → sameSamples n (getComp sb c) (getComp sb' c))
    (hcoefs : ∀ c, coefsReady ph c = true → sameCoefs (getComp cf c) (getComp cf' c)) :
    InStep { h with sb := sb, cf := cf, seq := { h.seq with ph := ph } }
      { h' with sb := sb', cf := cf', seq := { h'.seq with ph := ph } } := by
  have hr := hi.run
  have hs := hi.strip (.inl hmcu)
  exact
    { phase := rfl
      running := fun hidle => by change ph = .idle at hidle; rw [hidle] at hph; cases hph
      run := ⟨hr.busy, hr.busy', hr.launch, hr.steps, hr.canonical, hr.canonical', hr.output⟩
      strip := fun _ => ⟨hs.col, ⟨hs.writer.canonical, hs.writer.canonical', hs.writer.output, hs.writer.acc, hs.writer.cnt⟩,
        hs.pending, hs.pred, hs.predSmall⟩
      column := fun _ => hi.column hmcu
      samples := hsamples
      coefs := hcoefs }

/-- With a positive width `CSC` reads bytes of the strip only (40 R80). -/
theorem sampleBlock_alike {h h' : Hardware} (hl : sameLaunch h h') (hw : h.width.toNat ≠ 0) (A : ArithOps Sample)
    (tick tick' col : Nat) (c : Component) : sampleBlock A tick col h c = sampleBlock A tick' col h' c := by
  obtain ⟨hwidth, _, _, _, hpix, _, _⟩ := hl
  have hbyte : ∀ r j ch, channelByte tick col r j ch h = channelByte tick' col r j ch h' := fun r j ch => by
    unfold channelByte
    rw [hwidth, hpix, if_neg hw, if_neg hw]
  ext i hi
  simp only [sampleBlock_getElem, hbyte]

theorem sameSamples_sampleBlock {h h' : Hardware} (hl : sameLaunch h h') (hw : h.width.toNat ≠ 0)
    (tick tick' col : Nat) (c : Component) :
    sameSamples 0 (sampleBlock (arithOps .q30) tick col h c) (sampleBlock (arithOps .q30) tick' col h' c) := by
  refine ⟨sampleBlock_alike hl hw _ tick tick' col c, fun i hi => ?_⟩
  rw [sampleBlock_getElem]
  simpa using abs_convert_le c _ _ _

theorem sameSamples_rowTransform {n : Nat} {b b' : Block Sample} (hb : sameSamples n b b') :
    sameSamples (n + 1) (rowTransform (arithOps .q30) b) (rowTransform (arithOps .q30) b') := by
  obtain ⟨rfl, hb⟩ := hb
  refine ⟨rfl, ?_⟩
  rw [pow_succ', mul_assoc]
  exact samplesWithin_rowTransform hb

theorem sameSamples_columnTransform {n : Nat} {b b' : Block Sample} (hb : sameSamples n b b') :
    sameSamples (n + 1) (columnTransform (arithOps .q30) b) (columnTransform (arithOps .q30) b') := by
  obtain ⟨rfl, hb⟩ := hb
  refine ⟨rfl, ?_⟩
  rw [pow_succ', mul_assoc]
  exact samplesWithin_columnTransform hb

theorem stepOf_alike {h h' : Hardware} (hl : sameLaunch h h') (c : Component) (i : Nat) : stepOf h' c i = stepOf h c i := by
  obtain ⟨_, _, _, _, _, hql, hqc⟩ := hl
  cases c <;> simp [stepOf, stepSpace, memoryOf, hql, hqc]

theorem stepOf_ne_zero {h : Hardware} (hs : stepsNonzero h) (c : Component) {i : Nat} (hi : i < 64) : stepOf h c i ≠ 0 := by
  obtain ⟨hql, hqc⟩ := hs i hi
  have toNat_ne : ∀ b : Byte, b ≠ 0 → b.toNat ≠ 0 := fun b hb h0 => hb (BitVec.eq_of_toNat_eq h0)
  cases c with
  | y => exact toNat_ne _ hql
  | cb | cr => exact toNat_ne _ hqc

theorem sameCoefs_quantizeBlock {h h' : Hardware} (hl : sameLaunch h h') (hs : stepsNonzero h) (tick tick' : Nat)
    {c : Component} (hb : sameSamples 2 (getComp h.sb c) (getComp h'.sb c)) :
    sameCoefs (quantizeBlock (arithOps .q30) tick h c) (quantizeBlock (arithOps .q30) tick' h' c) := by
  obtain ⟨heq, hwithin⟩ := hb
  have hx : ∀ i (hi : i < 64), |exactOf (getComp h.sb c)[i]| ≤ 4096 := fun i hi =>
    (hwithin i hi).trans (by norm_num)
  constructor
  · ext1 i hi
    rw [quantizeBlock_getElem, quantizeBlock_getElem, stepOf_alike hl, ← heq]
    exact (quantize_of_small (stepOf_ne_zero hs c hi) (hx i hi) _ _).1
  · intro i hi
    rw [quantizeBlock_getElem]
    exact (quantize_of_small (stepOf_ne_zero hs c hi) (hx i hi) _ 0).2

/-- After a pass over one component the samples of the others are as they were. -/
theorem sameSamples_setComp {n : Nat} {c : Component} {sb sb' : Triple (Block Sample)} {b b' : Block Sample} {ph ph' : Phase}
    (hb : sameSamples n b b') (hnext : ∀ c', passesAt ph' c' = if c' = c then some n else passesAt ph c')
    (hsb : ∀ c n, passesAt ph c = some n → sameSamples n (getComp sb c) (getComp sb' c)) :
    ∀ c' m, passesAt ph' c' = some m → sameSamples m (getComp (setComp sb c b) c') (getComp (setComp sb' c b') c') := by
  intro c' m hm
  rw [hnext] at hm
  by_cases hc : c' = c
  · rw [if_pos hc] at hm
    cases hm
    rw [hc, getComp_setComp, getComp_setComp]
    exact hb
  · rw [if_neg hc] at hm
    rw [getComp_setComp_of_ne sb hc, getComp_setComp_of_ne sb' hc]
    exact hsb c' m hm

section

variable {h h' : Hardware} (hi : InStep h h') {c : Component}

include hi

theorem inStep_rowPass (hph : h.seq.ph = dctrPhase c) :
    InStep (rowPass (arithOps .q30) c (dctcPhase c) h) (rowPass (arithOps .q30) c (dctcPhase c) h') := by
  have hb := sameSamples_rowTransform (hi.samples c 0 (by rw [hph]; exact passesAt_dctrPhase c))
  refine inStep_blocks hi (by rw [hph]; cases c <;> rfl) (by cases c <;> rfl) (sameSamples_setComp hb ?_ hi.samples)
    (fun c' hc' => hi.coefs c' ?_)
  · rw [hph]; exact passesAt_dctcPhase c
  · rw [hph, ← coefsReady_dctcPhase]; exact hc'

theorem inStep_columnPass (hph : h.seq.ph = dctcPhase c) :
    InStep (columnPass (arithOps .q30) c (qntPhase c) h) (columnPass (arithOps .q30) c (qntPhase c) h') := by
  have hb := sameSamples_columnTransform (hi.samples c 1 (by rw [hph, passesAt_dctcPhase, if_pos rfl]))
  refine inStep_blocks hi (by rw [hph]; cases c <;> rfl) (by cases c <;> rfl) (sameSamples_setComp hb ?_ hi.samples)
    (fun c' hc' => hi.coefs c' ?_)
  · rw [hph]; exact passesAt_qntPhase c
  · rw [hph, ← coefsReady_qntPhase]; exact hc'

theorem inStep_width_pos (hmcu : inMcu h.seq.ph = true) : h.width.toNat ≠ 0 := by
  have := hi.column hmcu
  omega

theorem inStep_stepsNonzero (hmcu : inMcu h.seq.ph = true) : stepsNonzero h :=
  hi.run.steps.resolve_left fun h0 => inStep_width_pos hi hmcu (by rw [h0]; rfl)

theorem inStep_quantizePass (hph : h.seq.ph = qntPhase c) (tick tick' : Nat) :
    InStep (quantizePass (arithOps .q30) tick c (afterQnt c) h) (quantizePass (arithOps .q30) tick' c (afterQnt c) h') := by
  have hmcu : inMcu h.seq.ph = true := by rw [hph]; cases c <;> rfl
  have hb := sameCoefs_quantizeBlock hi.run.launch (inStep_stepsNonzero hi hmcu) tick tick'
    (hi.samples c 2 (by rw [hph, passesAt_qntPhase, if_pos rfl]))
  refine inStep_blocks hi hmcu (by cases c <;> rfl) (fun c' n hn => hi.samples c' n ?_) (fun c' hc' => ?_)
  · rw [passesAt_afterQnt] at hn
    rw [hph]
    split at hn
    · cases hn
    · exact hn
  · by_cases hc : c' = c
    · rw [hc, getComp_setComp, getComp_setComp]
      exact hb
    · rw [coefsReady_afterQnt, beq_false_of_ne hc, Bool.false_or, ← hph] at hc'
      rw [getComp_setComp_of_ne h.cf hc, getComp_setComp_of_ne h'.cf hc]
      exact hi.coefs c' hc'

end

theorem colorConvert_of_scheduled {h : Hardware} {col : BitVec 16} (hs : Scheduled h.seq (.csc col)) (A : ArithOps Sample)
    (tick : Nat) :
    colorConvert A tick col h = { h with
      sb := ⟨sampleBlock A tick col.toNat h .y, sampleBlock A tick col.toNat h .cb, sampleBlock A tick col.toNat h .cr⟩
      cf := h.cf, seq := { h.seq with ph := .dctr0 } } := by
  rw [colorConvert, hs.csc_operand.1]

theorem inStep_colorConvert {h h' : Hardware} (hi : InStep h h') {col : BitVec 16} (hs : Scheduled h.seq (.csc col))
    (hs' : Scheduled h'.seq (.csc col)) (tick tick' : Nat) :
    InStep (colorConvert (arithOps .q30) tick col h) (colorConvert (arithOps .q30) tick' col h') := by
  have hmcu : inMcu h.seq.ph = true := by rw [hs.phase]; rfl
  have hsamples := sameSamples_sampleBlock hi.run.launch (inStep_width_pos hi hmcu) tick tick' col.toNat
  rw [colorConvert_of_scheduled hs, colorConvert_of_scheduled hs']
  refine inStep_blocks hi hmcu rfl (fun c n hn => ?_) (fun c hc => by cases hc)
  cases hn
  cases c with
  | y => exact hsamples .y
  | cb => exact hsamples .cb
  | cr => exact hsamples .cr

/-! ## The coder's operations -/

/-- The pending count stays below 8 along a coding. -/
theorem bitRule_pending : BitRule fun _ h => h.cnt.toNat ≤ 7 where
  put {m v n h h'} hcnt hp := by
    unfold putBits at hp
    split at hp
    · cases hp; exact hcnt
    · have := (drain_counts rfl hp).1
      omega
  mono _ h := h
  coder _ _ _ _ h := h

theorem reaches_and {P Q : Hardware → Prop} {r : Coding} (hp : reaches P r) (hq : reaches Q r) :
    reaches (fun x => P x ∧ Q x) r := by
  cases r with
  | coded x => exact ⟨hp, hq⟩
  | missed x => exact ⟨hp, hq⟩
  | full => trivial

theorem sameCoder_of_inStep {h h' : Hardware} {c : Component} (hi : InStep h h') (hmcu : inMcu h.seq.ph = true)
    (hready : coefsReady h.seq.ph c = true) : SameCoder c h h' := by
  have hs := hi.strip (.inl hmcu)
  exact ⟨hs.writer, hs.pred, hs.predSmall, (hi.coefs c hready).1, (hi.coefs c hready).2⟩

/-- Where a coding from `h` ends: it touched the coder's fields, and fewer than eight bits are pending. -/
def codedFrom (h x : Hardware) : Prop := coderOnly h x ∧ x.cnt.toNat ≤ 7

section

variable {h h' x x' : Hardware} (hi : InStep h h') (hmcu : inMcu h.seq.ph = true) {c : Component} (hx : codedFrom h x)
  (hx' : codedFrom h' x') (hs : SameCoder c x x')

include hi hmcu hx hx' hs

theorem sameStrip_coded : SameStrip x x' :=
  ⟨by rw [coderOnly_seq hx.1, coderOnly_seq hx'.1]; exact (hi.strip (.inl hmcu)).col, hs.writer, hx.2, hs.pred, hs.predSmall⟩

theorem inStep_gotoPhase {ph : Phase} (hph : inMcu ph = true) (hsamples : ∀ c, passesAt ph c = none)
    (hready : ∀ c, coefsReady h.seq.ph c = true) : InStep (gotoPhase ph x) (gotoPhase ph x') := by
  have hr := sameRun_coder hi.run hx.1 hx'.1 hs.writer
  have hstrip := sameStrip_coded hi hmcu hx hx' hs
  have hcf : x.cf = h.cf := by rw [hx.1]
  have hcf' : x'.cf = h'.cf := by rw [hx'.1]
  exact
    { phase := rfl
      running := fun hidle => by change ph = .idle at hidle; rw [hidle] at hph; cases hph
      run := ⟨hr.busy, hr.busy', hr.launch, hr.steps, hr.canonical, hr.canonical', hr.output⟩
      strip := fun _ => ⟨hstrip.col, ⟨hr.canonical, hr.canonical', hr.output, hstrip.writer.acc, hstrip.writer.cnt⟩,
        hstrip.pending, hstrip.pred, hstrip.predSmall⟩
      column := fun _ => by
        change x.seq.col.toNat < x.width.toNat
        rw [coderOnly_seq hx.1, (sameLaunch_of_coderOnly hx.1).1]
        exact hi.column hmcu
      samples := fun c n hn => by rw [show passesAt (gotoPhase ph x).seq.ph c = none from hsamples c] at hn; cases hn
      coefs := fun c _ => by
        change sameCoefs (getComp x.cf c) (getComp x'.cf c)
        rw [hcf, hcf']
        exact hi.coefs c (hready c) }

theorem inStep_nextMcu (tick tick' : Nat) : InStep (nextMcu tick x) (nextMcu tick' x') := by
  have hr := sameRun_coder hi.run hx.1 hx'.1 hs.writer
  have hstrip := sameStrip_coded hi hmcu hx hx' hs
  have hcol : x.seq.col.toNat < x.width.toNat := by
    rw [coderOnly_seq hx.1, (sameLaunch_of_coderOnly hx.1).1]
    exact hi.column hmcu
  have hwidth := x.width.isLt
  have hroom : x.seq.col.toNat + 8 < 2 ^ 17 := by omega
  have hseq : (nextMcu tick x).seq = (nextMcu tick' x').seq := by
    simp only [nextMcu_seq, ← hstrip.col, hr.launch.1, nextColumn, if_pos hroom]
  have hph : (nextMcu tick x).seq.ph = .csc ∨ (nextMcu tick x).seq.ph = .fin := by
    rw [nextMcu_seq]
    simp only
    split <;> simp
  exact
    { phase := congrArg Seq.ph hseq
      running := fun hidle => by rw [hidle] at hph; rcases hph with hp | hp <;> cases hp
      run := ⟨hr.busy, hr.busy', hr.launch, hr.steps, hr.canonical, hr.canonical', hr.output⟩
      strip := fun _ => ⟨congrArg Seq.col hseq,
        ⟨hr.canonical, hr.canonical', hr.output, hstrip.writer.acc, hstrip.writer.cnt⟩, hstrip.pending, hstrip.pred,
        hstrip.predSmall⟩
      column := fun hmcu' => by
        change (nextColumn tick x.seq.col).toNat < x.width.toNat
        rw [nextColumn_toNat hroom]
        by_contra hw
        rw [nextMcu_seq] at hmcu'
        simp only [if_neg hw] at hmcu'
        cases hmcu'
      samples := fun c n hn => by rw [(nothing_live_of_csc_or_fin hph c).1] at hn; cases hn
      coefs := fun c hc => by rw [(nothing_live_of_csc_or_fin hph c).2] at hc; cases hc }

end

/-- Two codings that go alike both come to their ends, or both trap. -/
theorem codingOutcome_alike {R : Hardware → Hardware → Prop} {s s' t t' : State} {next next' : Hardware → Hardware}
    {r r' : Coding} (hr : reaches (codedFrom s.hw) r) (hr' : reaches (codedFrom s'.hw) r') (halike : alike R r r')
    (hnext : ∀ x x', codedFrom s.hw x → codedFrom s'.hw x' → R x x' → InStep (next x) (next' x'))
    (h : codingOutcome s next r = .next t) (h' : codingOutcome s' next' r' = .next t') :
    InStep t.hw t'.hw ∨ SameEnd t.hw t'.hw := by
  rcases codingOutcome_cases h with ⟨x, rfl, rfl⟩ | ⟨x, rfl, rfl⟩ <;>
    rcases codingOutcome_cases h' with ⟨x', rfl, rfl⟩ | ⟨x', rfl, rfl⟩
  · exact .inl (hnext x x' hr hr' halike)
  · exact halike.elim
  · exact halike.elim
  · exact .inr (sameEnd_takeTrap 3 x x')

section

variable {s s' t t' : State} (hcfg : s'.cfg = s.cfg) (hi : InStep s.hw s'.hw) {c : Component}

include hcfg hi

theorem inStep_encdc (hph : s.hw.seq.ph = encdcPhase c) (h : exec (encdcOp c) s = .next t)
    (h' : exec (encdcOp c) s' = .next t') : InStep t.hw t'.hw ∨ SameEnd t.hw t'.hw := by
  have hmcu : inMcu s.hw.seq.ph = true := by rw [hph]; cases c <;> rfl
  have hready : ∀ c', coefsReady s.hw.seq.ph c' = true := by rw [hph]; cases c <;> exact fun _ => rfl
  have hs := hi.strip (.inl hmcu)
  rw [exec_encdc] at h h'
  rw [hcfg] at h'
  refine codingOutcome_alike (R := SameCoder c) ?_ ?_ ?_ (fun x x' hx hx' hR => ?_) h h'
  · exact reaches_and (encodeDc_coderOnly _ _ _ _) (bitRule_pending.encodeDc (m := 0) _ _ _ hs.pending)
  · exact reaches_and (encodeDc_coderOnly _ _ _ _) (bitRule_pending.encodeDc (m := 0) _ _ _ (hs.writer.cnt ▸ hs.pending))
  · exact encodeDc_alike (sameCoder_of_inStep hi hmcu (hready c)) _ _ _
  · exact inStep_gotoPhase hi hmcu hx hx' hR (by cases c <;> rfl) (by cases c <;> exact fun _ => rfl) hready

theorem inStep_encac (hph : s.hw.seq.ph = encacPhase c) (h : exec (encacOp c) s = .next t)
    (h' : exec (encacOp c) s' = .next t') : InStep t.hw t'.hw ∨ SameEnd t.hw t'.hw := by
  have hmcu : inMcu s.hw.seq.ph = true := by rw [hph]; cases c <;> rfl
  have hready : ∀ c', coefsReady s.hw.seq.ph c' = true := by rw [hph]; cases c <;> exact fun _ => rfl
  have hs := hi.strip (.inl hmcu)
  rw [exec_encac] at h h'
  rw [hcfg] at h'
  refine codingOutcome_alike (R := SameScan c) ?_ ?_ ?_ (fun x x' hx hx' hR => ?_) h h'
  · exact reaches_and (encodeAc_coderOnly _ _ _ _) (bitRule_pending.encodeAc (m := 0) _ _ _ hs.pending)
  · exact reaches_and (encodeAc_coderOnly _ _ _ _) (bitRule_pending.encodeAc (m := 0) _ _ _ (hs.writer.cnt ▸ hs.pending))
  · exact encodeAc_alike (sameCoder_of_inStep hi hmcu (hready c)) _ _ _
  · cases c with
    | y => exact inStep_gotoPhase hi hmcu hx hx' hR.coder rfl (fun _ => rfl) hready
    | cb => exact inStep_gotoPhase hi hmcu hx hx' hR.coder rfl (fun _ => rfl) hready
    | cr => exact inStep_nextMcu hi hmcu hx hx' hR.coder _ _

end

theorem inStep_flush {h h' x x' : Hardware} {tick tick' : Nat} (hi : InStep h h') (hph : h.seq.ph = .fin)
    (hx : flush tick h = some x) (hx' : flush tick' h' = some x') : InStep (gotoPhase .halt x) (gotoPhase .halt x') := by
  have hs := hi.strip (.inr hph)
  have hr := sameRun_coder hi.run (writerOnly_coderOnly (flush_writerOnly hx)) (writerOnly_coderOnly (flush_writerOnly hx'))
    (flush_alike hs.writer hs.pending hx hx')
  exact
    { phase := rfl
      running := by simp [gotoPhase]
      run := ⟨hr.busy, hr.busy', hr.launch, hr.steps, hr.canonical, hr.canonical', hr.output⟩
      strip := by simp [gotoPhase, inMcu]
      column := by simp [gotoPhase, inMcu]
      samples := by simp [gotoPhase, passesAt]
      coefs := by simp [gotoPhase, coefsReady] }

/-! ## One operation of each run -/

/-- The same phase, and at `CSC` the same column, schedule the same operation. -/
theorem scheduledOp_congr {q q' : Seq} (hph : q.ph = q'.ph) (hcol : q.ph = .csc → q.col = q'.col) :
    scheduledOp q = scheduledOp q' := by
  obtain ⟨ph, col⟩ := q
  obtain ⟨ph', col'⟩ := q'
  cases hph
  cases ph with
  | csc => cases hcol rfl; rfl
  | _ => rfl

theorem inStep_scheduled {h h' : Hardware} {i i' : Instr} (hi : InStep h h') (hs : Scheduled h.seq i)
    (hs' : Scheduled h'.seq i') : i' = i := by
  have heq := scheduledOp_congr hi.phase fun hcsc => (hi.strip (.inl (by rw [hcsc]; rfl))).col
  rw [hs.op, hs'.op] at heq
  exact (Option.some.inj heq).symm

/-- The scheduled operation takes two runs in step to two runs in step, or ends both alike. -/
theorem exec_inStep {i : Instr} {s s' t t' : State} (hq : s.cfg.arith = .q30) (hcfg : s'.cfg = s.cfg)
    (hi : InStep s.hw s'.hw) (hs : Scheduled s.hw.seq i) (hs' : Scheduled s'.hw.seq i) (h : exec i s = .next t)
    (h' : exec i s' = .next t') : InStep t.hw t'.hw ∨ SameEnd t.hw t'.hw := by
  have hph := hs.phase
  have hq' : s'.cfg.arith = .q30 := hcfg ▸ hq
  cases coreOp_of_not_isHost hs.not_isHost with
  | chk =>
    rw [exec_chk, nextHw_eq_next] at h h'
    rw [h, h']
    exact inStep_checkLaunch hi
  | init =>
    rw [exec_init, nextHw_eq_next] at h h'
    rw [h, h']
    exact .inl (inStep_initStrip hi)
  | csc col =>
    rw [(exec_csc_eq_next.1 h).2, (exec_csc_eq_next.1 h').2, hq, hq']
    exact .inl (inStep_colorConvert hi hs hs' _ _)
  | dctr c =>
    rw [exec_dctr, nextHw_eq_next] at h h'
    rw [h, h', hq, hq']
    exact .inl (inStep_rowPass hi (hph.trans (phaseOf_dctrOp c)))
  | dctc c =>
    rw [exec_dctc, nextHw_eq_next] at h h'
    rw [h, h', hq, hq']
    exact .inl (inStep_columnPass hi (hph.trans (phaseOf_dctcOp c)))
  | qnt c =>
    rw [exec_qnt, nextHw_eq_next] at h h'
    rw [h, h', hq, hq']
    exact .inl (inStep_quantizePass hi (hph.trans (phaseOf_qntOp c)) _ _)
  | encdc c => exact inStep_encdc hcfg hi (hph.trans (phaseOf_encdcOp c)) h h'
  | encac c => exact inStep_encac hcfg hi (hph.trans (phaseOf_encacOp c)) h h'
  | fin =>
    obtain ⟨x, hx, rfl⟩ := exec_fin_eq_next.1 h
    obtain ⟨x', hx', rfl⟩ := exec_fin_eq_next.1 h'
    exact .inl (inStep_flush hi hph hx hx')
  | halt =>
    rw [exec_halt, nextHw_eq_next] at h h'
    rw [h, h']
    exact .inr (sameEnd_endRun hi.run)
  | putb | trap => exact absurd hph hs.phase_ne_idle

/-! ## The whole run -/

theorem endsAfter_idle {n : Nat} {s t : State} (he : endsAfter n s t) (hph : s.hw.seq.ph = .idle) : t = s := by
  obtain ⟨hrun, _, hfirst⟩ := he
  cases n with
  | zero => exact (Host.Outcome.next.inj hrun).symm
  | succ n => exact absurd hph (hfirst 0 (Nat.succ_pos n) s rfl)

/-- A run that has not ended takes a step and ends one step sooner from there. -/
theorem endsAfter_step {n : Nat} {s t : State} (he : endsAfter n s t) (hph : s.hw.seq.ph ≠ .idle) :
    ∃ m u, n = m + 1 ∧ step s = .next u ∧ endsAfter m u t := by
  obtain ⟨hrun, hidle, hfirst⟩ := he
  cases n with
  | zero => cases hrun; exact absurd hidle hph
  | succ m =>
    simp only [runSteps] at hrun
    split at hrun
    · rename_i u hu
      refine ⟨m, u, rfl, hu, hrun, hidle, fun k hk w hw => hfirst (k + 1) (by omega) w (runSteps_succ hu hw)⟩
    · cases hrun
    · cases hrun

theorem currentTurn_ne_reset {s : State} (hu : undisturbed s) : currentTurn s ≠ .reset := by
  unfold currentTurn
  split
  · rename_i t ts ht
    exact hu.1 t (by rw [ht]; exact List.mem_cons_self)
  · split <;> simp

/-- An undisturbed run, however the host's operations stand between, comes to its next operation of the core with the
hardware as it was. -/
theorem endsAfter_core {n : Nat} : ∀ {s t : State}, undisturbed s → s.hw.status.busy = true → s.hw.seq.ph ≠ .idle →
    endsAfter n s t → ∃ m u s₁ i, m < n ∧ s₁.hw = s.hw ∧ s₁.cfg = s.cfg ∧ Scheduled s.hw.seq i ∧ exec i s₁ = .next u ∧
      u.cfg = s.cfg ∧ undisturbed u ∧ endsAfter m u t := by
  induction n with
  | zero =>
    intro s t _ _ hph he
    obtain ⟨m, _, hm, _⟩ := endsAfter_step he hph
    cases hm
  | succ n ih =>
    intro s t hu hbusy hph he
    obtain ⟨m, u, hm, hstep, he'⟩ := endsAfter_step he hph
    cases hm
    obtain ⟨hmove, hcfg, hlist, hturns⟩ := step_of_hostListing hu.2 hstep
    have hu' : undisturbed u := ⟨fun x hx => hu.1 x (List.mem_of_mem_tail (hturns ▸ hx)), hlist⟩
    cases hmove with
    | reset hr => exact absurd hr (currentTurn_ne_reset hu)
    | core i hs hx => exact ⟨n, u, advance s.env.listing s, i, Nat.lt_succ_self n, rfl, rfl, hs, hx, hcfg, hu', he'⟩
    | host heff =>
      have hhw : u.hw = s.hw := heff.eq_of_busy hbusy
      obtain ⟨k, v, s₁, i, hk, hs₁, hc₁, hs, hx, hv⟩ := ih hu' (by rw [hhw]; exact hbusy) (by rw [hhw]; exact hph) he'
      rw [hhw] at hs₁ hs
      rw [hcfg] at hc₁ hv
      exact ⟨k, v, s₁, i, Nat.lt_succ_of_lt hk, hs₁, hc₁, hs, hx, hv⟩

theorem InStep.busy {h h' : Hardware} (hi : InStep h h') : h.status.busy = true ∧ h'.status.busy = true := by
  rw [hi.run.busy, hi.run.busy']
  exact ⟨rfl, rfl⟩

/-- Two undisturbed runs in step end alike, by induction on the steps of the first. -/
theorem endsAfter_alike (n : Nat) : ∀ {n' : Nat} {s s' t t' : State}, s.cfg.arith = .q30 → s'.cfg = s.cfg → undisturbed s →
    undisturbed s' → InStep s.hw s'.hw → endsAfter n s t → endsAfter n' s' t' → SameEnd t.hw t'.hw := by
  induction n using Nat.strong_induction_on with
  | _ n ih =>
    intro n' s s' t t' hq hcfg hu hu' hi he he'
    have hph' : s'.hw.seq.ph ≠ .idle := hi.phase ▸ hi.running
    obtain ⟨m, u, s₁, i, hm, hhw, hc, hs, hx, huc, hud, hue⟩ := endsAfter_core hu hi.busy.1 hi.running he
    obtain ⟨m', u', s₁', i', _, hhw', hc', hs', hx', huc', hud', hue'⟩ := endsAfter_core hu' hi.busy.2 hph' he'
    cases inStep_scheduled hi hs hs'
    have hi₁ : InStep s₁.hw s₁'.hw := by rw [hhw, hhw']; exact hi
    have hq₁ : s₁.cfg.arith = .q30 := by rw [hc]; exact hq
    have hcfg₁ : s₁'.cfg = s₁.cfg := by rw [hc, hc']; exact hcfg
    rcases exec_inStep hq₁ hcfg₁ hi₁ (hhw ▸ hs) (hhw' ▸ hs') hx hx' with hnext | hend
    · exact ih m hm (by rw [huc]; exact hq) (by rw [huc, huc']; exact hcfg) hud hud' hnext hue hue'
    · rw [endsAfter_idle hue hend.idle, endsAfter_idle hue' hend.idle']
      exact hend

/-- At the launch nothing is live but the launch state. -/
theorem inStep_started {h h' : Hardware} (hs : started h) (hs' : started h') (hl : sameLaunch h h')
    (hsteps : h.width = 0 ∨ stepsNonzero h) (hwf : h.out.wf = true) (hwf' : h'.out.wf = true) : InStep h h' := by
  obtain ⟨hph, hst, h0⟩ := hs
  obtain ⟨hph', hst', h0'⟩ := hs'
  exact
    { phase := hph.trans hph'.symm
      running := by simp [hph]
      run := ⟨hst, hst', hl, hsteps, hwf, hwf', by rw [outBytes_of_outlen h0, outBytes_of_outlen h0']⟩
      strip := by simp [hph, inMcu]
      column := by simp [hph, inMcu]
      samples := by simp [hph, passesAt]
      coefs := by simp [hph, coefsReady] }

/-- Settles O57: the two runs start in step, each operation of the core keeps them in step, and they end alike. -/
theorem hiddenStateIsDead : Obligations.HiddenStateIsDead := by
  intro s s' t t' n n' hs hs' hu hu' hcfg hq hl hsteps hwf hwf' he he'
  have hend := endsAfter_alike n hq hcfg.symm hu hu' (inStep_started hs hs' hl hsteps hwf hwf') he he'
  exact ⟨hend.status, hend.output⟩

end Sys2Proof.Laws
end

section
/-! PROOFS. An operation of the host always completes and, while `BUSY`, only answers (20 R52); in a state with the
invariant a step answers a next state. -/

namespace Sys2Proof.Laws

open Sys2Proof Sys2Proof.Machine Sys2Proof.Claims

/-! ## The operations of the host complete -/

/-- How an operation of the host completes: it only answers, or it performs one write, while idle only (45 R129 to R133). -/
inductive HostOutcome (s : State) : Host.Outcome State Fault Refusal → Prop
  | answer (r : BusResponse) : HostOutcome s (respond s r)
  | write (x : Hardware) : s.hw.status.busy = false → HostOutcome s (written s x)

theorem HostOutcome.isNext {s : State} {o : Host.Outcome State Fault Refusal} (h : HostOutcome s o) : ∃ t, o = .next t := by
  cases h with
  | answer r => exact ⟨_, rfl⟩
  | write x _ => exact ⟨_, rfl⟩

theorem HostOutcome.answer_of_busy {s : State} {o : Host.Outcome State Fault Refusal} (h : HostOutcome s o)
    (hbusy : s.hw.status.busy = true) : ∃ r, o = respond s r := by
  cases h with
  | answer r => exact ⟨r, rfl⟩
  | write x hidle => rw [hbusy] at hidle; cases hidle

theorem exec_hostOutcome {i : Instr} (hi : i.isHost = true) (s : State) : HostOutcome s (exec i s) := by
  cases i with
  | hwr8 addr data =>
    change HostOutcome s (execHwr8 addr data s)
    unfold execHwr8
    split
    · exact .answer _
    · split
      · exact .answer _
      · exact .write _ (Bool.eq_false_iff.2 ‹_›)
  | hwr32 addr data =>
    change HostOutcome s (execHwr32 addr data s)
    unfold execHwr32
    split
    · exact .answer _
    · split
      · exact .answer _
      · exact .write _ (Bool.eq_false_iff.2 ‹_›)
  | hrd8 addr seen =>
    change HostOutcome s (execHrd8 addr s)
    unfold execHrd8
    split <;> exact .answer _
  | hrd32 addr seen =>
    change HostOutcome s (execHrd32 addr s)
    unfold execHrd32
    split <;> exact .answer _
  | _ => cases hi

/-- A read of `STATUS` returns its value, whether `BUSY` or not (45 R131). -/
theorem exec_readStatus (seen : Word) (s : State) :
    exec (.hrd32 0x04 seen) s = respond s (.word (statusWord s.hw.status)) := rfl

theorem respond_inj {s : State} {r r' : BusResponse} (h : respond s r = respond s r') : r = r' :=
  congrArg (·.env.resp) (Host.Outcome.next.inj h)

/-- Settles O46: while `BUSY` an operation of the host only answers. -/
theorem hostCannotDisturbRun : Obligations.HostCannotDisturbRun := by
  intro i s hi hbusy
  obtain ⟨r, hr⟩ := (exec_hostOutcome hi s).answer_of_busy hbusy
  refine ⟨_, hr, rfl, ?_⟩
  rintro seen rfl
  exact respond_inj (hr.symm.trans (exec_readStatus seen s))

/-! ## The scheduled operation completes -/

theorem codingOutcome_isNext {m : Nat} {r : Coding} (hr : endsWithin m r) (s : State) (next : Hardware → Hardware) :
    ∃ t, codingOutcome s next r = .next t := by
  cases r with
  | coded x => exact ⟨_, rfl⟩
  | missed x => exact ⟨_, rfl⟩
  | full => exact hr.elim

/-- With the invariant `OUT` has room for one more block: a block needs at most 1270 bytes. -/
theorem hwInv_room {h : Hardware} (hi : HwInv h) : h.outlen.toNat + 1270 ≤ capacity .out := by
  have hcap := hi.capacity
  rw [capacity_out]
  omega

/-- The scheduled operation finds its column aligned and room in `OUT`. -/
theorem exec_scheduled_isNext {i : Instr} {s : State} (hi : HwInv s.hw) (hs : Scheduled s.hw.seq i) :
    ∃ t, exec i s = .next t := by
  have hroom := hwInv_room hi
  have hph := hs.phase
  cases coreOp_of_not_isHost hs.not_isHost with
  | chk => exact ⟨_, exec_chk s⟩
  | init => exact ⟨_, exec_init s⟩
  | csc col =>
    have haligned : s.hw.seq.col.toNat % 8 = 0 := hi.aligned (by rw [hph]; rfl)
    exact ⟨_, exec_csc_eq_next.2 ⟨hs.csc_operand.2 ▸ haligned, rfl⟩⟩
  | dctr c => exact ⟨_, exec_dctr c s⟩
  | dctc c => exact ⟨_, exec_dctc c s⟩
  | qnt c => exact ⟨_, exec_qnt c s⟩
  | encdc c =>
    rw [exec_encdc]
    exact codingOutcome_isNext (encodeDc_room _ _ _ _ (by omega)) _ _
  | encac c =>
    rw [exec_encac]
    exact codingOutcome_isNext (encodeAc_room _ _ _ _ hroom) _ _
  | fin =>
    obtain ⟨x, hx⟩ := flush_isSome (tick := s.env.tick) (h := s.hw) (by omega)
    exact ⟨_, exec_fin_eq_next.2 ⟨x, hx, rfl⟩⟩
  | halt => exact ⟨_, exec_halt s⟩
  | putb | trap => exact absurd hph hs.phase_ne_idle

/-! ## What the next step does is defined -/

theorem map_pair_append {x : Except DecodeError Instr} {ws rest : List Word} {i : Instr}
    (h : x.map (·, ws) = .ok (i, rest)) (more : List Word) : x.map (·, ws ++ more) = .ok (i, rest ++ more) := by
  cases x with
  | error e => cases h
  | ok j => cases h; rfl

/-- What decodes, decodes alike with more words after it (30 R60). -/
theorem decode_append {ws rest : List Word} {i : Instr} (hd : decode ws = .ok (i, rest)) (more : List Word) :
    decode (ws ++ more) = .ok (i, rest ++ more) := by
  cases ws with
  | nil => cases hd
  | cons w0 ws =>
    simp only [List.cons_append, decode] at hd ⊢
    split_ifs at hd ⊢
    · match ws with
      | [] | [_] => cases hd
      | w1 :: w2 :: ws => exact map_pair_append hd more
    · exact map_pair_append hd more

/-- A listing of host operations that is not empty begins with an operation. -/
theorem decode_of_hostListing {w : Word} {ws : List Word} (hl : hostListing (w :: ws) = true) :
    ∃ i rest, decode (w :: ws) = .ok (i, rest) := by
  match ws with
  | [] | [_] => cases hl
  | w1 :: w2 :: ws =>
    simp only [hostListing, Bool.and_eq_true] at hl
    obtain ⟨hfirst, _⟩ := hl
    split at hfirst
    · rename_i i hd
      exact ⟨i, ws, decode_append hd ws⟩
    · cases hfirst

/-- In a macroblock column the column is below `WIDTH`, so that `CSC` can name it. -/
theorem csc_column_lt {h : Hardware} (hi : HwInv h) (hph : h.seq.ph = .csc) : h.seq.col.toNat < 2 ^ 16 :=
  (hi.column (by rw [hph]; rfl)).trans h.width.isLt

/-- The core has no step, or it can perform its scheduled operation. -/
theorem coreActivity_cases {s : State} (hi : HwInv s.hw) :
    coreActivity s = .idle ∨ ∃ i, Scheduled s.hw.seq i ∧ coreActivity s = .op i s.env.listing := by
  unfold coreActivity
  split
  · exact .inl rfl
  · rename_i i hop
    have hcol := csc_column_lt hi
    exact .inr ⟨i, ⟨hop, hcol⟩, if_neg fun hbad => Nat.not_lt.2 hbad.2 (hcol hbad.1)⟩

/-- The host has nothing to do, or its next operation is one of a host. -/
theorem listingActivity_cases {s : State} (hl : hostListing s.env.listing = true) :
    listingActivity s = .idle ∨ ∃ i rest, i.isHost = true ∧ listingActivity s = .op i rest := by
  unfold listingActivity
  split
  · exact .inl rfl
  · rename_i w ws hws
    rw [hws] at hl
    obtain ⟨i, rest, hd⟩ := decode_of_hostListing hl
    exact .inr ⟨i, rest, (hostListing_decode hl hd).1, by rw [hd]⟩

/-- Settles O52: the core performs its scheduled operation, the host an operation of its own, or nothing is performed. -/
theorem invariantSafe : Obligations.InvariantSafe := by
  intro s hinv
  unfold step nextActivity
  cases currentTurn s with
  | core =>
    rcases coreActivity_cases hinv.hw with ha | ⟨i, hs, ha⟩
    · exact ⟨_, by rw [ha]⟩
    · simp only [ha]
      exact exec_scheduled_isNext (s := advance s.env.listing s) hinv.hw hs
  | host =>
    rcases listingActivity_cases hinv.listing with ha | ⟨i, rest, hi, ha⟩
    · exact ⟨_, by rw [ha]⟩
    · simp only [ha]
      exact (exec_hostOutcome hi (advance rest s)).isNext
  | reset => exact ⟨_, rfl⟩

end Sys2Proof.Laws
end

section
/-! PROOFS. The decoder and the encoder are inverse to each other on the well-formed operations (30 R55 to R60), and so what is
no encoding is reserved (30 R59). -/

namespace Sys2Proof.Laws

open Sys2Proof Sys2Proof.Machine Sys2Proof.Claims

/-! ## The fields of a word -/

/-- Two adjacent fields have the values `a` and `b`. -/
theorem extractLsb'_eq_append_iff {w m n k k' : Nat} {x : BitVec w} {a : BitVec m} {b : BitVec n} (hk : k' = k + n) :
    x.extractLsb' k' m = a ∧ x.extractLsb' k n = b ↔ x.extractLsb' k (m + n) = a ++ b := by
  rw [← BitVec.extractLsb'_append_extractLsb'_eq_extractLsb' hk]
  constructor
  · rintro ⟨rfl, rfl⟩
    rfl
  · intro h
    exact ⟨by simpa [BitVec.extractLsb'_append_eq_left] using congrArg (BitVec.extractLsb' n m) h,
      by simpa [BitVec.extractLsb'_append_eq_right] using congrArg (BitVec.extractLsb' 0 n) h⟩

theorem eq_plainWord_iff {w : Word} {op : BitVec 8} : w = op ++ 0#24 ↔ opOf w = op ∧ immOf w = 0#24 := by
  rw [opOf, immOf, extractLsb'_eq_append_iff, BitVec.extractLsb'_eq_self]
  rfl

/-- The word of a `CSC` (30 R57). -/
theorem eq_cscWord_iff {w : Word} {col : BitVec 16} :
    w = 0x18#8 ++ 0#8 ++ col ↔ opOf w = 0x18#8 ∧ w.extractLsb' 16 8 = 0#8 ∧ w.extractLsb' 0 16 = col := by
  rw [← and_assoc, opOf, extractLsb'_eq_append_iff, extractLsb'_eq_append_iff, BitVec.extractLsb'_eq_self]
  all_goals rfl

/-- The word of a `PUTB` (30 R57). -/
theorem eq_putbWord_iff {w : Word} {n : BitVec 5} {v : BitVec 16} :
    w = 0x40#8 ++ 0#3 ++ n ++ v ↔
      opOf w = 0x40#8 ∧ w.extractLsb' 21 3 = 0#3 ∧ w.extractLsb' 16 5 = n ∧ w.extractLsb' 0 16 = v := by
  rw [← and_assoc, ← and_assoc, opOf, extractLsb'_eq_append_iff, extractLsb'_eq_append_iff,
    extractLsb'_eq_append_iff, BitVec.extractLsb'_eq_self]
  all_goals rfl

/-- The word of a `TRAP` (30 R57). -/
theorem eq_trapWord_iff {w : Word} {e : BitVec 4} :
    w = 0x4C#8 ++ 0#20 ++ e ↔ opOf w = 0x4C#8 ∧ w.extractLsb' 4 20 = 0#20 ∧ w.extractLsb' 0 4 = e := by
  rw [← and_assoc, opOf, extractLsb'_eq_append_iff, extractLsb'_eq_append_iff, BitVec.extractLsb'_eq_self]
  all_goals rfl

/-- A data word that holds one byte (30 R56). -/
theorem eq_byteWord_iff {w : Word} {b : Byte} : w = 0#24 ++ b ↔ w.extractLsb' 8 24 = 0#24 ∧ w.extractLsb' 0 8 = b := by
  rw [extractLsb'_eq_append_iff, BitVec.extractLsb'_eq_self]
  rfl

theorem isFormatH_eq (w : Word) : isFormatH w = (opOf w).msb := by
  rw [isFormatH, opOf, BitVec.msb_eq_getLsbD_last, BitVec.getLsbD_extractLsb']
  rfl

theorem opOf_eq {w : Word} {op : Nat} (h : (opOf w).toNat = op) : opOf w = BitVec.ofNat 8 op := by
  rw [← h, BitVec.ofNat_toNat, BitVec.setWidth_eq]

/-! ## What decodes is an encoding -/

/-- A decoder with one check answers exactly when the check holds. -/
theorem guarded_eq_ok {c : Prop} [Decidable c] {i j : Instr} {e : DecodeError} :
    (if c then .ok i else .error e : Except DecodeError Instr) = .ok j ↔ c ∧ i = j := by
  by_cases hc : c <;> simp [hc]

theorem encode_of_decodePlain {w : Word} {op : Nat} {i j : Instr} (hop : (opOf w).toNat = op)
    (h : decodePlain w i = .ok j) (hi : encode i = [BitVec.ofNat 8 op ++ 0#24]) : i = j ∧ encode j = [w] := by
  obtain ⟨himm, rfl⟩ := guarded_eq_ok.1 h
  exact ⟨rfl, by rw [hi, ← eq_plainWord_iff.2 ⟨opOf_eq hop, himm⟩]⟩

/-- What a Format U word decodes to has that word (30 R55, R57). -/
theorem encode_of_decodeU {w : Word} {i : Instr} (h : decodeU w = .ok i) : i.wellFormed = true ∧ encode i = [w] := by
  unfold decodeU at h
  split at h
  -- `CSC`, `PUTB`, `TRAP`, and a reserved `op`; the operations left have no operand
  case h_3 hop =>
    obtain ⟨⟨hzero, hcol⟩, rfl⟩ := guarded_eq_ok.1 h
    exact ⟨beq_iff_eq.2 hcol, by rw [encode, ← eq_cscWord_iff.2 ⟨opOf_eq hop, hzero, rfl⟩]⟩
  case h_19 hop =>
    obtain ⟨⟨hzero, hn, hv⟩, rfl⟩ := guarded_eq_ok.1 h
    refine ⟨by simp only [Instr.wellFormed, hn, hv, decide_true, Bool.and_self], ?_⟩
    rw [encode, Nat.mod_eq_of_lt hv, BitVec.ofNat_toNat, BitVec.setWidth_eq,
      ← eq_putbWord_iff.2 ⟨opOf_eq hop, hzero, rfl, rfl⟩]
  case h_22 hop =>
    obtain ⟨⟨hzero, h1, h3⟩, rfl⟩ := guarded_eq_ok.1 h
    exact ⟨by simp only [Instr.wellFormed, h1, h3, decide_true, Bool.and_self],
      by rw [encode, ← eq_trapWord_iff.2 ⟨opOf_eq hop, hzero, rfl⟩]⟩
  case h_23 => cases h
  all_goals
    obtain ⟨rfl, hw⟩ := encode_of_decodePlain ‹_› h (by rfl)
    exact ⟨rfl, hw⟩

/-- What three Format H words decode to has those words (30 R56). -/
theorem encode_of_decodeH {w0 w1 w2 : Word} {i : Instr} (h : decodeH w0 w1 w2 = .ok i) :
    i.wellFormed = true ∧ encode i = [w0, w1, w2] := by
  unfold decodeH at h
  split at h
  case h_1 hop | h_3 hop =>
    obtain ⟨⟨himm, hzero⟩, rfl⟩ := guarded_eq_ok.1 h
    exact ⟨rfl, by rw [encode, ← eq_byteWord_iff.2 ⟨hzero, rfl⟩, eq_plainWord_iff.2 ⟨opOf_eq hop, himm⟩]; rfl⟩
  case h_2 hop | h_4 hop =>
    obtain ⟨himm, rfl⟩ := guarded_eq_ok.1 h
    exact ⟨rfl, by rw [eq_plainWord_iff.2 ⟨opOf_eq hop, himm⟩]; rfl⟩
  case h_5 => cases h

theorem map_pair_eq_ok {x : Except DecodeError Instr} {ws rest : List Word} {i : Instr} :
    x.map (·, ws) = .ok (i, rest) ↔ x = .ok i ∧ ws = rest := by
  cases x <;> simp [Except.map]

/-- Settles O2: one word or three, by the format. -/
theorem encodeOfDecode : Obligations.EncodeOfDecode := by
  intro ws i rest h
  cases ws with
  | nil => cases h
  | cons w0 ws =>
    simp only [decode] at h
    split_ifs at h
    · match ws with
      | [] | [_] => cases h
      | w1 :: w2 :: ws =>
        obtain ⟨hH, rfl⟩ := map_pair_eq_ok.1 h
        obtain ⟨hwf, hw⟩ := encode_of_decodeH hH
        exact ⟨hwf, by rw [hw]; rfl⟩
    · obtain ⟨hU, rfl⟩ := map_pair_eq_ok.1 h
      obtain ⟨hwf, hw⟩ := encode_of_decodeU hU
      exact ⟨hwf, by rw [hw]; rfl⟩

/-! ## An encoding decodes -/

/-- Bit 31 of a word is the top bit of its `op` (30 R54). -/
theorem isFormatH_eq_msb (w : Word) : isFormatH w = (opOf w).msb := by
  rw [isFormatH, opOf, BitVec.msb_eq_getLsbD_last, BitVec.getLsbD_extractLsb']
  rfl

theorem decode_formatU {w : Word} {op : BitVec 8} (hop : opOf w = op) (hfmt : op.msb = false) (rest : List Word) :
    decode (w :: rest) = (decodeU w).map (·, rest) := by
  simp only [decode, isFormatH_eq_msb, hop, hfmt]
  rfl

theorem decode_formatH {w0 : Word} {op : BitVec 8} (hop : opOf w0 = op) (hfmt : op.msb = true) (w1 w2 : Word)
    (rest : List Word) : decode (w0 :: w1 :: w2 :: rest) = (decodeH w0 w1 w2).map (·, rest) := by
  simp only [decode, isFormatH_eq_msb, hop, hfmt]
  rfl

theorem decodeU_of_csc {w : Word} (hop : opOf w = 0x18#8) : decodeU w = decodeCsc w := by
  rw [decodeU, hop]
  rfl

theorem decodeU_of_putb {w : Word} (hop : opOf w = 0x40#8) : decodeU w = decodePutb w := by
  rw [decodeU, hop]
  rfl

theorem decodeU_of_trap {w : Word} (hop : opOf w = 0x4C#8) : decodeU w = decodeTrap w := by
  rw [decodeU, hop]
  rfl

theorem decodeH_of_hwr8 {w0 : Word} (hop : opOf w0 = 0x80#8) (w1 w2 : Word) :
    decodeH w0 w1 w2 = decodeByteData w0 w2 (.hwr8 w1) := by
  rw [decodeH, hop]
  rfl

theorem decodeH_of_hrd8 {w0 : Word} (hop : opOf w0 = 0x84#8) (w1 w2 : Word) :
    decodeH w0 w1 w2 = decodeByteData w0 w2 (.hrd8 w1) := by
  rw [decodeH, hop]
  rfl

theorem decodeByteData_eq_ok {w0 : Word} (himm : immOf w0 = 0) (b : Byte) (mk : Byte → Instr) :
    decodeByteData w0 (0#24 ++ b) mk = .ok (mk b) := by
  obtain ⟨hzero, hb⟩ := eq_byteWord_iff.1 (rfl : 0#24 ++ b = 0#24 ++ b)
  exact guarded_eq_ok.2 ⟨⟨himm, hzero⟩, by rw [hb]⟩

/-- The words of a well-formed operation decode to it and leave the words after them. -/
theorem decode_encode {i : Instr} (hwf : i.wellFormed = true) (rest : List Word) :
    decode (encode i ++ rest) = .ok (i, rest) := by
  cases i with
  | csc col =>
    obtain ⟨hop, hzero, hcol⟩ := eq_cscWord_iff.1 (rfl : 0x18#8 ++ 0#8 ++ col = 0x18#8 ++ 0#8 ++ col)
    rw [encode, List.cons_append, List.nil_append, decode_formatU hop rfl, decodeU_of_csc hop]
    exact map_pair_eq_ok.2 ⟨guarded_eq_ok.2 ⟨⟨hzero, hcol.symm ▸ beq_iff_eq.1 hwf⟩, by rw [hcol]⟩, rfl⟩
  | putb n v =>
    simp only [Instr.wellFormed, Bool.and_eq_true, decide_eq_true_eq] at hwf
    obtain ⟨hn, hv⟩ := hwf
    rw [encode, Nat.mod_eq_of_lt hv, BitVec.ofNat_toNat, BitVec.setWidth_eq]
    obtain ⟨hop, hzero, hcnt, hbits⟩ :=
      eq_putbWord_iff.1 (rfl : 0x40#8 ++ 0#3 ++ n ++ v = 0x40#8 ++ 0#3 ++ n ++ v)
    rw [List.cons_append, List.nil_append, decode_formatU hop rfl, decodeU_of_putb hop]
    exact map_pair_eq_ok.2 ⟨guarded_eq_ok.2 ⟨⟨hzero, by rwa [hcnt], by rwa [hcnt, hbits]⟩, by rw [hcnt, hbits]⟩, rfl⟩
  | trap e =>
    simp only [Instr.wellFormed, Bool.and_eq_true, decide_eq_true_eq] at hwf
    obtain ⟨hop, hzero, he⟩ := eq_trapWord_iff.1 (rfl : 0x4C#8 ++ 0#20 ++ e = 0x4C#8 ++ 0#20 ++ e)
    rw [encode, List.cons_append, List.nil_append, decode_formatU hop rfl, decodeU_of_trap hop]
    exact map_pair_eq_ok.2 ⟨guarded_eq_ok.2 ⟨⟨hzero, by rwa [he]⟩, by rw [he]⟩, rfl⟩
  | hwr8 addr data => exact map_pair_eq_ok.2 ⟨decodeByteData_eq_ok rfl data (.hwr8 addr), rfl⟩
  | hrd8 addr seen => exact map_pair_eq_ok.2 ⟨decodeByteData_eq_ok rfl seen (.hrd8 addr), rfl⟩
  | _ => rfl

/-- Settles O1: `PUTB v, n` has the words of the well-formed `PUTB v mod 2^n, n`. -/
theorem decodeOfEncode : Obligations.DecodeOfEncode := by
  refine ⟨fun i rest hwf => decode_encode hwf rest, fun n v rest hn => ?_⟩
  have hlow : (BitVec.ofNat 16 (v.toNat % 2 ^ n.toNat)).toNat = v.toNat % 2 ^ n.toNat := by
    rw [BitVec.toNat_ofNat, Nat.mod_eq_of_lt ((Nat.mod_le _ _).trans_lt v.isLt)]
  have henc : encode (.putb n v) = encode (.putb n (BitVec.ofNat 16 (v.toNat % 2 ^ n.toNat))) := by
    rw [encode, encode, hlow, Nat.mod_mod]
  rw [henc]
  refine decode_encode ?_ rest
  simp only [Instr.wellFormed, hlow, hn, Nat.mod_lt _ (Nat.two_pow_pos _), decide_true, Bool.and_self]

/-! ## Reserved words -/

theorem decodeByteData_eq_error {w2 : Word} (hdata : w2.extractLsb' 8 24 ≠ 0) (w0 : Word) (mk : Byte → Instr) :
    decodeByteData w0 w2 mk = .error (.reservedOperand (opOf w0)) := by
  rw [decodeByteData, if_neg fun h => hdata h.2]

theorem fields_of_decodeU {w : Word} {i : Instr} (h : decodeU w = .ok i) :
    (opOf w).toNat ∈ assignedOps ∧ ((opOf w).toNat ∈ plainOps → immOf w = 0) := by
  unfold decodeU at h
  split at h
  case h_23 => cases h
  case h_3 hop | h_19 hop | h_22 hop => rw [hop]; exact ⟨by decide, fun hplain => absurd hplain (by decide)⟩
  all_goals
    rename_i hop
    exact ⟨by rw [hop]; decide, fun _ => (guarded_eq_ok.1 h).1⟩

theorem fields_of_decodeH {w0 w1 w2 : Word} {i : Instr} (h : decodeH w0 w1 w2 = .ok i) :
    (opOf w0).toNat ∈ assignedOps ∧ immOf w0 = 0 := by
  unfold decodeH at h
  split at h
  case h_1 hop | h_3 hop => exact ⟨by rw [hop]; decide, (guarded_eq_ok.1 h).1.1⟩
  case h_2 hop | h_4 hop => exact ⟨by rw [hop]; decide, (guarded_eq_ok.1 h).1⟩
  case h_5 => cases h

/-- The `op` of a word that decodes is assigned, and its `imm` is zero when it has no operand field (30 R58, R59). -/
theorem fields_of_decode {w : Word} {rest more : List Word} {i : Instr} (h : decode (w :: rest) = .ok (i, more)) :
    (opOf w).toNat ∈ assignedOps ∧ ((opOf w).toNat ∈ plainOps → immOf w = 0) := by
  simp only [decode] at h
  split_ifs at h
  · match rest with
    | [] | [_] => cases h
    | w1 :: w2 :: rest =>
      obtain ⟨hassigned, himm⟩ := fields_of_decodeH (map_pair_eq_ok.1 h).1
      exact ⟨hassigned, fun _ => himm⟩
  · exact fields_of_decodeU (map_pair_eq_ok.1 h).1

theorem exists_error_of_forall_ne_ok {ε α : Type} {x : Except ε α} (h : ∀ a, x ≠ .ok a) : ∃ e, x = .error e := by
  cases x with
  | error e => exact ⟨e, rfl⟩
  | ok a => exact absurd rfl (h a)

/-- Settles O3: an `op` or an `imm` that no word which decodes has, or a check of the operand's own decoder that fails. -/
theorem reservedWordsRefused : Obligations.ReservedWordsRefused := by
  intro w rest
  refine ⟨fun hop => ?_, fun hop himm => ?_, fun hop hbad => ?_, fun hop hbad => ?_, fun hop hbad => ?_, ?_⟩
  · exact exists_error_of_forall_ne_ok fun _ h => hop (fields_of_decode h).1
  · exact exists_error_of_forall_ne_ok fun _ h => himm ((fields_of_decode h).2 hop)
  · rw [decode_formatU (opOf_eq hop) rfl, decodeU_of_csc (opOf_eq hop), decodeCsc, if_neg (by tauto)]
    exact ⟨_, rfl⟩
  · rw [decode_formatU (opOf_eq hop) rfl, decodeU_of_putb (opOf_eq hop), decodePutb, if_neg]
    · exact ⟨_, rfl⟩
    · rintro ⟨hzero, hn, hv⟩
      rcases hbad with h | h | h
      exacts [h hzero, by omega, by omega]
  · rw [decode_formatU (opOf_eq hop) rfl, decodeU_of_trap (opOf_eq hop), decodeTrap, if_neg]
    · exact ⟨_, rfl⟩
    · rintro ⟨hzero, h1, h3⟩
      rcases hbad with h | h | h
      exacts [h hzero, by omega, by omega]
  · rintro (hop | hop) addr data more rfl hdata
    · rw [decode_formatH (opOf_eq hop) rfl, decodeH_of_hwr8 (opOf_eq hop), decodeByteData_eq_error hdata]
      exact ⟨_, rfl⟩
    · rw [decode_formatH (opOf_eq hop) rfl, decodeH_of_hrd8 (opOf_eq hop), decodeByteData_eq_error hdata]
      exact ⟨_, rfl⟩

/-- Settles O4: the decoder evaluates on each of the words. -/
theorem specWordsDecode : Obligations.SpecWordsDecode :=
  ⟨rfl, rfl, rfl, rfl, rfl, rfl, rfl, rfl, rfl, rfl, rfl, rfl, rfl, rfl, rfl, rfl⟩

/-! ## The host's turn -/

theorem currentTurn_of_hostMoves {s : State} (h : hostMoves s) : currentTurn s = .host := by
  unfold currentTurn
  rcases h with hturn | ⟨hturns, hidle⟩
  · obtain ⟨ts, hts⟩ := List.head?_eq_some_iff.1 hturn
    rw [hts]
  · simp only [hturns, if_pos hidle]

theorem listingActivity_of_ok {s : State} {i : Instr} {rest : List Word} (hd : decode s.env.listing = .ok (i, rest)) :
    listingActivity s = .op i rest := by
  cases hl : s.env.listing with
  | nil => rw [hl] at hd; cases hd
  | cons w ws => rw [hl] at hd; simp only [listingActivity, hl, hd]

theorem listingActivity_of_error {s : State} {e : DecodeError} (hne : s.env.listing ≠ [])
    (hd : decode s.env.listing = .error e) : listingActivity s = .reserved e := by
  cases hl : s.env.listing with
  | nil => exact absurd hl hne
  | cons w ws => rw [hl] at hd; simp only [listingActivity, hl, hd]

/-- Settles O5: on the host's turn the next activity is the listing's. -/
theorem stepRunsListedOperation : Obligations.StepRunsListedOperation := by
  intro s hhost
  have hnext : nextActivity s = listingActivity s := by rw [nextActivity, currentTurn_of_hostMoves hhost]
  refine ⟨fun i rest hd => ?_, fun hnil => ?_, fun e hne hd => ?_⟩
  · rw [step, hnext, listingActivity_of_ok hd]
    rfl
  · rw [step, hnext, listingActivity, hnil]
    rfl
  · rw [step, hnext, listingActivity_of_error hne hd]

end Sys2Proof.Laws
end

section
/-! PROOFS. `ENCAC` sends the items of the block grammar (30 R69, 43 R110 to R116): the scan, which sends each ZRL as soon as
sixteen zeros are counted, against the grammar, which sends them with the next nonzero coefficient. -/

namespace Sys2Proof.Laws

open Sys2Proof Sys2Proof.Machine Sys2Proof.Claims

/-! ## The writer does not read the coder's registers -/

/-- The registers that a scan of `ENCAC` sets (43 R112). -/
def withScan (run : BitVec 5) (k last : BitVec 6) (h : Hardware) : Hardware := { h with run := run, k := k, last := last }

section

variable (run : BitVec 5) (k last : BitVec 6)

theorem emit_withScan (b : Byte) (h : Hardware) :
    emit b (withScan run k last h) = (emit b h).map (withScan run k last) := by
  unfold emit
  change (if h.outlen.toNat < capacity .out then _ else _) = _
  split <;> rfl

theorem emitStuffed_withScan (b : Byte) (h : Hardware) :
    emitStuffed b (withScan run k last h) = (emitStuffed b h).map (withScan run k last) := by
  unfold emitStuffed
  split
  · rw [emit_withScan]
    cases emit b h with
    | none => rfl
    | some x => exact emit_withScan run k last 0x00 x
  · exact emit_withScan run k last b h

theorem drain_withScan {bytes : Nat} : ∀ {acc cnt : Nat} {h : Hardware},
    drain bytes acc cnt (withScan run k last h) = (drain bytes acc cnt h).map (withScan run k last) := by
  induction bytes with
  | zero => intro acc cnt h; rfl
  | succ n ih =>
    intro acc cnt h
    rw [drain, drain, emitStuffed_withScan]
    cases emitStuffed (BitVec.ofNat 8 (acc >>> (cnt - 8))) h with
    | none => rfl
    | some x => exact ih

theorem putBits_withScan (v n : Nat) (h : Hardware) :
    putBits v n (withScan run k last h) = (putBits v n h).map (withScan run k last) := by
  unfold putBits
  split
  · rfl
  · exact drain_withScan run k last

end

/-! ## Codings and what they send -/

theorem putAll_append (ps qs : List (Nat × Nat)) : ∀ h : Hardware, putAll (ps ++ qs) h = (putAll ps h).bind (putAll qs) := by
  induction ps with
  | nil => intro h; rfl
  | cons p ps ih =>
    intro h
    rw [List.cons_append, putAll, putAll, Option.bind_assoc]
    exact Option.bind_congr fun x _ => ih x

theorem putAll_singleton (v n : Nat) (h : Hardware) : putAll [(v, n)] h = putBits v n h := Option.bind_fun_some _

theorem putAll_writerOnly {ps : List (Nat × Nat)} : ∀ {h x : Hardware}, putAll ps h = some x → writerOnly h x := by
  induction ps with
  | nil => intro h x hx; cases hx; rfl
  | cons p ps ih =>
    intro h x hx
    obtain ⟨y, hy, hyx⟩ := Option.bind_eq_some_iff.1 hx
    exact writerOnly_trans (putBits_writerOnly hy) (ih hyx)

/-- The pairs of two parts of a block, the first part first; none where a lookup of either misses. -/
def both (ps qs : Option (List (Nat × Nat))) : Option (List (Nat × Nat)) := Option.map₂ (· ++ ·) ps qs

/-- A coding from the writer of `h` sends `items`, leaves `RUN` and `LAST` at the given values, and misses exactly where `items`
has no pairs; want of room in `OUT` aside. -/
def Sends (run : BitVec 5) (last : BitVec 6) (items : Option (List (Nat × Nat))) (h : Hardware) : Coding → Prop
  | .coded y => ∃ ps x k, items = some ps ∧ putAll ps h = some x ∧ y = withScan run k last x
  | .missed _ => items = none
  | .full => True

theorem sends_nothing (run : BitVec 5) (k last : BitVec 6) (h : Hardware) :
    Sends run last (some []) h (.coded (withScan run k last h)) := ⟨[], h, k, rfl, rfl, rfl⟩

theorem sends_putBits (run : BitVec 5) (k last : BitVec 6) (v n : Nat) (h : Hardware) :
    Sends run last (some [(v, n)]) h (ofWriter (putBits v n (withScan run k last h))) := by
  rw [putBits_withScan]
  cases hx : putBits v n h with
  | none => trivial
  | some x => exact ⟨_, x, k, rfl, by rw [putAll_singleton, hx], rfl⟩

theorem sends_andThen {run run' : BitVec 5} {last : BitVec 6} {items items' : Option (List (Nat × Nat))} {h : Hardware}
    {r : Coding} {f : Hardware → Coding} (hr : Sends run last items h r)
    (hf : ∀ x k, writerOnly h x → Sends run' last items' x (f (withScan run k last x))) :
    Sends run' last (both items items') h (andThen r f) := by
  cases r with
  | full => trivial
  | missed y =>
    obtain rfl : items = none := hr
    rfl
  | coded y =>
    obtain ⟨ps, x, k, rfl, hx, rfl⟩ := hr
    have hfx := hf x k (putAll_writerOnly hx)
    simp only [andThen]
    cases hfx' : f (withScan run k last x) with
    | full => trivial
    | missed z =>
      rw [hfx'] at hfx
      obtain rfl : items' = none := hfx
      rfl
    | coded z =>
      rw [hfx'] at hfx
      obtain ⟨qs, y, k', rfl, hy, rfl⟩ := hfx
      exact ⟨ps ++ qs, y, k', rfl, by rw [putAll_append, hx]; exact hy, rfl⟩

/-- The code of a symbol as pairs. -/
def codeItem (cfg : Config) (t : TableSel) (sym : Nat) : Option (List (Nat × Nat)) :=
  (codeOf cfg .ac t sym).map fun c => [codePair c]

theorem sends_putCode (run : BitVec 5) (k last : BitVec 6) (cfg : Config) (t : TableSel) (sym : Nat) (free : HuffCode)
    (h : Hardware) :
    Sends run last (codeItem cfg t sym) h (putCode (lookup cfg .ac t (some sym) free) (withScan run k last h)) := by
  change Sends run last ((codeOf cfg .ac t sym).map _) h (putCode (codeOf cfg .ac t sym) _)
  cases codeOf cfg .ac t sym with
  | none => rfl
  | some c => exact sends_putBits run k last c.code.toNat c.len h

theorem sends_putExtra (run : BitVec 5) (k last : BitVec 6) (v : Int) (h : Hardware) :
    Sends run last (some (extraPairs v)) h (putExtra v (withScan run k last h)) := by
  unfold putExtra extraPairs
  split
  · exact sends_nothing run k last h
  · exact sends_putBits run k last _ _ h

theorem both_nil (items : Option (List (Nat × Nat))) : both items (some []) = items := by
  cases items <;> simp [both]

/-- A coding that then sets `RUN` to 0. -/
theorem sends_clearRun {run : BitVec 5} {last : BitVec 6} {items : Option (List (Nat × Nat))} {h : Hardware} {r : Coding}
    (hr : Sends run last items h r) : Sends 0 last items h (andThen r fun h => .coded { h with run := 0 }) := by
  rw [← both_nil items]
  exact sends_andThen hr fun x k _ => sends_nothing 0 k last x

/-! ## The scan -/

/-- The zeros since the last nonzero coefficient, after one more coefficient. -/
def zerosThrough (zeros : Nat) (v : Int) : Nat := if v = 0 then zeros + 1 else 0

/-- What one scan position sends after `zeros` zeros: a ZRL when it is the last of sixteen zeros, the symbol and the extra bits
of a nonzero coefficient (43 R113, R114). -/
def positionItems (cfg : Config) (t : TableSel) (zeros : Nat) (v : Int) : Option (List (Nat × Nat)) :=
  if v = 0 then if zeros % 16 = 15 then codeItem cfg t 0xF0 else some []
  else both (codeItem cfg t (16 * (zeros % 16) + category v)) (some (extraPairs v))

/-- What the scan of a list of coefficients sends (43 R112). -/
def scanItems (cfg : Config) (t : TableSel) : (zeros : Nat) → List Int → Option (List (Nat × Nat))
  | _, [] => some []
  | zeros, v :: rest => both (positionItems cfg t zeros v) (scanItems cfg t (zerosThrough zeros v) rest)

/-- `RUN` after `zeros` zeros: each sixteen of them have sent their ZRL (43 R113). -/
def runOf (zeros : Nat) : BitVec 5 := BitVec.ofNat 5 (zeros % 16)

theorem toNat_runOf (zeros : Nat) : (runOf zeros).toNat = zeros % 16 := by
  rw [runOf, BitVec.toNat_ofNat]
  omega

theorem runOf_succ (zeros : Nat) : runOf (zeros + 1) = if zeros % 16 = 15 then 0 else runOf zeros + 1 := by
  apply BitVec.eq_of_toNat_eq
  split
  · rw [toNat_runOf]; simp; omega
  · rw [toNat_runOf, BitVec.toNat_add, toNat_runOf]; simp; omega

section

variable (cfg : Config) (tick : Nat) (c : Component) (k last : BitVec 6) (zeros : Nat) (h : Hardware)

theorem sends_acZero :
    Sends (runOf (zeros + 1)) last (if zeros % 16 = 15 then codeItem cfg (tableSel c) 0xF0 else some []) h
      (acZero cfg tick c (withScan (runOf zeros) k last h)) := by
  have hrun : (withScan (runOf zeros) k last h).run.toNat = zeros % 16 := toNat_runOf zeros
  unfold acZero
  rw [hrun, runOf_succ]
  by_cases hz : zeros % 16 = 15
  · rw [if_pos hz, if_pos hz, if_pos (by omega)]
    exact sends_clearRun (sends_putCode (runOf zeros) k last cfg (tableSel c) 0xF0 _ h)
  · rw [if_neg hz, if_neg hz, if_neg (by omega)]
    exact sends_nothing (runOf zeros + 1) k last h

theorem sends_acNonzero {v : Int} (hv : category v < 16) :
    Sends 0 last (both (codeItem cfg (tableSel c) (16 * (zeros % 16) + category v)) (some (extraPairs v))) h
      (acNonzero cfg tick c v (withScan (runOf zeros) k last h)) := by
  have hrun : (withScan (runOf zeros) k last h).run.toNat = zeros % 16 := toNat_runOf zeros
  have hsym : acSymbol (zeros % 16) (category v) = some (16 * (zeros % 16) + category v) := by
    rw [acSymbol, if_pos hv, Nat.shiftLeft_eq, Nat.mul_comm]
  unfold acNonzero
  rw [hrun, hsym]
  exact sends_andThen (sends_putCode (runOf zeros) k last cfg (tableSel c) _ _ h)
    fun x k' _ => sends_clearRun (sends_putExtra (runOf zeros) k' last v x)

theorem acPosition_withScan (run : BitVec 5) (pos : Nat) :
    acPosition cfg tick c pos (withScan run k last h) =
      if zigzag (getComp h.cf c) pos = 0 then acZero cfg tick c (withScan run (BitVec.ofNat 6 pos) last h)
      else acNonzero cfg tick c (zigzag (getComp h.cf c) pos) (withScan run (BitVec.ofNat 6 pos) last h) := rfl

theorem sends_acPosition (pos : Nat) (hv : category (zigzag (getComp h.cf c) pos) < 16) :
    Sends (runOf (zerosThrough zeros (zigzag (getComp h.cf c) pos))) last
      (positionItems cfg (tableSel c) zeros (zigzag (getComp h.cf c) pos)) h
      (acPosition cfg tick c pos (withScan (runOf zeros) k last h)) := by
  rw [acPosition_withScan]
  unfold zerosThrough positionItems
  split
  · exact sends_acZero cfg tick c _ last zeros h
  · exact sends_acNonzero cfg tick c _ last zeros h hv

end

/-- The scan of a list of positions sends what its coefficients ask for. -/
theorem sends_acScan (cfg : Config) (tick : Nat) (c : Component) (last : BitVec 6) (positions : List Nat) :
    ∀ (k : BitVec 6) (zeros : Nat) (h : Hardware),
      (∀ pos ∈ positions, category (zigzag (getComp h.cf c) pos) < 16) →
      Sends (runOf ((positions.map (zigzag (getComp h.cf c))).foldl zerosThrough zeros)) last
        (scanItems cfg (tableSel c) zeros (positions.map (zigzag (getComp h.cf c)))) h
        (acScan cfg tick c positions (withScan (runOf zeros) k last h)) := by
  induction positions with
  | nil => intro k zeros h _; exact sends_nothing (runOf zeros) k last h
  | cons pos rest ih =>
    intro k zeros h hcat
    refine sends_andThen (sends_acPosition cfg tick c k last zeros h pos (hcat pos (by simp))) fun x k' hx => ?_
    have hcf : x.cf = h.cf := by rw [hx]
    have hrest := ih k' (zerosThrough zeros (zigzag (getComp h.cf c) pos)) x
      (fun p hp => by rw [hcf]; exact hcat p (by simp [hp]))
    rwa [hcf] at hrest

/-! ## The scan against the grammar -/

/-- The ZRLs that the grammar sends with the next nonzero coefficient (30 R69). -/
def zrlItems (cfg : Config) (t : TableSel) (n : Nat) : Option (List (Nat × Nat)) :=
  if n = 0 then some [] else (codeOf cfg .ac t 0xF0).map fun c => List.replicate n (codePair c)

/-- EOB where zeros stand at the end of the block (30 R69). -/
def eobItems (cfg : Config) (t : TableSel) (zeros : Nat) : Option (List (Nat × Nat)) :=
  if zeros = 0 then some [] else codeItem cfg t 0x00

theorem nil_both (items : Option (List (Nat × Nat))) : both (some []) items = items := by
  cases items <;> simp [both]

theorem both_assoc (a b c : Option (List (Nat × Nat))) : both (both a b) c = both a (both b c) :=
  Option.map₂_assoc List.append_assoc

theorem zrlItems_succ (cfg : Config) (t : TableSel) (n : Nat) :
    zrlItems cfg t (n + 1) = both (zrlItems cfg t n) (codeItem cfg t 0xF0) := by
  unfold zrlItems codeItem
  by_cases hn : n = 0
  · simp [hn, nil_both]
  · cases codeOf cfg .ac t 0xF0 with
    | none => simp [hn, both]
    | some c => simp [hn, both, List.replicate_succ']

theorem acPairs_zero (cfg : Config) (t : TableSel) (zeros : Nat) (rest : List Int) :
    acPairs cfg t zeros (0 :: rest) = acPairs cfg t (zeros + 1) rest := by
  rw [acPairs, if_pos rfl]

theorem acPairs_nonzero (cfg : Config) (t : TableSel) (zeros : Nat) {v : Int} (hv : v ≠ 0) (rest : List Int) :
    acPairs cfg t zeros (v :: rest) = both (zrlItems cfg t (zeros / 16))
      (both (both (codeItem cfg t (16 * (zeros % 16) + category v)) (some (extraPairs v))) (acPairs cfg t 0 rest)) := by
  have hitem : ∀ zrls, (do
      let code ← codeOf cfg .ac t (16 * (zeros % 16) + category v)
      let tail ← acPairs cfg t 0 rest
      some (zrls ++ codePair code :: extraPairs v ++ tail)) =
      both (some zrls) (both (both (codeItem cfg t (16 * (zeros % 16) + category v)) (some (extraPairs v)))
        (acPairs cfg t 0 rest)) := fun zrls => by
    rw [codeItem]
    cases codeOf cfg .ac t (16 * (zeros % 16) + category v) with
    | none => rfl
    | some code => cases acPairs cfg t 0 rest <;> simp [both]
  rw [acPairs, if_neg hv, zrlItems]
  by_cases hz : zeros < 16
  · rw [if_pos (show zeros / 16 = 0 by omega), ← hitem]
    exact if_pos hz
  · rw [if_neg (show zeros / 16 ≠ 0 by omega)]
    refine (if_neg hz).trans ?_
    cases codeOf cfg .ac t 0xF0 with
    | none => rfl
    | some c => exact hitem _

theorem acPairs_replicate_zero (cfg : Config) (t : TableSel) (n : Nat) :
    ∀ zeros, acPairs cfg t zeros (List.replicate n 0) = eobItems cfg t (zeros + n) := by
  induction n with
  | zero => intro zeros; rfl
  | succ n ih => intro zeros; rw [List.replicate_succ, acPairs_zero, ih, Nat.add_right_comm, Nat.add_assoc]

/-- The grammar sends what the scan sends when its coefficients end with a nonzero one, and then the EOB. -/
theorem acPairs_eq_scanItems (cfg : Config) (t : TableSel) (n : Nat) (vs : List Int) :
    ∀ zeros, vs.foldl zerosThrough zeros = 0 →
      acPairs cfg t zeros (vs ++ List.replicate n 0) =
        both (zrlItems cfg t (zeros / 16)) (both (scanItems cfg t zeros vs) (eobItems cfg t n)) := by
  induction vs with
  | nil =>
    intro zeros hz
    obtain rfl : zeros = 0 := hz
    rw [List.nil_append, acPairs_replicate_zero, Nat.zero_add]
    exact ((nil_both _).trans (nil_both _)).symm
  | cons v rest ih =>
    intro zeros hz
    rw [List.foldl_cons] at hz
    have hrest := ih _ hz
    rw [List.cons_append, scanItems, both_assoc]
    by_cases hv : v = 0
    · subst hv
      rw [acPairs_zero]
      simp only [zerosThrough, if_pos] at hrest ⊢
      rw [hrest, positionItems, if_pos rfl]
      split
      · rw [show (zeros + 1) / 16 = zeros / 16 + 1 by omega, zrlItems_succ, both_assoc]
      · rw [show (zeros + 1) / 16 = zeros / 16 by omega, nil_both]
    · simp only [zerosThrough, if_neg hv] at hrest ⊢
      rw [acPairs_nonzero cfg t zeros hv, hrest, positionItems, if_neg hv]
      simp only [Nat.zero_div, zrlItems, if_pos, nil_both]

/-! ## The last nonzero position -/

theorem zigzag_eq_zero_iff {cf : Block (BitVec 16)} {k : Nat} : zigzag cf k = 0 ↔ cf[zzNat k] = 0 := by
  rw [zigzag, ← BitVec.toInt_inj]
  rfl

/-- The last of the first `n` positions with a nonzero coefficient, or 0. -/
def lastWithin (cf : Block (BitVec 16)) (n : Nat) : Nat :=
  (List.range' 1 n).foldl (fun last k => if zigzag cf k = 0 then last else k) 0

theorem lastWithin_succ (cf : Block (BitVec 16)) (n : Nat) :
    lastWithin cf (n + 1) = if zigzag cf (1 + n) = 0 then lastWithin cf n else 1 + n := by
  rw [lastWithin, List.range'_1_concat, List.foldl_append]
  rfl

theorem lastWithin_spec (cf : Block (BitVec 16)) (n : Nat) :
    lastWithin cf n ≤ n ∧ (lastWithin cf n = 0 ∨ zigzag cf (lastWithin cf n) ≠ 0) ∧
      ∀ k, lastWithin cf n < k → k ≤ n → zigzag cf k = 0 := by
  induction n with
  | zero => exact ⟨le_rfl, .inl rfl, fun k h1 h2 => by omega⟩
  | succ n ih =>
    obtain ⟨hle, hnz, hzero⟩ := ih
    rw [lastWithin_succ]
    split
    · rename_i hz
      refine ⟨by omega, hnz, fun k h1 h2 => ?_⟩
      rcases Nat.lt_or_ge n k with hk | hk
      · rwa [show k = 1 + n by omega]
      · exact hzero k h1 hk
    · exact ⟨by omega, .inr ‹_›, fun k h1 h2 => by omega⟩

theorem isLast_lastNonzero (cf : Block (BitVec 16)) : isLast cf (lastNonzero cf) := by
  obtain ⟨hle, hnz, hzero⟩ := lastWithin_spec cf 63
  exact ⟨hle, hnz.imp_right fun h => mt zigzag_eq_zero_iff.2 h, fun k h1 h2 => zigzag_eq_zero_iff.1 (hzero k h1 h2)⟩

/-- The coefficients of the scan positions `1 .. last`. -/
def scanned (cf : Block (BitVec 16)) (last : Nat) : List Int := (List.range' 1 last).map (zigzag cf)

theorem acValues_eq (cf : Block (BitVec 16)) {last : Nat} (h : isLast cf last) :
    acValues (fun i => cf[i].toInt) = scanned cf last ++ List.replicate (63 - last) 0 := by
  obtain ⟨hle, -, hzero⟩ := h
  have hsplit : List.range' 1 63 = List.range' 1 last ++ List.range' (1 + last) (63 - last) := by
    rw [List.range'_append_1, Nat.add_sub_cancel' hle]
  change (List.range' 1 63).map (zigzag cf) = _
  rw [hsplit, List.map_append, scanned, List.append_cancel_left_eq, List.eq_replicate_iff]
  refine ⟨by simp, fun v hv => ?_⟩
  obtain ⟨k, hk, rfl⟩ := List.mem_map.1 hv
  rw [List.mem_range'_1] at hk
  exact zigzag_eq_zero_iff.2 (hzero k (by omega) (by omega))

/-- The scan up to `LAST` ends with a nonzero coefficient. -/
theorem zerosThrough_scanned {cf : Block (BitVec 16)} {last : Nat} (h : isLast cf last) :
    (scanned cf last).foldl zerosThrough 0 = 0 := by
  obtain ⟨-, hnz, -⟩ := h
  cases last with
  | zero => rfl
  | succ n =>
    have hv : zigzag cf (1 + n) ≠ 0 :=
      mt zigzag_eq_zero_iff.1 (by rw [Nat.add_comm]; exact hnz.resolve_left (Nat.succ_ne_zero n))
    rw [scanned, List.range'_1_concat, List.map_append, List.foldl_append]
    exact if_neg hv

/-! ## `ENCAC` -/

theorem sends_encodeAc (cfg : Config) (tick : Nat) (c : Component) (h : Hardware)
    (hcat : ∀ k, 1 ≤ k → k ≤ 63 → category (zigzag (getComp h.cf c) k) < 16) :
    Sends 0 (BitVec.ofNat 6 (lastNonzero (getComp h.cf c)))
      (acPairs cfg (tableSel c) 0 (acValues fun i => (getComp h.cf c)[i].toInt)) h (encodeAc cfg tick c h) := by
  have hlast := isLast_lastNonzero (getComp h.cf c)
  have hzeros := zerosThrough_scanned hlast
  have hle := hlast.1
  rw [acValues_eq _ hlast, acPairs_eq_scanItems cfg (tableSel c) _ _ 0 hzeros, Nat.zero_div, zrlItems, if_pos rfl,
    nil_both]
  refine sends_andThen (run := 0) ?_ fun x k hx => ?_
  · have hscan := sends_acScan cfg tick c (BitVec.ofNat 6 (lastNonzero (getComp h.cf c)))
      (List.range' 1 (lastNonzero (getComp h.cf c))) h.k 0 h
      (fun pos hpos => by rw [List.mem_range'_1] at hpos; exact hcat pos hpos.1 (by omega))
    rw [← scanned, hzeros] at hscan
    exact hscan
  · unfold acEnd eobItems
    by_cases h63 : lastNonzero (getComp h.cf c) = 63
    · rw [if_pos h63, if_pos (by omega)]
      exact sends_nothing 0 k _ x
    · rw [if_neg h63, if_neg (by omega)]
      exact sends_putCode 0 k _ cfg (tableSel c) 0x00 _ x

theorem tableSel_eq (c : Component) : tableSel c = if c = .y then .luma else .chroma := by cases c <;> rfl

/-- `SEQ` after a block, as the table of 45 R136 says, while the column stays within 17 bits. -/
theorem closeBlock_eq {tick : Nat} {c : Component} {h x : Hardware} (hseq : x.seq = h.seq) (hwidth : x.width = h.width)
    (hcol : c = .cr → h.seq.col.toNat + 8 < 2 ^ 17) : closeBlock tick c x = { x with seq := afterEncac c h } := by
  cases c with
  | y => rw [afterEncac, ← hseq]; rfl
  | cb => rw [afterEncac, ← hseq]; rfl
  | cr =>
    simp only [closeBlock, nextMcu, nextColumn, afterEncac, hseq, hwidth, if_pos (hcol rfl)]
    split <;> rfl

/-- Settles O35: with room in `OUT` the coding ends, or misses where the grammar has no code. -/
theorem encacResult : Obligations.EncacResult := by
  intro c s hcat hroom hcol
  have hsends := sends_encodeAc s.cfg s.env.tick c s.hw hcat
  have hends := encodeAc_room s.cfg s.env.tick c s.hw hroom
  rw [exec_encac, ← tableSel_eq]
  cases hcoding : encodeAc s.cfg s.env.tick c s.hw with
  | full => rw [hcoding] at hends; exact hends.elim
  | missed x =>
    rw [hcoding] at hsends
    rw [show acPairs s.cfg (tableSel c) 0 _ = none from hsends]
    exact ⟨_, rfl, rfl, rfl, rfl⟩
  | coded y =>
    rw [hcoding] at hsends
    obtain ⟨ps, x, k, hps, hx, rfl⟩ := hsends
    have hw := putAll_writerOnly hx
    rw [hps]
    refine ⟨x, k, _, hx, isLast_lastNonzero _, ?_⟩
    rw [codingOutcome, closeBlock_eq (h := s.hw) (by rw [hw]; rfl) (by rw [hw]; rfl) hcol]
    rfl

end Sys2Proof.Laws
end

section
/-! PROOFS. The codes of `HUFF_STD` (30 R71 to R74). A code of `len` bits stands for the 16-bit words that begin with it; the
canonical assignment gives the codes, in order, one range of words after the other, and so no code begins another. -/

namespace Sys2Proof.Laws

open Sys2Proof Sys2Proof.Machine Sys2Proof.Claims

/-! ## Codes as ranges of words -/

/-- The first 16-bit word that begins with the code. -/
def firstWord (c : HuffCode) : Nat := c.code.toNat * 2 ^ (16 - c.len)

/-- One past the last 16-bit word that begins with the code. -/
def pastWord (c : HuffCode) : Nat := (c.code.toNat + 1) * 2 ^ (16 - c.len)

/-- The words of `c` come before those of `c'`. -/
abbrev before (c c' : HuffCode) : Prop := pastWord c ≤ firstWord c'

theorem firstWord_lt_pastWord (c : HuffCode) : firstWord c < pastWord c :=
  Nat.mul_lt_mul_of_pos_right (Nat.lt_succ_self _) (Nat.two_pow_pos _)

theorem before_trans {c c' c'' : HuffCode} (h : before c c') (h' : before c' c'') : before c c'' :=
  (h.trans (firstWord_lt_pastWord c').le).trans h'

theorem not_before_self (c : HuffCode) : ¬ before c c := (firstWord_lt_pastWord c).not_ge

/-- A code that begins another has its words among its own. -/
theorem words_within_of_begins {c c' : HuffCode} (hlen : c.len ≤ c'.len)
    (h : c'.code.toNat / 2 ^ (c'.len - c.len) = c.code.toNat) : firstWord c ≤ firstWord c' ∧ pastWord c' ≤ pastWord c := by
  have hle := huffCode_len_le c'
  have hpow : 2 ^ (16 - c.len) = 2 ^ (c'.len - c.len) * 2 ^ (16 - c'.len) := by
    rw [← pow_add]
    congr 1
    omega
  have hpos := Nat.two_pow_pos (c'.len - c.len)
  unfold firstWord pastWord
  rw [hpow, ← Nat.mul_assoc, ← Nat.mul_assoc, ← h]
  exact ⟨Nat.mul_le_mul_right _ (Nat.div_mul_le_self _ _),
    Nat.mul_le_mul_right _ (by rw [Nat.mul_comm]; exact Nat.lt_mul_div_succ _ hpos)⟩

theorem not_begins_of_before {c c' : HuffCode} (h : before c c' ∨ before c' c) (hlen : c.len ≤ c'.len) :
    c'.code.toNat / 2 ^ (c'.len - c.len) ≠ c.code.toNat := by
  intro hbegins
  obtain ⟨hfirst, hpast⟩ := words_within_of_begins hlen hbegins
  have hc := firstWord_lt_pastWord c
  have hc' := firstWord_lt_pastWord c'
  omega

/-! ## A ROM that holds a list of codes in order -/

/-- The valid entries of a ROM, index by index; past the end none is valid. -/
theorem reduceOption_eq_filterMap_range (rom : HuffRom) :
    rom.reduceOption = (List.range rom.length).filterMap fun i => rom.getD i none := by
  have hrom : rom = (List.range rom.length).map fun i => rom.getD i none :=
    List.ext_getElem (by simp) fun i hi _ => by simp [hi]
  conv_lhs => rw [hrom, List.reduceOption, List.filterMap_map]
  rfl

theorem filterMap_subperm_reduceOption {rom : HuffRom} {symbols : List Nat} (hnodup : symbols.Nodup)
    (hsub : symbols ⊆ List.range rom.length) : (symbols.filterMap fun i => rom.getD i none).Subperm rom.reduceOption := by
  obtain ⟨l, hperm, hl⟩ := hnodup.subperm hsub
  rw [reduceOption_eq_filterMap_range]
  exact ⟨_, hperm.filterMap _, hl.filterMap _⟩

section

variable {rom : HuffRom} {codes : List (Nat × HuffCode)} (hentries : ∀ e ∈ codes, rom[e.1]? = some (some e.2))

include hentries

theorem symbols_subset_range : codes.map Prod.fst ⊆ List.range rom.length := by
  intro i hi
  obtain ⟨e, he, rfl⟩ := List.mem_map.1 hi
  exact List.mem_range.2 (List.getElem?_eq_some_iff.1 (hentries e he)).1

theorem filterMap_symbols : (codes.map Prod.fst).filterMap (fun i => rom.getD i none) = codes.map Prod.snd := by
  rw [List.filterMap_map, ← List.filterMap_eq_map]
  exact List.filterMap_congr fun e he => by simp [List.getD, hentries e he]

variable (horder : codes.Pairwise fun e e' => before e.2 e'.2)

include horder

theorem nodup_symbols : (codes.map Prod.fst).Nodup := by
  refine List.pairwise_map.2 (horder.imp_of_mem fun {e e'} he he' hb hsym => ?_)
  have heq : e.2 = e'.2 := by
    have h := hentries e he
    rw [hsym, hentries e' he'] at h
    simpa using h.symm
  exact not_before_self _ (heq ▸ hb)

variable (hcount : rom.reduceOption.length = codes.length)

include hcount

/-- As many entries are valid as there are codes, and so the valid entries are the codes. -/
theorem codes_perm_reduceOption : (codes.map Prod.snd).Perm rom.reduceOption := by
  have hsub := filterMap_subperm_reduceOption (nodup_symbols hentries horder) (symbols_subset_range hentries)
  rw [filterMap_symbols hentries] at hsub
  exact hsub.perm_of_length_le (by simp [hcount])

theorem invalid_of_not_symbol {i : Nat} (hi : i < rom.length) (hsym : i ∉ codes.map Prod.fst) : rom[i]? = some none := by
  rw [List.getElem?_eq_getElem hi]
  cases hentry : rom[i] with
  | none => rfl
  | some c =>
    have hsub := filterMap_subperm_reduceOption (rom := rom) (List.nodup_cons.2 ⟨hsym, nodup_symbols hentries horder⟩)
      (List.cons_subset.2 ⟨List.mem_range.2 hi, symbols_subset_range hentries⟩)
    have hvalid : rom.getD i none = some c := by simp [hi, hentry]
    have hlen := hsub.length_le
    rw [List.filterMap_cons_some (f := fun i => rom.getD i none) hvalid, filterMap_symbols hentries, hcount,
      List.length_cons, List.length_map] at hlen
    omega

theorem no_code_begins_another : rom.reduceOption.Pairwise fun c c' =>
      if c.len ≤ c'.len then c'.code.toNat / 2 ^ (c'.len - c.len) ≠ c.code.toNat
      else c.code.toNat / 2 ^ (c.len - c'.len) ≠ c'.code.toNat := by
  have hdisjoint : rom.reduceOption.Pairwise fun c c' => before c c' ∨ before c' c :=
    ((codes_perm_reduceOption hentries horder hcount).pairwise_iff Or.symm).1 (List.pairwise_map.2 (horder.imp Or.inl))
  refine hdisjoint.imp fun {c c'} h => ?_
  split
  · exact not_begins_of_before h ‹_›
  · exact not_begins_of_before h.symm (by omega)

end

/-! ## The four ROMs -/

/-- The codes of a published table, in order. -/
def publishedCodes (bits symbols : List Nat) : List (Nat × HuffCode) :=
  (canonicalCodes bits 1 0 symbols).filterMap fun e => e.2.map fun c => (e.1, c)

/-- What is read off a ROM and its published table, entry by entry. -/
structure Publishes (rom : HuffRom) (bits huffval : List Nat) (total : Nat) : Prop where
  entries : ∀ e ∈ canonicalCodes bits 1 0 huffval, rom[e.1]? = some e.2
  symbols : (publishedCodes bits huffval).map Prod.fst = huffval
  count : rom.reduceOption.length = (publishedCodes bits huffval).length
  order : (publishedCodes bits huffval).IsChain fun e e' => before e.2 e'.2
  sum : (rom.reduceOption.map fun c => 2 ^ (16 - c.len)).sum = total
  notOnes : ∀ c ∈ rom.reduceOption, c.code.toNat + 1 < 2 ^ c.len

section

variable {rom : HuffRom} {bits huffval : List Nat} {total : Nat} (h : Publishes rom bits huffval total)

include h

theorem Publishes.entry : ∀ e ∈ publishedCodes bits huffval, rom[e.1]? = some (some e.2) := by
  intro e he
  obtain ⟨e', he', hc⟩ := List.mem_filterMap.1 he
  obtain ⟨c, hcode, rfl⟩ := Option.map_eq_some_iff.1 hc
  rw [h.entries e' he', hcode]

theorem Publishes.pairwise : (publishedCodes bits huffval).Pairwise fun e e' => before e.2 e'.2 := by
  have htrans : IsTrans (Nat × HuffCode) fun e e' => before e.2 e'.2 := ⟨fun _ _ _ => before_trans⟩
  exact List.isChain_iff_pairwise.1 h.order

end

theorem publishes_dcLuma : Publishes dcLumaStd dcLumaBits dcSymbols 65408 := by
  constructor <;> decide +kernel

theorem publishes_dcChroma : Publishes dcChromaStd dcChromaBits dcSymbols 65504 := by
  constructor <;> decide +kernel

theorem publishes_acLuma : Publishes acLumaStd acLumaBits acLumaSymbols 65535 := by
  constructor <;> decide +kernel

theorem publishes_acChroma : Publishes acChromaStd acChromaBits acChromaSymbols 65535 := by
  constructor <;> decide +kernel

/-- Settles O60: the entries are read off the tables; that no other entry is valid follows by counting, and that no code begins
another from their order. -/
theorem huffStdCodes : Obligations.HuffStdCodes := by
  intro x hx
  have hpub : Publishes x.1 x.2.1 x.2.2.1 x.2.2.2 := by
    simp only [List.mem_cons, List.not_mem_nil, or_false] at hx
    rcases hx with rfl | rfl | rfl | rfl
    exacts [publishes_dcLuma, publishes_dcChroma, publishes_acLuma, publishes_acChroma]
  exact ⟨hpub.entries, fun i hi hsym => invalid_of_not_symbol hpub.entry hpub.pairwise hpub.count hi (by rwa [hpub.symbols]),
    hpub.sum, hpub.notOnes, no_code_begins_another hpub.entry hpub.pairwise hpub.count⟩

end Sys2Proof.Laws
end

section
/-! PROOFS. The colour converter (40 R80 to R86): the bytes that `CSC` reads, and the samples it makes of them. -/

namespace Sys2Proof.Laws

open Sys2Proof Sys2Proof.Machine

/-! ## The bytes of a pixel -/

/-- With a positive width `CSC` reads a channel's byte in the record of the pixel at the clamped column (40 R80 to R82). -/
theorem channelByte_of_width_ne_zero {h : Hardware} (hw : h.width ≠ 0) (tick col r j : Nat) (ch : Channel) :
    channelByte tick col r j ch h =
      readByte h.pix (pixelAddress h.width.toNat r (stripColumn h.width.toNat col j) + channelOffset ch) :=
  if_neg fun h0 => hw (BitVec.eq_of_toNat_eq h0)

/-- A colour channel is never at the place of the alpha byte (40 R84). -/
theorem channelAddress_ne_alpha (width r x : Nat) (ch : Channel) : (pixelAddress width r x + channelOffset ch) % 4 ≠ 3 := by
  unfold pixelAddress
  cases ch <;> simp only [channelOffset] <;> omega

/-- Two pixel memories with the same colour bytes and one positive width give the same samples (40 R84, R85). -/
theorem sampleBlock_eq_of_colour {h h' : Hardware} (hwidth : h.width = h'.width) (hw : h.width ≠ 0)
    (hpix : ∀ a, a % 4 ≠ 3 → readByte h.pix a = readByte h'.pix a) (A : ArithOps Sample) (tick tick' col : Nat) (c : Component) :
    sampleBlock A tick col h c = sampleBlock A tick' col h' c := by
  have hbyte : ∀ r j ch, channelByte tick col r j ch h = channelByte tick' col r j ch h' := fun r j ch => by
    rw [channelByte_of_width_ne_zero hw, channelByte_of_width_ne_zero (hwidth ▸ hw), ← hwidth]
    exact hpix _ (channelAddress_ne_alpha _ _ _ ch)
  ext i hi
  simp only [sampleBlock_getElem, hbyte]

/-- Settles O17: the samples are made of the colour bytes of pixels of the strip. -/
theorem cscIgnoresAlphaAndState : Obligations.CscIgnoresAlphaAndState := by
  intro s s' t t' col harith hwidth hw hpix h h'
  obtain ⟨-, rfl⟩ := exec_csc_eq_next.1 h
  obtain ⟨-, rfl⟩ := exec_csc_eq_next.1 h'
  simp only [colorConvert_sb, harith, sampleBlock_eq_of_colour hwidth hw hpix _ s.env.tick s'.env.tick]

/-! ## The exact sums under `Q30`, scaled by 10^6 (40 R83) -/

theorem convert_q30Ops_y_scaled (r g b : Byte) :
    convert q30Ops .y r g b * 10 ^ 6 = 299000 * (r.toNat : ℚ) + 587000 * g.toNat + 114000 * b.toNat - 128000000 := by
  simp only [convert, q30Ops]
  ring

theorem convert_q30Ops_cb_scaled (r g b : Byte) :
    convert q30Ops .cb r g b * 10 ^ 6 = -168736 * (r.toNat : ℚ) - 331264 * g.toNat + 500000 * b.toNat := by
  simp only [convert, q30Ops]
  ring

theorem convert_q30Ops_cr_scaled (r g b : Byte) :
    convert q30Ops .cr r g b * 10 ^ 6 = 500000 * (r.toNat : ℚ) - 418688 * g.toNat - 81312 * b.toNat := by
  simp only [convert, q30Ops]
  ring

/-- In the `Q30` registers stand the exact values. -/
theorem convert_arithOps_q30 (c : Component) (r g b : Byte) :
    convert (arithOps .q30) c r g b = .exact (convert q30Ops c r g b) :=
  convert_onRegisters q30Ops exactOf_exact c r g b

/-- Settles O16: each sum grows or falls with each channel, so the ends are at channels 0 and 255. -/
theorem sampleRanges : Obligations.SampleRanges := by
  refine ⟨fun r g b => ?_, ?_⟩
  · obtain ⟨hr0, hr⟩ := byte_bounds r
    obtain ⟨hg0, hg⟩ := byte_bounds g
    obtain ⟨hb0, hb⟩ := byte_bounds b
    have hy := convert_q30Ops_y_scaled r g b
    have hcb := convert_q30Ops_cb_scaled r g b
    have hcr := convert_q30Ops_cr_scaled r g b
    refine ⟨⟨?_, ?_⟩, ⟨?_, ?_⟩, ?_, ?_⟩ <;> linarith
  · have hwhite : (255 : Byte).toNat = 255 := rfl
    norm_num [convert, q30Ops, hwhite]

/-! ## The samples of a block -/

theorem blockAt_sampleBlock (A : ArithOps Sample) (tick col : Nat) (h : Hardware) (c : Component) (r j : Fin 8) :
    blockAt (sampleBlock A tick col h c) r j =
      convert A c (channelByte tick col r j .r h) (channelByte tick col r j .g h) (channelByte tick col r j .b h) := by
  obtain ⟨hrow, hcol⟩ := block_index r j
  rw [blockAt, sampleBlock_getElem, hrow, hcol]

theorem exec_csc {col : BitVec 16} (hcol : col.toNat % 8 = 0) (s : State) :
    exec (.csc col) s = .next { s with hw := colorConvert (arithOps s.cfg.arith) s.env.tick col s.hw } :=
  exec_csc_eq_next.2 ⟨hcol, rfl⟩

/-- Settles O15: every entry is `convert` of the pixel's three bytes, and under `Q30` its exact value is the scaled sum. -/
theorem cscResult : Obligations.CscResult := by
  intro s col hcol
  refine ⟨_, exec_csc hcol s, fun hw r j => ?_⟩
  simp only [blockAt_sampleBlock, channelByte_of_width_ne_zero hw]
  refine ⟨rfl, rfl, rfl, fun hq30 => ?_⟩
  simp only [hq30, convert_arithOps_q30]
  exact ⟨_, _, _, rfl, rfl, rfl, convert_q30Ops_y_scaled _ _ _, convert_q30Ops_cb_scaled _ _ _, convert_q30Ops_cr_scaled _ _ _⟩

end Sys2Proof.Laws
end

section
/-! PROOFS. The passes of the transform in every arithmetic (41 R89, R91, R92): the outputs of the network, the rows and columns
that the passes leave. -/

namespace Sys2Proof.Laws

open Sys2Proof Sys2Proof.Machine Sys2Proof.Claims

/-! ## Rows and columns of a pass -/

section

variable {α : Type} (A : ArithOps α) (b : Block α)

@[simp] theorem octOf_octGet (x : Oct α) : octOf (octGet x) = x := rfl

@[simp] theorem octGet_rowOf (r j : Fin 8) : octGet (rowOf b r) j = blockAt b r j := octGet_octOf _ j

@[simp] theorem octGet_columnOf (j r : Fin 8) : octGet (columnOf b j) r = blockAt b r j := octGet_octOf _ r

theorem blockAt_rowTransform (r j : Fin 8) : blockAt (rowTransform A b) r j = octGet (dct8 A (rowOf b r)) j := by
  obtain ⟨hrow, hcol⟩ := block_index r j
  rw [blockAt, rowTransform_getElem, hrow, hcol, Fin.ofNat_val_eq_self, Fin.ofNat_val_eq_self]

theorem blockAt_columnTransform (r j : Fin 8) : blockAt (columnTransform A b) r j = octGet (dct8 A (columnOf b j)) r := by
  obtain ⟨hrow, hcol⟩ := block_index r j
  rw [blockAt, columnTransform_getElem, hrow, hcol, Fin.ofNat_val_eq_self, Fin.ofNat_val_eq_self]

theorem rowOf_rowTransform (r : Fin 8) : rowOf (rowTransform A b) r = dct8 A (rowOf b r) := by
  simp only [rowOf, blockAt_rowTransform, octOf_octGet]

theorem columnOf_columnTransform (j : Fin 8) : columnOf (columnTransform A b) j = dct8 A (columnOf b j) := by
  simp only [columnOf, blockAt_columnTransform, octOf_octGet]

theorem transform_getElem (i : Fin 64) :
    (transform A b)[i] = blockAt (transform A b) (Fin.ofNat 8 (i.val / 8)) (Fin.ofNat 8 (i.val % 8)) := by
  have hidx : 8 * (i.val / 8 % 8) + i.val % 8 % 8 = i.val := by omega
  simp only [blockAt, Fin.ofNat, hidx, Fin.getElem_fin]

end

/-- Settles O18: the definition of the network is the rule's text. -/
theorem dctNetwork : Obligations.DctNetwork := ⟨fun _ _ _ _ _ _ _ _ _ _ => rfl, fun _ _ _ _ _ _ _ _ => rfl⟩

/-- Settles O19: the row pass leaves in each row the `dct8` of that row. -/
theorem dctrResult : Obligations.DctrResult := fun c s =>
  ⟨_, exec_dctr c s, rowOf_rowTransform (arithOps s.cfg.arith) (getComp s.hw.sb c)⟩

/-- Settles O20: the column pass leaves in each column the `dct8` of that column. -/
theorem dctcResult : Obligations.DctcResult := fun c s =>
  ⟨_, exec_dctc c s, columnOf_columnTransform (arithOps s.cfg.arith) (getComp s.hw.sb c)⟩

end Sys2Proof.Laws
end

section
/-! PROOFS. The seven constants as real numbers (41 R88): the half-angle formula gives the square of each from another, and
so each to as many digits as are needed. -/

namespace Sys2Proof.Laws

open Sys2Proof Sys2Proof.Machine Sys2Proof.Claims

/-! ## Half cosines of the sixteenths of a half turn -/

/-- Half the cosine of `m` sixteenths of a half turn. -/
noncomputable def halfCos (m : ℕ) : ℝ := Real.cos (m * Real.pi / 16) / 2

theorem halfCos_nonneg {m : ℕ} (hm : m ≤ 8) : 0 ≤ halfCos m := by
  have hm' : (m : ℝ) ≤ 8 := by exact_mod_cast hm
  have hcos := Real.cos_nonneg_of_neg_pi_div_two_le_of_le (x := m * Real.pi / 16)
    (by have := Real.pi_pos; have : 0 ≤ m * Real.pi / 16 := by positivity
        linarith)
    (by nlinarith [Real.pi_pos])
  unfold halfCos
  linarith

theorem abs_halfCos_le (m : ℕ) : |halfCos m| ≤ 1 / 2 := by
  rw [halfCos, abs_div, abs_two]
  linarith [Real.abs_cos_le_one (m * Real.pi / 16)]

/-- The half-angle formula. -/
theorem halfCos_sq (m : ℕ) : halfCos m ^ 2 = 1 / 8 + halfCos (2 * m) / 4 := by
  have hdouble := Real.cos_sq (m * Real.pi / 16)
  have hangle : 2 * ((m : ℝ) * Real.pi / 16) = (2 * m : ℕ) * Real.pi / 16 := by push_cast; ring
  rw [hangle] at hdouble
  unfold halfCos
  linear_combination hdouble / 4

theorem halfCos_supplement {m n : ℕ} (h : m + n = 16) : halfCos m = -halfCos n := by
  have hm : (m : ℝ) = 16 - n := by rw [eq_sub_iff_add_eq]; exact_mod_cast h
  have hangle : (m : ℝ) * Real.pi / 16 = Real.pi - n * Real.pi / 16 := by rw [hm]; ring
  rw [halfCos, halfCos, hangle, Real.cos_pi_sub, neg_div]

theorem halfCos_eight : halfCos 8 = 0 := by
  have h := halfCos_supplement (m := 8) (n := 8) rfl
  linarith

/-! ## The constants to many digits -/

/-- The constant's place among the cosines. -/
def constAngle : DctConst → ℕ
  | .ka => 4
  | .k1 => 1
  | .k2 => 2
  | .k3 => 3
  | .k5 => 5
  | .k6 => 6
  | .k7 => 7

theorem realConst_eq_halfCos (k : DctConst) : realConst k = halfCos (constAngle k) := by
  cases k <;> simp [realConst, halfCos, constAngle]

theorem abs_realConst_le (k : DctConst) : |realConst k| ≤ 1 / 2 := by
  rw [realConst_eq_halfCos]
  exact abs_halfCos_le _

/-- The square of `ka = 1/√8`. -/
theorem realConst_ka_sq : realConst .ka ^ 2 = 1 / 8 := by
  rw [realConst_eq_halfCos, constAngle, halfCos_sq, halfCos_eight]
  norm_num

/-- The half-angle formula carries a bracket of the double angle's half cosine to one of the angle's. -/
theorem halfCos_near_of_double {m : ℕ} (hm : m ≤ 8) {c d e e' : ℝ} (hd : |halfCos (2 * m) - d| < e)
    (hbracket : 0 ≤ c + e' ∧ (c - e') ^ 2 ≤ 1 / 8 + (d - e) / 4 ∧ 1 / 8 + (d + e) / 4 ≤ (c + e') ^ 2) : |halfCos m - c| < e' := by
  obtain ⟨hce, hlo, hhi⟩ := hbracket
  obtain ⟨hd1, hd2⟩ := abs_lt.1 hd
  have hsq := halfCos_sq m
  have hupper : halfCos m < c + e' := lt_of_pow_lt_pow_left₀ 2 hce (by linarith)
  have hlower : c - e' < halfCos m := lt_of_pow_lt_pow_left₀ 2 (halfCos_nonneg hm) (by linarith)
  rw [abs_lt]
  constructor <;> linarith

/-- The same for a double angle beyond a quarter turn, by its supplement. -/
theorem halfCos_near_of_supplement {m n : ℕ} (hm : m ≤ 8) (hn : 2 * m + n = 16) {c d e e' : ℝ} (hd : |halfCos n - d| < e)
    (hbracket : 0 ≤ c + e' ∧ (c - e') ^ 2 ≤ 1 / 8 + (-d - e) / 4 ∧ 1 / 8 + (-d + e) / 4 ≤ (c + e') ^ 2) :
    |halfCos m - c| < e' :=
  halfCos_near_of_double hm (by rwa [halfCos_supplement hn, ← neg_sub', abs_neg]) hbracket

theorem halfCos_eight_near : |halfCos 8 - 0| < 1 / 10 ^ 16 := by norm_num [halfCos_eight]

theorem halfCos_four_near : |halfCos 4 - 0.353553390593273762| < 1 / 10 ^ 15 :=
  halfCos_near_of_double (by decide) halfCos_eight_near (by norm_num)

theorem halfCos_two_near : |halfCos 2 - 0.461939766255643378| < 1 / 10 ^ 14 :=
  halfCos_near_of_double (by decide) halfCos_four_near (by norm_num)

theorem halfCos_six_near : |halfCos 6 - 0.191341716182544886| < 1 / 10 ^ 14 :=
  halfCos_near_of_supplement (by decide) rfl halfCos_four_near (by norm_num)

/-- Settles O24: the half-angle formula carries the digits from the double angle to each constant. -/
theorem constantsAreNearest : Obligations.ConstantsAreNearest := by
  intro k
  rw [abs_sub_comm, realConst_eq_halfCos]
  cases k with
  | ka => exact halfCos_near_of_double (by decide) halfCos_eight_near (by norm_num [dctNumerator])
  | k1 => exact halfCos_near_of_double (by decide) halfCos_two_near (by norm_num [dctNumerator])
  | k2 => exact halfCos_near_of_double (by decide) halfCos_four_near (by norm_num [dctNumerator])
  | k3 => exact halfCos_near_of_double (by decide) halfCos_six_near (by norm_num [dctNumerator])
  | k5 => exact halfCos_near_of_supplement (by decide) rfl halfCos_six_near (by norm_num [dctNumerator])
  | k6 => exact halfCos_near_of_supplement (by decide) rfl halfCos_four_near (by norm_num [dctNumerator])
  | k7 => exact halfCos_near_of_supplement (by decide) rfl halfCos_two_near (by norm_num [dctNumerator])

end Sys2Proof.Laws
end

section
/-! PROOFS. Where addition, subtraction and multiplication are exact the network is a matrix, and under the reference meaning
the matrix of the orthonormal 8-point DCT-II (41 R90, R93, R94). -/

namespace Sys2Proof.Laws

open Sys2Proof Sys2Proof.Machine Sys2Proof.Claims

/-! ## Angles folded into the first quarter turn -/

/-- The number of half turns nearest to `m` sixteenths of a half turn. -/
def halfTurns (m : ℕ) : ℕ := (m + 8) / 16

/-- The distance of `m` sixteenths of a half turn from the nearest number of half turns. -/
def foldAngle (m : ℕ) : ℕ := if m % 16 < 8 then m % 16 else 16 - m % 16

/-- Each half turn changes the sign of the cosine. -/
theorem halfCos_fold (m : ℕ) : halfCos m = (-1) ^ halfTurns m * halfCos (foldAngle m) := by
  unfold foldAngle halfTurns
  split_ifs with h
  · have hm : (m : ℝ) = (m % 16 : ℕ) + 16 * ((m + 8) / 16 : ℕ) := by
      exact_mod_cast (by omega : m = m % 16 + 16 * ((m + 8) / 16))
    have hangle : (m : ℝ) * Real.pi / 16 = (m % 16 : ℕ) * Real.pi / 16 + ((m + 8) / 16 : ℕ) * Real.pi := by
      linear_combination Real.pi / 16 * hm
    rw [halfCos, hangle, Real.cos_add_nat_mul_pi, halfCos, mul_div_assoc]
  · have hm : (m : ℝ) + (16 - m % 16 : ℕ) = 16 * ((m + 8) / 16 : ℕ) := by
      exact_mod_cast (by omega : m + (16 - m % 16) = 16 * ((m + 8) / 16))
    have hangle : (m : ℝ) * Real.pi / 16 = ((m + 8) / 16 : ℕ) * Real.pi - (16 - m % 16 : ℕ) * Real.pi / 16 := by
      linear_combination Real.pi / 16 * hm
    rw [halfCos, hangle, Real.cos_nat_mul_pi_sub, halfCos, mul_div_assoc]

/-! ## The matrix of the network -/

/-- The constant that stands for an angle of the first quarter turn; for the angle 0 the `1/√8` of output 0 (41 R88). -/
def constAt : ℕ → DctConst
  | 1 => .k1
  | 2 => .k2
  | 3 => .k3
  | 5 => .k5
  | 6 => .k6
  | 7 => .k7
  | _ => .ka

/-- The basis angle of output `k` at input `n`, in sixteenths of a half turn. -/
def basisAngle (k n : Fin 8) : ℕ := (2 * n.val + 1) * k.val

/-- The weight of input `n` in output `k` of the network with the constants `K`. -/
def netWeight {R : Type} [CommRing R] (K : DctConst → R) (k n : Fin 8) : R :=
  (-1) ^ halfTurns (basisAngle k n) * K (constAt (foldAngle (basisAngle k n)))

theorem netWeight_zero {R : Type} [CommRing R] (K : DctConst → R) (n : Fin 8) : netWeight K 0 n = K .ka := by
  simp [netWeight, basisAngle, halfTurns, foldAngle, constAt]

/-- Addition, subtraction and multiplication are those of the ring. -/
structure IsExact {R : Type} [CommRing R] (A : ArithOps R) : Prop where
  add : ∀ x y, A.add x y = x + y
  sub : ∀ x y, A.sub x y = x - y
  mul : ∀ x y, A.mul x y = x * y

theorem isExact_q30Ops : IsExact q30Ops := ⟨fun _ _ => rfl, fun _ _ => rfl, fun _ _ => rfl⟩

theorem realOps_const : realOps.const = realConst := rfl

theorem isExact_realOps : IsExact realOps := ⟨fun _ _ => rfl, fun _ _ => rfl, fun _ _ => rfl⟩

section

variable {R : Type} [CommRing R] {A : ArithOps R} (hA : IsExact A)

include hA

/-- Output by output the network's signs and constants are those of the folded angles (41 R90). -/
theorem dct8_eq_sum (x : Oct R) (k : Fin 8) : octGet (dct8 A x) k = ∑ n, netWeight A.const k n * octGet x n := by
  fin_cases k <;>
    simp [Fin.sum_univ_eight, octGet, dct8, hA.add, hA.sub, hA.mul, netWeight, basisAngle, halfTurns, foldAngle, constAt] <;>
    ring

theorem blockAt_rowTransform_eq_sum (b : Block R) (r v : Fin 8) :
    blockAt (rowTransform A b) r v = ∑ j, netWeight A.const v j * blockAt b r j := by
  simp only [blockAt_rowTransform, dct8_eq_sum hA, octGet_rowOf]

theorem blockAt_columnTransform_eq_sum (b : Block R) (u j : Fin 8) :
    blockAt (columnTransform A b) u j = ∑ r, netWeight A.const u r * blockAt b r j := by
  simp only [blockAt_columnTransform, dct8_eq_sum hA, octGet_columnOf]

theorem blockAt_transform_eq_sum (b : Block R) (u v : Fin 8) :
    blockAt (transform A b) u v = ∑ r, ∑ j, netWeight A.const u r * netWeight A.const v j * blockAt b r j := by
  simp only [transform, blockAt_columnTransform_eq_sum hA, blockAt_rowTransform_eq_sum hA, Finset.mul_sum, mul_assoc]

/-- Index 0 is the sum of the samples by the square of the constant (41 R94). -/
theorem transform_dc (b : Block R) : blockAt (transform A b) 0 0 = A.const .ka ^ 2 * ∑ r, ∑ j, blockAt b r j := by
  simp only [blockAt_transform_eq_sum hA, netWeight_zero, Finset.mul_sum, sq]

/-- In exact arithmetic the passes commute: both orders give the same double sum (41 R93). -/
theorem rowTransform_columnTransform (b : Block R) : rowTransform A (columnTransform A b) = transform A b := by
  refine block_ext fun u v => ?_
  rw [blockAt_transform_eq_sum hA, Finset.sum_comm]
  simp only [blockAt_columnTransform_eq_sum hA, blockAt_rowTransform_eq_sum hA, Finset.mul_sum]
  exact Finset.sum_congr rfl fun j _ => Finset.sum_congr rfl fun r _ => by ring

end

/-! ## The matrix under the reference meaning -/

theorem dctCos_eq_halfCos (k n : Fin 8) : dctCos k n = 2 * halfCos (basisAngle k n) := by
  unfold dctCos halfCos basisAngle
  push_cast
  ring

theorem realConst_ka : realConst .ka = 1 / Real.sqrt 8 := by
  have hpos : 0 ≤ realConst .ka := by
    rw [realConst_eq_halfCos]
    exact halfCos_nonneg (by decide)
  rw [← Real.sqrt_sq hpos, realConst_ka_sq, Real.sqrt_div zero_le_one, Real.sqrt_one]

/-- For an output other than 0 the folded angle is never 0 or a quarter turn, and so it has its own constant. -/
theorem constAngle_constAt {k : Fin 8} (hk : k ≠ 0) (n : Fin 8) :
    constAngle (constAt (foldAngle (basisAngle k n))) = foldAngle (basisAngle k n) := by
  revert k n
  decide

theorem netWeight_realConst (k n : Fin 8) : netWeight realConst k n = dctScale k * dctCos k n := by
  by_cases hk : k = 0
  · subst hk
    simp [netWeight_zero, realConst_ka, dctScale, dctCos]
  · rw [netWeight, realConst_eq_halfCos, constAngle_constAt hk, ← halfCos_fold, dctCos_eq_halfCos, dctScale, if_neg hk]
    ring

/-! ## Orthonormality -/

/-- The sum telescopes after a multiplication by `2 sin θ`. -/
theorem sum_cos_odd_mul (θ : ℝ) : 2 * Real.sin θ * ∑ n : Fin 8, Real.cos ((2 * n.val + 1) * θ) = Real.sin (16 * θ) := by
  have hterm : ∀ n : ℕ, 2 * Real.sin θ * Real.cos ((2 * n + 1) * θ) =
      Real.sin (2 * (n + 1 : ℕ) * θ) - Real.sin (2 * n * θ) := fun n => by
    rw [Real.sin_sub_sin]
    push_cast
    ring_nf
  rw [Finset.mul_sum, Fin.sum_univ_eq_sum_range (fun n => 2 * Real.sin θ * Real.cos ((2 * n + 1) * θ)),
    Finset.sum_congr rfl fun n _ => hterm n, Finset.sum_range_sub fun n : ℕ => Real.sin (2 * n * θ)]
  norm_num

/-- The cosines of eight odd multiples of a frequency below 16, other than 0, cancel. -/
theorem sum_cos_frequency {m : ℤ} (hm : |m| < 16) :
    ∑ n : Fin 8, Real.cos ((2 * n.val + 1) * (m * Real.pi / 16)) = if m = 0 then 8 else 0 := by
  split_ifs with h0
  · simp [h0]
  · have hsin : Real.sin (m * Real.pi / 16) ≠ 0 := by
      intro h
      obtain ⟨q, hq⟩ := Real.sin_eq_zero_iff.1 h
      have hqm : (16 * q : ℝ) = m := by
        have := Real.pi_ne_zero
        field_simp at hq
        linarith
      have hqm' : 16 * q = m := by exact_mod_cast hqm
      rw [abs_lt] at hm
      omega
    have hsum := sum_cos_odd_mul (m * Real.pi / 16)
    rw [show 16 * (m * Real.pi / 16) = m * Real.pi by ring, Real.sin_int_mul_pi] at hsum
    simpa [hsin] using hsum

/-- A product of two basis cosines is a sum of cosines of the difference and the sum of their frequencies. -/
theorem sum_dctCos_mul (k l : Fin 8) : ∑ n, dctCos k n * dctCos l n = if k = l then (if k = 0 then 8 else 4) else 0 := by
  have hterm : ∀ n : Fin 8, dctCos k n * dctCos l n =
      (Real.cos ((2 * n.val + 1) * (((k.val : ℤ) - l.val : ℤ) * Real.pi / 16)) +
        Real.cos ((2 * n.val + 1) * (((k.val : ℤ) + l.val : ℤ) * Real.pi / 16))) / 2 := fun n => by
    unfold dctCos
    rw [eq_div_iff two_ne_zero, mul_comm, ← mul_assoc, Real.two_mul_cos_mul_cos]
    push_cast
    ring_nf
  rw [Finset.sum_congr rfl fun n _ => hterm n, ← Finset.sum_div, Finset.sum_add_distrib,
    sum_cos_frequency (by rw [abs_lt]; omega), sum_cos_frequency (by rw [abs_lt]; omega)]
  have hdiff : ((k.val : ℤ) - l.val = 0) ↔ k = l := by rw [sub_eq_zero, Nat.cast_inj, Fin.val_inj]
  have hsum : ((k.val : ℤ) + l.val = 0) ↔ k = 0 ∧ l = 0 := by omega
  simp only [hdiff, hsum]
  by_cases hkl : k = l
  · subst hkl
    by_cases hk : k = 0 <;> norm_num [hk]
  · have : ¬(k = 0 ∧ l = 0) := fun h => hkl (h.1.trans h.2.symm)
    simp [hkl, this]

theorem dctScale_sq (k : Fin 8) : dctScale k ^ 2 = if k = 0 then 1 / 8 else 1 / 4 := by
  unfold dctScale
  split_ifs <;> norm_num [div_pow]

theorem sum_netWeight_realConst (k l : Fin 8) :
    ∑ n, netWeight realConst k n * netWeight realConst l n = if k = l then 1 else 0 := by
  have hfactor : ∑ n, netWeight realConst k n * netWeight realConst l n =
      dctScale k * dctScale l * ∑ n, dctCos k n * dctCos l n := by
    rw [Finset.mul_sum]
    exact Finset.sum_congr rfl fun n _ => by simp only [netWeight_realConst]; ring
  rw [hfactor, sum_dctCos_mul]
  by_cases hkl : k = l
  · subst hkl
    rw [← sq, dctScale_sq]
    by_cases hk : k = 0 <;> norm_num [hk]
  · simp [hkl]

/-- Settles O22: the network's matrix is the scaled cosines, and cosines of two frequencies cancel. -/
theorem dctNetworkIsDctII : Obligations.DctNetworkIsDctII := by
  refine ⟨fun x k => ?_, fun k l => ?_⟩
  · rw [dct8_eq_sum isExact_realOps, Finset.mul_sum]
    refine Finset.sum_congr rfl fun n _ => ?_
    rw [realOps_const, netWeight_realConst, octGet_octOf]
    ring
  · simpa only [netWeight_realConst] using sum_netWeight_realConst k l

/-- Settles O23: the weight of a sample is the product of a row's and a column's weight, and the sums commute. -/
theorem transformClosedForm : Obligations.TransformClosedForm := by
  refine fun b => ⟨fun u v => ?_, rowTransform_columnTransform isExact_realOps b⟩
  rw [blockAt_transform_eq_sum isExact_realOps, realOps_const]
  simp only [netWeight_realConst, Finset.mul_sum]
  exact Finset.sum_congr rfl fun r _ => Finset.sum_congr rfl fun j _ => by ring

end Sys2Proof.Laws
end

section
/-! PROOFS. Flat blocks (41 R97). -/

namespace Sys2Proof.Laws

open Sys2Proof Sys2Proof.Machine Sys2Proof.Claims

section

variable {α : Type} (A : ArithOps α)

/-- Output 0 of eight values `x`. -/
def flatSum (x : α) : α :=
  A.mul (A.add (A.add (A.add x x) (A.add x x)) (A.add (A.add x x) (A.add x x))) (A.const .ka)

theorem octGet_head (a z : α) (k : Fin 8) : octGet ⟨a, z, z, z, z, z, z, z⟩ k = if k = 0 then a else z := by
  fin_cases k <;> rfl

/-- Where `x - x = 0`, `0 * k = 0` and `0 + 0 = 0 - 0 = 0`, eight equal values have zero outputs but for output 0. -/
theorem dct8_flat {zero : α} (hsub : ∀ y, A.sub y y = zero) (hmul : ∀ k, A.mul zero (A.const k) = zero)
    (hadd : A.add zero zero = zero) (x : α) (k : Fin 8) :
    octGet (dct8 A (octOf fun _ => x)) k = if k = 0 then flatSum A x else zero := by
  rw [← octGet_head]
  simp only [dct8, octOf, flatSum, hsub, hmul, hadd]

theorem rowOf_replicate (x : α) (r : Fin 8) : rowOf (Vector.replicate 64 x) r = octOf fun _ => x := by
  simp [rowOf, blockAt]

/-- The columns that the row pass of a flat block leaves are flat. -/
theorem blockAt_transform_flat (x : α) (u v : Fin 8) :
    blockAt (transform A (Vector.replicate 64 x)) u v =
      octGet (dct8 A (octOf fun _ => octGet (dct8 A (octOf fun _ => x)) v)) u := by
  simp only [transform, blockAt_columnTransform, columnOf, blockAt_rowTransform, rowOf_replicate]

end

theorem transform_flat_zero {R : Type} [CommRing R] {A : ArithOps R} (hA : IsExact A) (x : R) :
    blockAt (transform A (Vector.replicate 64 x)) 0 0 = 64 * A.const .ka ^ 2 * x := by
  rw [transform_dc hA]
  simp [blockAt]
  ring

/-- Settles O26: the row pass of a flat block leaves column 0 flat and zeros, and so the column pass leaves index 0 and zeros. -/
theorem flatBlockTransform : Obligations.FlatBlockTransform := by
  refine ⟨fun α A zero x hsub hmul hadd _ u v huv => ?_, fun x => ?_, fun x => ?_⟩
  · have hflat := dct8_flat A hsub hmul hadd
    have hzero : flatSum A zero = zero := by simp only [flatSum, hadd, hmul]
    rw [blockAt_transform_flat, hflat, hflat x v]
    by_cases hu : u = 0
    · rw [if_pos hu, if_neg (huv.resolve_left (not_not_intro hu)), hzero]
    · rw [if_neg hu]
  · rw [transform_flat_zero isExact_q30Ops]
    simp only [q30Ops, dctNumerator]
    ring
  · rw [transform_flat_zero isExact_realOps, realOps_const, realConst_ka_sq]
    norm_num

end Sys2Proof.Laws
end

section
/-! PROOFS. The accuracy of `Q30` and what rounding makes of it (00 R10, 41 R95, 42 R99). -/

namespace Sys2Proof.Laws

open Sys2Proof Sys2Proof.Machine Sys2Proof.Claims

/-! ## The samples -/

/-- The middle of a component's range (40 R86). -/
def midrange : Component → ℚ
  | .y => -1 / 2
  | .cb => 0
  | .cr => 0

theorem abs_convert_sub_midrange_le (c : Component) (r g b : Byte) : |convert q30Ops c r g b - midrange c| ≤ 255 / 2 := by
  obtain ⟨⟨hy, hy'⟩, ⟨hcb, hcb'⟩, hcr, hcr'⟩ := sampleRanges.1 r g b
  rw [abs_le]
  cases c <;> simp only [midrange] <;> constructor <;> linarith

theorem convert_realOps (c : Component) (r g b : Byte) : convert realOps c r g b = (convert q30Ops c r g b : ℚ) := by
  cases c <;> simp [convert, realOps, q30Ops]

section

variable (pixels : List Byte) (width col : ℕ) (c : Component)

/-- Every sample is `convert` of three bytes. -/
theorem blockAt_stripSamples (r j : Fin 8) :
    ∃ x y z : Byte, ∀ {α : Type} (A : ArithOps α), blockAt (stripSamples A pixels width col c) r j = convert A c x y z :=
  ⟨_, _, _, fun A => by rw [blockAt, stripSamples, Vector.getElem_ofFn]⟩

theorem blockAt_stripSamples_realOps (r j : Fin 8) :
    blockAt (stripSamples realOps pixels width col c) r j = (blockAt (stripSamples q30Ops pixels width col c) r j : ℚ) := by
  obtain ⟨x, y, z, h⟩ := blockAt_stripSamples pixels width col c r j
  rw [h, h, convert_realOps]

theorem abs_sample_sub_midrange_le (r j : Fin 8) :
    |blockAt (stripSamples realOps pixels width col c) r j - midrange c| ≤ 255 / 2 := by
  obtain ⟨x, y, z, h⟩ := blockAt_stripSamples pixels width col c r j
  rw [h, convert_realOps]
  simpa using (Rat.cast_le (K := ℝ)).2 (abs_convert_sub_midrange_le c x y z)

theorem abs_sample_le (r j : Fin 8) : |blockAt (stripSamples realOps pixels width col c) r j| ≤ 128 := by
  have hmid : |((midrange c : ℚ) : ℝ)| ≤ 1 / 2 := by cases c <;> norm_num [midrange, abs_le]
  calc |blockAt (stripSamples realOps pixels width col c) r j|
      = |(blockAt (stripSamples realOps pixels width col c) r j - midrange c) + midrange c| := by rw [sub_add_cancel]
    _ ≤ |blockAt (stripSamples realOps pixels width col c) r j - midrange c| + |((midrange c : ℚ) : ℝ)| := abs_add_le _ _
    _ ≤ 128 := by linarith [abs_sample_sub_midrange_le pixels width col c r j]

end

/-! ## The weights -/

/-- The constants of `Q30` as real numbers. -/
noncomputable def q30Const (k : DctConst) : ℝ := dctNumerator k / 2 ^ 30

theorem abs_q30Const_le (k : DctConst) : |q30Const k| ≤ 1 / 2 := by
  cases k <;> norm_num [q30Const, dctNumerator, abs_le]

theorem cast_netWeight_q30Ops (k n : Fin 8) : ((netWeight q30Ops.const k n : ℚ) : ℝ) = netWeight q30Const k n := by
  simp [netWeight, q30Ops, q30Const]

theorem abs_netWeight (K : DctConst → ℝ) (k n : Fin 8) :
    |netWeight K k n| = |K (constAt (foldAngle (basisAngle k n)))| := by
  rw [netWeight, abs_mul, abs_neg_one_pow, one_mul]

theorem abs_netWeight_sub_le (k n : Fin 8) : |netWeight q30Const k n - netWeight realConst k n| ≤ 1 / 2 ^ 31 := by
  rw [netWeight, netWeight, ← mul_sub, abs_mul, abs_neg_one_pow, one_mul]
  exact (constantsAreNearest _).le

/-- The weight of a sample under `Q30` is within 2^-31 of its weight under the reference meaning. -/
theorem abs_weight_product_sub_le (u v r j : Fin 8) :
    |netWeight q30Const u r * netWeight q30Const v j - netWeight realConst u r * netWeight realConst v j| ≤ 1 / 2 ^ 31 := by
  have hq : |netWeight q30Const u r| ≤ 1 / 2 := by rw [abs_netWeight]; exact abs_q30Const_le _
  have hr : |netWeight realConst v j| ≤ 1 / 2 := by rw [abs_netWeight]; exact abs_realConst_le _
  calc |netWeight q30Const u r * netWeight q30Const v j - netWeight realConst u r * netWeight realConst v j|
      = |netWeight q30Const u r * (netWeight q30Const v j - netWeight realConst v j) +
          (netWeight q30Const u r - netWeight realConst u r) * netWeight realConst v j| := by ring_nf
    _ ≤ |netWeight q30Const u r| * |netWeight q30Const v j - netWeight realConst v j| +
          |netWeight q30Const u r - netWeight realConst u r| * |netWeight realConst v j| := by
        rw [← abs_mul, ← abs_mul]; exact abs_add_le _ _
    _ ≤ 1 / 2 * (1 / 2 ^ 31) + 1 / 2 ^ 31 * (1 / 2) := by
        gcongr <;> exact abs_netWeight_sub_le _ _
    _ = 1 / 2 ^ 31 := by norm_num

/-! ## The transform -/

theorem abs_block_sum_le_sum_abs (f : Fin 8 → Fin 8 → ℝ) : |∑ r, ∑ j, f r j| ≤ ∑ r, ∑ j, |f r j| :=
  (Finset.abs_sum_le_sum_abs _ _).trans (Finset.sum_le_sum fun _ _ => Finset.abs_sum_le_sum_abs _ _)

/-- Sixty-four terms within `e` have a sum within `64 * e`. -/
theorem abs_block_sum_le {f : Fin 8 → Fin 8 → ℝ} {e : ℝ} (hf : ∀ r j, |f r j| ≤ e) : |∑ r, ∑ j, f r j| ≤ 64 * e := by
  calc |∑ r, ∑ j, f r j| ≤ ∑ r, ∑ j, |f r j| := abs_block_sum_le_sum_abs f
    _ ≤ ∑ _r : Fin 8, ∑ _j : Fin 8, e := Finset.sum_le_sum fun r _ => Finset.sum_le_sum fun j _ => hf r j
    _ = 64 * e := by simp only [Finset.sum_const, Finset.card_univ, Fintype.card_fin, nsmul_eq_mul]; ring

section

variable (pixels : List Byte) (width col : ℕ) (c : Component)

theorem cast_transform_q30Ops (u v : Fin 8) :
    ((blockAt (transform q30Ops (stripSamples q30Ops pixels width col c)) u v : ℚ) : ℝ) =
      ∑ r, ∑ j, netWeight q30Const u r * netWeight q30Const v j * blockAt (stripSamples realOps pixels width col c) r j := by
  rw [blockAt_transform_eq_sum isExact_q30Ops]
  push_cast
  simp only [cast_netWeight_q30Ops, blockAt_stripSamples_realOps]

theorem transform_realOps (u v : Fin 8) :
    blockAt (transform realOps (stripSamples realOps pixels width col c)) u v =
      ∑ r, ∑ j, netWeight realConst u r * netWeight realConst v j * blockAt (stripSamples realOps pixels width col c) r j :=
  blockAt_transform_eq_sum isExact_realOps _ u v

/-- Each of 64 samples of magnitude 128 has a weight within 2^-31 of the reference. -/
theorem abs_blockAt_transform_sub_le (u v : Fin 8) :
    |((blockAt (transform q30Ops (stripSamples q30Ops pixels width col c)) u v : ℚ) : ℝ) -
      blockAt (transform realOps (stripSamples realOps pixels width col c)) u v| ≤ 1 / 2 ^ 18 := by
  rw [cast_transform_q30Ops, transform_realOps]
  simp only [← Finset.sum_sub_distrib, ← sub_mul]
  refine (abs_block_sum_le (e := 1 / 2 ^ 31 * 128) fun r j => ?_).trans (by norm_num)
  rw [abs_mul]
  exact mul_le_mul (abs_weight_product_sub_le _ _ r j) (abs_sample_le pixels width col c r j) (abs_nonneg _) (by norm_num)

theorem abs_transform_sub_le (i : Fin 64) :
    |(((transform q30Ops (stripSamples q30Ops pixels width col c))[i] : ℚ) : ℝ) -
      (transform realOps (stripSamples realOps pixels width col c))[i]| ≤ 1 / 2 ^ 18 := by
  rw [transform_getElem, transform_getElem]
  exact abs_blockAt_transform_sub_le pixels width col c _ _

/-- The registers hold what the exact rationals give. -/
theorem exactOf_columnPassOf (i : Fin 64) :
    exactOf (columnPassOf (arithOps .q30) pixels width col c)[i] =
      (transform q30Ops (stripSamples q30Ops pixels width col c))[i] := by
  have hget : ∀ q, exactOf (.exact q) = q := exactOf_exact
  rw [show arithOps .q30 = onRegisters .exact exactOf q30Ops from rfl, columnPassOf, transform,
    stripSamples_onRegisters _ hget, rowTransform_onRegisters _ hget, columnTransform_onRegisters _ hget]
  simp [transform]

end

/-! ## Rounding -/

theorem realOps_roundDiv_near (x : ℝ) (step : ℕ) : |(realOps.roundDiv x step : ℝ) - x / step| ≤ 1 / 2 := by
  simp only [realOps]
  split_ifs
  · have hlo := Int.lt_floor_add_one (x / step + 1 / 2)
    have hhi := Int.floor_le (x / step + 1 / 2)
    rw [abs_le]
    constructor <;> linarith
  · have hlo := Int.lt_floor_add_one (-(x / step) + 1 / 2)
    have hhi := Int.floor_le (-(x / step) + 1 / 2)
    rw [abs_le]
    push_cast
    constructor <;> linarith

theorem q30Ops_roundDiv_eq_realOps (q : ℚ) (step : ℕ) : q30Ops.roundDiv q step = realOps.roundDiv q step := by
  have hquot : (q : ℝ) / step = ((q / step : ℚ) : ℝ) := by push_cast; rfl
  have hfloor : ∀ r : ℚ, ⌊(r : ℝ) + 1 / 2⌋ = (r + 1 / 2).floor := fun r => by
    rw [show (r : ℝ) + 1 / 2 = ((r + 1 / 2 : ℚ) : ℝ) by push_cast; rfl, Rat.floor_cast]
    rfl
  simp only [q30Ops, realOps, roundHalfAway, hquot, ← Rat.cast_neg, hfloor, Rat.cast_nonneg]

section

variable {x y eps : ℝ} {step : ℕ} (hstep : 0 < step) (hxy : |x - y| ≤ eps)

include hstep hxy

theorem abs_quotient_sub_le : |x / step - y / step| ≤ eps / step := by
  have hpos : (0 : ℝ) < step := by exact_mod_cast hstep
  rw [← sub_div, abs_div, abs_of_pos hpos]
  gcongr

/-- Numbers within `eps` have the same quotient where one quotient is farther than `eps / step` from every half-integer. -/
theorem realOps_roundDiv_eq (hfar : ∀ k : ℤ, eps / step < |y / step - (k + 1 / 2)|) :
    realOps.roundDiv x step = realOps.roundDiv y step := by
  obtain ⟨hx1, hx2⟩ := abs_le.1 (realOps_roundDiv_near x step)
  obtain ⟨hy1, hy2⟩ := abs_le.1 (realOps_roundDiv_near y step)
  obtain ⟨hq1, hq2⟩ := abs_le.1 (abs_quotient_sub_le hstep hxy)
  have habove := hfar (realOps.roundDiv y step)
  have hbelow := hfar (realOps.roundDiv y step - 1)
  rw [abs_of_nonpos (by linarith)] at habove
  push_cast at hbelow
  rw [abs_of_nonneg (by linarith)] at hbelow
  have hlt : (realOps.roundDiv x step : ℝ) < realOps.roundDiv y step + 1 := by linarith
  have hgt : (realOps.roundDiv y step : ℝ) < realOps.roundDiv x step + 1 := by linarith
  norm_cast at hlt hgt
  omega

/-- Numbers less than 1 apart have quotients that round to integers at most 1 apart. -/
theorem abs_realOps_roundDiv_sub_le (heps : eps < 1) : |realOps.roundDiv x step - realOps.roundDiv y step| ≤ 1 := by
  obtain ⟨hx1, hx2⟩ := abs_le.1 (realOps_roundDiv_near x step)
  obtain ⟨hy1, hy2⟩ := abs_le.1 (realOps_roundDiv_near y step)
  obtain ⟨hq1, hq2⟩ := abs_le.1 (abs_quotient_sub_le hstep hxy)
  have heps' : eps / step ≤ eps := div_le_self ((abs_nonneg _).trans hxy) (by exact_mod_cast hstep)
  have hlt : (realOps.roundDiv x step : ℝ) < realOps.roundDiv y step + 2 := by linarith
  have hgt : (realOps.roundDiv y step : ℝ) < realOps.roundDiv x step + 2 := by linarith
  norm_cast at hlt hgt
  rw [abs_le]
  omega

end

/-! ## The coefficients -/

/-- The step of entry `i` of component `c` (42 R100, R101). -/
def tableStep (lt ct : List Byte) (c : Component) (i : Fin 64) : ℕ := ((if c = .y then lt else ct).getD i.val 0).toNat

theorem stripCoefs_eq {α : Type} (A : ArithOps α) (pixels : List Byte) (width col : ℕ) (lt ct : List Byte) (c : Component)
    (i : Fin 64) :
    stripCoefs A pixels width lt ct col c i = A.roundDiv (columnPassOf A pixels width col c)[i] (tableStep lt ct c i) := rfl

theorem tableStep_pos {lt ct : List Byte} (h : tablesPositive lt ct) (c : Component) (i : Fin 64) : 0 < tableStep lt ct c i := by
  obtain ⟨hlt, hct, hlt0, hct0⟩ := h
  have hentry : ∀ l : List Byte, l.length = 64 → (∀ b ∈ l, b ≠ 0) → 0 < (l.getD i.val 0).toNat := fun l hl h0 => by
    have hi : i.val < l.length := by omega
    rw [List.getD_eq_getElem l 0 hi, Nat.pos_iff_ne_zero]
    exact fun hz => h0 _ (List.getElem_mem hi) (BitVec.eq_of_toNat_eq hz)
  unfold tableStep
  split_ifs
  · exact hentry lt hlt hlt0
  · exact hentry ct hct hct0

/-- Settles O25: the weights of the samples are within 2^-31 of the reference, and quotients that are near round alike. -/
theorem qThirtyIsAdmissible : Obligations.QThirtyIsAdmissible := by
  refine ⟨abs_transform_sub_le, fun pixels width col c i _ => ?_, fun x step _ => ?_, fun α A value eps hclose hround => ?_⟩
  · simp only [exactOf_columnPassOf]
    exact abs_transform_sub_le pixels width col c i
  · exact q30Ops_roundDiv_eq_realOps (exactOf x) step
  · intro pixels width col lt ct c i hstrip hpos
    have hstep := tableStep_pos hpos c i
    have hnear := hclose pixels width col c i hstrip
    simp only [stripCoefs_eq, hround _ _ hstep]
    exact ⟨realOps_roundDiv_eq hstep hnear, abs_realOps_roundDiv_sub_le hstep hnear⟩

end Sys2Proof.Laws
end

section
/-! PROOFS. The ranges of the coefficients (41 R96, 42 R103). -/

namespace Sys2Proof.Laws

open Sys2Proof Sys2Proof.Machine Sys2Proof.Claims

/-! ## The basis functions -/

/-- A basis vector other than the first is orthogonal to the first, which is flat. -/
theorem sum_netWeight_eq_zero {k : Fin 8} (hk : k ≠ 0) : ∑ n, netWeight realConst k n = 0 := by
  have hka : realConst .ka ≠ 0 := fun h => by
    have := realConst_ka_sq
    rw [h] at this
    norm_num at this
  have horth := sum_netWeight_realConst k 0
  simp only [netWeight_zero, ← Finset.sum_mul, if_neg hk] at horth
  exact (mul_eq_zero.1 horth).resolve_right hka

/-- By Cauchy and Schwarz a vector of unit length has absolute sum at most `√8`. -/
theorem sum_abs_netWeight_sq_le (k : Fin 8) : (∑ n, |netWeight realConst k n|) ^ 2 ≤ 8 := by
  have hcauchy := sq_sum_le_card_mul_sum_sq (s := Finset.univ) (f := fun n => |netWeight realConst k n|)
  have hunit := sum_netWeight_realConst k k
  simp only [← sq, if_true] at hunit
  simpa [sq_abs, hunit] using hcauchy

/-- A basis function of two dimensions has absolute sum at most 8. -/
theorem sum_abs_weight_product_le (u v : Fin 8) :
    ∑ r, ∑ j, |netWeight realConst u r * netWeight realConst v j| ≤ 8 := by
  have hproduct : ∑ r, ∑ j, |netWeight realConst u r * netWeight realConst v j| =
      (∑ r, |netWeight realConst u r|) * ∑ j, |netWeight realConst v j| := by
    simp only [abs_mul, Finset.sum_mul_sum]
  rw [hproduct]
  linarith [two_mul_le_add_sq (∑ r, |netWeight realConst u r|) (∑ j, |netWeight realConst v j|),
    sum_abs_netWeight_sq_le u, sum_abs_netWeight_sq_le v]

/-- A basis function other than the first has sum 0. -/
theorem sum_weight_product_eq_zero {u v : Fin 8} (huv : u ≠ 0 ∨ v ≠ 0) :
    ∑ r, ∑ j, netWeight realConst u r * netWeight realConst v j = 0 := by
  rw [← Finset.sum_mul_sum]
  rcases huv with hu | hv
  · rw [sum_netWeight_eq_zero hu, zero_mul]
  · rw [sum_netWeight_eq_zero hv, mul_zero]

/-- Weights with sum 0 see only the distance of the entries from a middle. -/
theorem abs_weighted_sum_le {w s : Fin 8 → Fin 8 → ℝ} {m e : ℝ} (hzero : ∑ r, ∑ j, w r j = 0) (hs : ∀ r j, |s r j - m| ≤ e) :
    |∑ r, ∑ j, w r j * s r j| ≤ (∑ r, ∑ j, |w r j|) * e := by
  have hcentre : ∑ r, ∑ j, w r j * s r j = ∑ r, ∑ j, w r j * (s r j - m) := by
    simp only [mul_sub, Finset.sum_sub_distrib, ← Finset.sum_mul, hzero, zero_mul, sub_zero]
  calc |∑ r, ∑ j, w r j * s r j| ≤ ∑ r, ∑ j, |w r j * (s r j - m)| := hcentre ▸ abs_block_sum_le_sum_abs _
    _ ≤ ∑ r, ∑ j, |w r j| * e := Finset.sum_le_sum fun r _ => Finset.sum_le_sum fun j _ => by
        rw [abs_mul]
        exact mul_le_mul_of_nonneg_left (hs r j) (abs_nonneg _)
    _ = (∑ r, ∑ j, |w r j|) * e := by simp only [Finset.sum_mul]

/-! ## The transformed samples -/

section

variable (pixels : List Byte) (width col : ℕ)

/-- The samples of a component are within 127.5 of the middle of their range, and eight times that is 1020. -/
theorem abs_transform_realOps_le (c : Component) {u v : Fin 8} (huv : u ≠ 0 ∨ v ≠ 0) :
    |blockAt (transform realOps (stripSamples realOps pixels width col c)) u v| ≤ 1020 := by
  rw [transform_realOps]
  have hweighted := abs_weighted_sum_le (sum_weight_product_eq_zero huv) (abs_sample_sub_midrange_le pixels width col c)
  linarith [sum_abs_weight_product_le u v]

theorem abs_transform_q30Ops_le (c : Component) {u v : Fin 8} (huv : u ≠ 0 ∨ v ≠ 0) :
    |blockAt (transform q30Ops (stripSamples q30Ops pixels width col c)) u v| ≤ 1020 + 1 / 2 ^ 18 := by
  obtain ⟨hnear1, hnear2⟩ := abs_le.1 (abs_blockAt_transform_sub_le pixels width col c u v)
  obtain ⟨href1, href2⟩ := abs_le.1 (abs_transform_realOps_le pixels width col c huv)
  rw [← Rat.cast_le (K := ℝ), Rat.cast_abs, abs_le]
  push_cast
  constructor <;> linarith

/-- Entries within bounds have a sum within 64 times the bounds. -/
theorem block_sum_bounds {f : Fin 8 → Fin 8 → ℚ} {lo hi : ℚ} (hf : ∀ r j, lo ≤ f r j ∧ f r j ≤ hi) :
    64 * lo ≤ ∑ r, ∑ j, f r j ∧ ∑ r, ∑ j, f r j ≤ 64 * hi := by
  have hconst : ∀ x : ℚ, ∑ _r : Fin 8, ∑ _j : Fin 8, x = 64 * x := fun x => by
    simp only [Finset.sum_const, Finset.card_univ, Fintype.card_fin, nsmul_eq_mul]
    ring
  rw [← hconst lo, ← hconst hi]
  exact ⟨Finset.sum_le_sum fun r _ => Finset.sum_le_sum fun j _ => (hf r j).1,
    Finset.sum_le_sum fun r _ => Finset.sum_le_sum fun j _ => (hf r j).2⟩

/-- The square of the constant of `Q30` is below 1/8, so that index 0 is at most eight times a bound of the samples. -/
theorem transform_q30Ops_dc_bounds (c : Component) {lo hi : ℚ} (hlo : lo ≤ 0) (hhi : 0 ≤ hi)
    (hconv : ∀ r g b, lo ≤ convert q30Ops c r g b ∧ convert q30Ops c r g b ≤ hi) :
    8 * lo ≤ blockAt (transform q30Ops (stripSamples q30Ops pixels width col c)) 0 0 ∧
      blockAt (transform q30Ops (stripSamples q30Ops pixels width col c)) 0 0 ≤ 8 * hi := by
  obtain ⟨hsum1, hsum2⟩ := block_sum_bounds (f := blockAt (stripSamples q30Ops pixels width col c)) (lo := lo) (hi := hi)
    fun r j => by
      obtain ⟨x, y, z, h⟩ := blockAt_stripSamples pixels width col c r j
      rw [h]
      exact hconv x y z
  have hka : 0 ≤ q30Ops.const .ka ^ 2 ∧ q30Ops.const .ka ^ 2 ≤ 1 / 8 := by norm_num [q30Ops, dctNumerator]
  rw [transform_dc isExact_q30Ops]
  constructor <;> nlinarith

end

/-! ## Rounding keeps the ranges -/

theorem q30Ops_roundDiv_near (x : ℚ) (step : ℕ) : |(q30Ops.roundDiv x step : ℚ) - x / step| ≤ 1 / 2 := by
  have h := realOps_roundDiv_near x step
  rw [← q30Ops_roundDiv_eq_realOps] at h
  rw [← Rat.cast_le (K := ℝ)]
  push_cast
  exact h

/-- A number less than half outside an integer range about 0 rounds into the range, after the division by a step. -/
theorem q30Ops_roundDiv_bounds {x : ℚ} {step : ℕ} (hstep : 0 < step) {lo hi : ℤ} (hlo : lo ≤ 0) (hhi : 0 ≤ hi)
    (hx1 : (lo : ℚ) - 1 / 2 < x) (hx2 : x < hi + 1 / 2) : lo ≤ q30Ops.roundDiv x step ∧ q30Ops.roundDiv x step ≤ hi := by
  have hpos : (1 : ℚ) ≤ step := by exact_mod_cast hstep
  have hlo' : (lo : ℚ) ≤ 0 := by exact_mod_cast hlo
  have hhi' : (0 : ℚ) ≤ hi := by exact_mod_cast hhi
  have hquot1 : (lo : ℚ) - 1 / 2 < x / step := by
    rw [lt_div_iff₀ (by linarith)]
    nlinarith
  have hquot2 : x / step < hi + 1 / 2 := by
    rw [div_lt_iff₀ (by linarith)]
    nlinarith
  obtain ⟨hr1, hr2⟩ := abs_le.1 (q30Ops_roundDiv_near x step)
  have hlt : (lo : ℚ) < q30Ops.roundDiv x step + 1 := by linarith
  have hgt : (q30Ops.roundDiv x step : ℚ) < hi + 1 := by linarith
  norm_cast at hlt hgt
  omega

section

variable (pixels : List Byte) (width col : ℕ) {lt ct : List Byte} (hpos : tablesPositive lt ct) (c : Component)

include hpos

theorem stripCoefs_dc_bounds {lo hi : ℤ} (hlo : lo ≤ 0) (hhi : 0 ≤ hi)
    (hconv : ∀ r g b, (lo : ℚ) / 8 ≤ convert q30Ops c r g b ∧ convert q30Ops c r g b ≤ hi / 8) :
    lo ≤ stripCoefs q30Ops pixels width lt ct col c 0 ∧ stripCoefs q30Ops pixels width lt ct col c 0 ≤ hi := by
  have hlo' : (lo : ℚ) ≤ 0 := by exact_mod_cast hlo
  have hhi' : (0 : ℚ) ≤ hi := by exact_mod_cast hhi
  obtain ⟨h1, h2⟩ := transform_q30Ops_dc_bounds pixels width col c (by linarith) (by linarith) hconv
  have hdc : (columnPassOf q30Ops pixels width col c)[(0 : Fin 64)] =
      blockAt (transform q30Ops (stripSamples q30Ops pixels width col c)) 0 0 := rfl
  rw [stripCoefs_eq, hdc]
  exact q30Ops_roundDiv_bounds (tableStep_pos hpos c 0) hlo hhi (by linarith) (by linarith)

theorem abs_stripCoefs_ac_le {i : Fin 64} (hi : i ≠ 0) : |stripCoefs q30Ops pixels width lt ct col c i| ≤ 1020 := by
  have huv : (Fin.ofNat 8 (i.val / 8)) ≠ 0 ∨ Fin.ofNat 8 (i.val % 8) ≠ 0 := by
    revert i
    decide
  obtain ⟨h1, h2⟩ := abs_le.1 (abs_transform_q30Ops_le pixels width col c huv)
  rw [stripCoefs_eq, columnPassOf, transform_getElem, abs_le]
  exact q30Ops_roundDiv_bounds (tableStep_pos hpos c i) (by decide) (by decide) (by push_cast; linarith) (by push_cast; linarith)

end

/-- Settles O29: index 0 is in range because the constant is below `1/√8`, every other index is within 2^-18 of the reference,
whose basis functions have sum 0 and absolute sum at most 8; and rounding keeps a range with integer ends. -/
theorem quantizedRanges : Obligations.QuantizedRanges := by
  intro pixels width col lt ct hpos
  have hrange := sampleRanges.1
  refine ⟨?_, abs_le.2 ?_, abs_le.2 ?_, fun c i hi => abs_stripCoefs_ac_le pixels width col hpos c hi⟩
  · exact stripCoefs_dc_bounds pixels width col hpos .y (by decide) (by decide) fun r g b => by
      obtain ⟨hy, -, -⟩ := hrange r g b
      norm_num [hy]
  · exact stripCoefs_dc_bounds pixels width col hpos .cb (by decide) (by decide) fun r g b => by
      obtain ⟨-, hcb, -⟩ := hrange r g b
      norm_num [hcb, neg_div]
  · exact stripCoefs_dc_bounds pixels width col hpos .cr (by decide) (by decide) fun r g b => by
      obtain ⟨-, -, hcr⟩ := hrange r g b
      norm_num [hcr, neg_div]

end Sys2Proof.Laws
end

section
/-! PROOFS. How many steps a run takes and how it ends (45 R142, R145): the steps left are a function of `SEQ` and `WIDTH`, and
each operation of the schedule takes one of them or ends the run. Nothing is asked of the memories, the samples or the listing. -/

namespace Sys2Proof.Laws

open Sys2Proof Sys2Proof.Machine Sys2Proof.Claims

/-! ## A lookup misses under `FAULT` only -/

/-- The coding misses under the policy `FAULT` only (43 R107). -/
def missesUnderFault (cfg : Config) : Coding → Prop
  | .missed _ => cfg.missPolicy = .fault
  | .coded _ | .full => True

section

variable {cfg : Config}

theorem missesUnderFault_andThen {r : Coding} {f : Hardware → Coding} (hr : missesUnderFault cfg r)
    (hf : ∀ x, missesUnderFault cfg (f x)) : missesUnderFault cfg (andThen r f) := by
  cases r with
  | coded x => exact hf x
  | missed x => exact hr
  | full => trivial

theorem missesUnderFault_ofWriter (r : Option Hardware) : missesUnderFault cfg (ofWriter r) := by
  cases r <;> trivial

theorem fault_of_lookup_eq_none {k : CoefKind} {t : TableSel} {sym : Option Nat} {free : HuffCode}
    (h : lookup cfg k t sym free = none) : cfg.missPolicy = .fault := by
  unfold lookup at h
  split at h
  · cases h
  · split at h
    · cases h
    · split at h
      · cases h
      · assumption

theorem missesUnderFault_putCode (k : CoefKind) (t : TableSel) (sym : Option Nat) (free : HuffCode) (h : Hardware) :
    missesUnderFault cfg (putCode (lookup cfg k t sym free) h) := by
  unfold putCode
  split
  · exact missesUnderFault_ofWriter _
  · exact fault_of_lookup_eq_none ‹_›

theorem missesUnderFault_putExtra (v : Int) (h : Hardware) : missesUnderFault cfg (putExtra v h) := by
  unfold putExtra
  split
  · trivial
  · exact missesUnderFault_ofWriter _

theorem missesUnderFault_encodeDc (tick : Nat) (c : Component) (h : Hardware) :
    missesUnderFault cfg (encodeDc cfg tick c h) :=
  missesUnderFault_andThen (missesUnderFault_putCode _ _ _ _ _) (missesUnderFault_putExtra _)

theorem missesUnderFault_acPosition (tick : Nat) (c : Component) (pos : Nat) (h : Hardware) :
    missesUnderFault cfg (acPosition cfg tick c pos h) := by
  unfold acPosition
  simp only
  split
  · unfold acZero
    split
    · exact missesUnderFault_andThen (missesUnderFault_putCode _ _ _ _ _) fun _ => trivial
    · trivial
  · exact missesUnderFault_andThen (missesUnderFault_putCode _ _ _ _ _) fun x =>
      missesUnderFault_andThen (missesUnderFault_putExtra _ x) fun _ => trivial

theorem missesUnderFault_acScan (tick : Nat) (c : Component) (positions : List Nat) :
    ∀ h : Hardware, missesUnderFault cfg (acScan cfg tick c positions h) := by
  induction positions with
  | nil => intro h; trivial
  | cons pos rest ih => exact fun h => missesUnderFault_andThen (missesUnderFault_acPosition tick c pos h) ih

theorem missesUnderFault_encodeAc (tick : Nat) (c : Component) (h : Hardware) :
    missesUnderFault cfg (encodeAc cfg tick c h) := by
  refine missesUnderFault_andThen (missesUnderFault_acScan tick c _ _) fun x => ?_
  unfold acEnd
  split
  · trivial
  · exact missesUnderFault_putCode _ _ _ _ _

end

/-! ## The steps left -/

/-- The number of macroblock columns in `width` pixels. -/
def columnsIn (width : Nat) : Nat := (width + 7) / 8

/-- The steps from a phase of a macroblock column to the end of the column, its own included. -/
def stepsInColumn : Phase → Nat
  | .csc => 16
  | .dctr0 => 15
  | .dctc0 => 14
  | .qnt0 => 13
  | .dctr1 => 12
  | .dctc1 => 11
  | .qnt1 => 10
  | .dctr2 => 9
  | .dctc2 => 8
  | .qnt2 => 7
  | .encdc0 => 6
  | .encac0 => 5
  | .encdc1 => 4
  | .encac1 => 3
  | .encdc2 => 2
  | .encac2 => 1
  | .idle | .chk | .init | .fin | .halt => 0

/-- The steps that a run takes from `SEQ` to its end when nothing traps: in a column also those of the columns after it. -/
def stepsLeft (width : Nat) (q : Seq) : Nat :=
  match q.ph with
  | .idle => 0
  | .halt => 1
  | .fin => 2
  | .init => 3 + 16 * columnsIn width
  | .chk => 4 + 16 * columnsIn width
  | ph => stepsInColumn ph + 16 * columnsIn (width - (q.col.toNat + 8)) + 2

theorem stepsLeft_of_inMcu {width : Nat} {q : Seq} (h : inMcu q.ph = true) :
    stepsLeft width q = stepsInColumn q.ph + 16 * columnsIn (width - (q.col.toNat + 8)) + 2 := by
  unfold stepsLeft
  split
  case h_6 => rfl
  all_goals rename_i hph; rw [hph] at h; cases h

/-- From a column within the width on there are that column and those after it. -/
theorem columnsIn_succ {width col : Nat} (h : col < width) :
    columnsIn (width - col) = columnsIn (width - (col + 8)) + 1 := by
  unfold columnsIn
  omega

theorem stepsLeft_csc {width : Nat} {q : Seq} (hph : q.ph = .csc) (hcol : q.col.toNat < width) :
    stepsLeft width q = 16 * columnsIn (width - q.col.toNat) + 2 := by
  rw [stepsLeft_of_inMcu (by rw [hph]; rfl), columnsIn_succ hcol, hph, stepsInColumn]
  omega

/-! ## Runs underway, ended, and one operation on -/

/-- What the phases of a strip share in a run from `h₀` that has sent at most `m` bits. -/
structure StripRun (h₀ : Hardware) (m : Nat) (h : Hardware) : Prop where
  launch : sameLaunch h₀ h
  passed : launchOk h₀
  aligned : h.seq.col.toNat % 8 = 0
  pending : h.cnt.toNat ≤ 7
  budget : 4 * h.outlen.toNat + h.cnt.toNat ≤ m

/-- `OUT` is as at the launch, and nothing of it is output. -/
def nothingSent (h₀ h : Hardware) : Prop := h.outlen = 0 ∧ h.out = h₀.out

/-- A run from the launch state `h₀` stands at `h`, and has not ended. -/
inductive Underway (h₀ h : Hardware) : Prop
  | chk : h.seq.ph = .chk → sameLaunch h₀ h → nothingSent h₀ h → Underway h₀ h
  | init : h.seq.ph = .init → launchOk h₀ → sameLaunch h₀ h → nothingSent h₀ h → Underway h₀ h
  | column : inMcu h.seq.ph = true → h.seq.col.toNat < h.width.toNat → StripRun h₀ (bitBudget h.seq) h → Underway h₀ h
  | fin : h.seq.ph = .fin → h.seq.col.toNat ≤ 65536 → StripRun h₀ (bitBudget h.seq) h →
      (h₀.width = 0 → h.cnt = 0 ∧ nothingSent h₀ h) → Underway h₀ h
  | halt : h.seq.ph = .halt → launchOk h₀ → sameLaunch h₀ h → (h₀.width = 0 → nothingSent h₀ h) → Underway h₀ h

/-- How a run from `h₀` that had `left` steps to go has ended at `h`, after the given number of steps. -/
inductive RunEnd (h₀ : Hardware) (policy : MissPolicy) (left : Nat) : Nat → Hardware → Prop
  | done {h : Hardware} : launchOk h₀ → h.status = statusDone → (h₀.width = 0 → nothingSent h₀ h) →
      RunEnd h₀ policy left left h
  | rejected {h : Hardware} (e : BitVec 4) : ¬launchOk h₀ → e = 1 ∨ e = 2 → h.status = statusTrap e → h.outlen = 0 →
      RunEnd h₀ policy left 1 h
  | missed {n : Nat} {h : Hardware} : launchOk h₀ → h₀.width ≠ 0 → policy = .fault → n ≤ left →
      h.status = statusTrap 3 → h.outlen = 0 → RunEnd h₀ policy left n h

/-- Where one operation takes a run that had `left` steps to go: one step nearer to its end, or to its end. -/
inductive RunStep (h₀ : Hardware) (policy : MissPolicy) (left : Nat) (h : Hardware) : Prop
  | goesOn : launchOk h₀ → Underway h₀ h → left = stepsLeft h.width.toNat h.seq + 1 → RunStep h₀ policy left h
  | ends : h.seq.ph = .idle → sameLaunch h₀ h → RunEnd h₀ policy left 1 h → RunStep h₀ policy left h

/-- One step more before a run whose check has passed. -/
theorem RunEnd.cons {h₀ h : Hardware} {policy : MissPolicy} {left n : Nat} (hok : launchOk h₀)
    (he : RunEnd h₀ policy left n h) : RunEnd h₀ policy (left + 1) (n + 1) h := by
  cases he with
  | done _ hst hsent => exact .done hok hst hsent
  | rejected _ hbad => exact absurd hok hbad
  | missed _ hw hp hn hst h0 => exact .missed hok hw hp (by omega) hst h0

theorem sameLaunch_trans {h h' h'' : Hardware} (h1 : sameLaunch h h') (h2 : sameLaunch h' h'') : sameLaunch h h'' := by
  obtain ⟨hw, hp, hql, hqc, hpix, hqlm, hqcm⟩ := h1
  unfold sameLaunch at *
  rwa [hw, hp, hql, hqc, hpix, hqlm, hqcm] at h2

theorem launchWidth_ne_zero {h₀ h : Hardware} (hw : 0 < h.width.toNat) (hl : sameLaunch h₀ h) : h₀.width ≠ 0 :=
    fun hzero => by
  rw [hl.1, hzero] at hw
  exact hw.false

/-- A strip state from which a coding or `FIN` set out, as the writer left it. -/
theorem stripRun_of_coderOnly {h₀ h x : Hardware} {m m' : Nat} (hs : StripRun h₀ m h) (hc : coderOnly h x)
    (hpending : x.cnt.toNat ≤ 7) (hbudget : 4 * x.outlen.toNat + x.cnt.toNat ≤ m') : StripRun h₀ m' x :=
  ⟨sameLaunch_trans hs.launch (sameLaunch_of_coderOnly hc), hs.passed, by rw [coderOnly_seq hc]; exact hs.aligned, hpending,
    hbudget⟩

theorem bitRule_stripRun (h₀ : Hardware) : BitRule (StripRun h₀) where
  put {m v n h h'} hs hp := by
    have hbudget := hs.budget
    have hpending := hs.pending
    have hc := writerOnly_coderOnly (putBits_writerOnly hp)
    unfold putBits at hp
    split at hp
    · cases hp
      exact stripRun_of_coderOnly hs hc hpending (by omega)
    · obtain ⟨hcnt, _, hlen⟩ := drain_counts rfl hp
      exact stripRun_of_coderOnly hs hc (by omega) (by omega)
  mono hle hs := ⟨hs.launch, hs.passed, hs.aligned, hs.pending, hs.budget.trans hle⟩
  coder _ _ _ _ hs := ⟨hs.launch, hs.passed, hs.aligned, hs.pending, hs.budget⟩

/-! ## One operation -/

section

variable {h₀ h h' : Hardware} {policy : MissPolicy} (hmcu : inMcu h.seq.ph = true) (hcol : h.seq.col.toNat < h.width.toNat)

include hmcu hcol

/-- An operation that goes on within its macroblock column. -/
theorem runStep_nextPhase {ph : Phase} (hseq : h'.seq = { h.seq with ph := ph }) (hwidth : h'.width = h.width)
    (hph : inMcu ph = true) (hsteps : stepsInColumn h.seq.ph = stepsInColumn ph + 1)
    (hs : StripRun h₀ (bitBudget h'.seq) h') : RunStep h₀ policy (stepsLeft h.width.toNat h.seq) h' := by
  have hmcu' : inMcu h'.seq.ph = true := by rw [hseq]; exact hph
  refine .goesOn hs.passed (.column hmcu' (by rw [hseq, hwidth]; exact hcol) hs) ?_
  rw [stepsLeft_of_inMcu hmcu, stepsLeft_of_inMcu hmcu', hseq, hwidth, hsteps]
  simp only
  omega

/-- An operation of the datapath touches only `SB`, `CF` and `SEQ`. -/
theorem runStep_blocks {ph : Phase} (sb : Triple (Block Sample)) (cf : Triple (Block (BitVec 16)))
    (hph : inMcu ph = true) (hsteps : stepsInColumn h.seq.ph = stepsInColumn ph + 1)
    (hbudget : bitBudget h.seq ≤ bitBudget { h.seq with ph := ph }) (hs : StripRun h₀ (bitBudget h.seq) h) :
    RunStep h₀ policy (stepsLeft h.width.toNat h.seq) { h with sb := sb, cf := cf, seq := { h.seq with ph := ph } } :=
  runStep_nextPhase hmcu hcol rfl rfl hph hsteps
    ⟨hs.launch, hs.passed, hs.aligned, hs.pending, hs.budget.trans hbudget⟩

/-- A coding that goes on within the column. -/
theorem runStep_gotoPhase {m : Nat} {ph : Phase} (hc : coderOnly h h') (hph : inMcu ph = true)
    (hsteps : stepsInColumn h.seq.ph = stepsInColumn ph + 1) (hbudget : m ≤ bitBudget { h.seq with ph := ph })
    (hs : StripRun h₀ m h') : RunStep h₀ policy (stepsLeft h.width.toNat h.seq) (gotoPhase ph h') := by
  have hseq : (gotoPhase ph h').seq = { h.seq with ph := ph } := by rw [gotoPhase_seq, coderOnly_seq hc]
  refine runStep_nextPhase hmcu hcol hseq (sameLaunch_of_coderOnly hc).1 hph hsteps ?_
  rw [hseq]
  exact ⟨hs.launch, hs.passed, hs.aligned, hs.pending, hs.budget.trans hbudget⟩

/-- The last coding of a column goes on to the next column, or past the last one to `FIN` (45 R139). -/
theorem runStep_nextMcu {tick : Nat} (hph : h.seq.ph = .encac2) (hc : coderOnly h h')
    (hs : StripRun h₀ (bitBudget h.seq + 2016) h') :
    RunStep h₀ policy (stepsLeft h.width.toNat h.seq) (nextMcu tick h') := by
  have hseq := coderOnly_seq hc
  have hwidth := (sameLaunch_of_coderOnly hc).1
  have hlt := h.width.isLt
  have hnext : (nextColumn tick h.seq.col).toNat = h.seq.col.toNat + 8 := nextColumn_toNat (by omega)
  have hbudget : bitBudget h.seq + 2016 = 768 * (h.seq.col.toNat + 8) := by
    simp only [bitBudget, hph]
    omega
  have hleft : stepsLeft h.width.toNat h.seq = 16 * columnsIn (h.width.toNat - (h.seq.col.toNat + 8)) + 3 := by
    rw [stepsLeft_of_inMcu hmcu, hph, stepsInColumn]
    omega
  have haligned := hs.aligned
  rw [hseq] at haligned
  have hs' : ∀ ph, StripRun h₀ (768 * (h.seq.col.toNat + 8))
      { h' with seq := { ph := ph, col := nextColumn tick h.seq.col } } := fun ph =>
    ⟨hs.launch, hs.passed, by simp only [hnext]; omega, hs.pending, hbudget ▸ hs.budget⟩
  by_cases hw : h.seq.col.toNat + 8 < h.width.toNat
  · have hgoes : nextMcu tick h' = { h' with seq := { ph := .csc, col := nextColumn tick h.seq.col } } := by
      simp only [nextMcu, hseq, hwidth, if_pos hw]
    rw [hgoes, hleft]
    refine .goesOn hs.passed (.column rfl (by simp only [hnext, hwidth]; exact hw) ?_) ?_
    · simp only [bitBudget, hnext]
      exact hs' .csc
    · rw [stepsLeft_csc rfl (by simp only [hnext, hwidth]; exact hw)]
      simp only [hnext, hwidth]
  · have hgoes : nextMcu tick h' = { h' with seq := { ph := .fin, col := nextColumn tick h.seq.col } } := by
      simp only [nextMcu, hseq, hwidth, if_neg hw]
    rw [hgoes, hleft, show columnsIn (h.width.toNat - (h.seq.col.toNat + 8)) = 0 by unfold columnsIn; omega]
    refine .goesOn hs.passed (.fin rfl (by simp only [hnext]; omega) ?_ fun hzero => ?_) rfl
    · simp only [bitBudget, hnext]
      exact hs' .fin
    · exact absurd hzero (launchWidth_ne_zero (hwidth ▸ hcol.pos) hs.launch)

end

/-- A miss traps, which ends the run (60 R152, R155). -/
theorem runStep_missed {h₀ h : Hardware} {policy : MissPolicy} {m left : Nat} (hs : StripRun h₀ m h) (hw : h₀.width ≠ 0)
    (hp : policy = .fault) (hleft : 1 ≤ left) : RunStep h₀ policy left (takeTrap 3 h) :=
  .ends rfl hs.launch (.missed hs.passed hw hp hleft rfl rfl)

/-- A coding with room in `OUT` goes on, or a miss ends the run. -/
theorem exec_coding_runStep {h₀ : Hardware} {s : State} {next : Hardware → Hardware} {r : Coding} {m n left : Nat}
    (hroom : endsWithin n r) (hmiss : missesUnderFault s.cfg r) (hr : reaches (StripRun h₀ m) r)
    (hc : reaches (coderOnly s.hw) r) (hw : h₀.width ≠ 0) (hleft : 1 ≤ left)
    (hnext : ∀ x, coderOnly s.hw x → StripRun h₀ m x → RunStep h₀ s.cfg.missPolicy left (next x)) :
    ∃ t, codingOutcome s next r = .next t ∧ RunStep h₀ s.cfg.missPolicy left t.hw := by
  cases r with
  | coded x => exact ⟨_, rfl, hnext x hc hr⟩
  | missed x => exact ⟨_, rfl, runStep_missed hr hw hmiss hleft⟩
  | full => exact hroom.elim

/-- The check passes, or it ends the run after one step (45 R137). -/
theorem runStep_checkLaunch {h₀ h : Hardware} {policy : MissPolicy} (hph : h.seq.ph = .chk) (hl : sameLaunch h₀ h)
    (hsent : nothingSent h₀ h) : RunStep h₀ policy (stepsLeft h.width.toNat h.seq) (checkLaunch h) := by
  have hok : launchOk h₀ ↔ launchOk h := by
    obtain ⟨hw, hp, hql, hqc, -⟩ := hl
    rw [launchOk, launchOk, hw, hp, hql, hqc]
  unfold checkLaunch
  split_ifs with hq hp
  · refine .ends rfl hl (.rejected 1 (fun hgood => ?_) (.inl rfl) rfl rfl)
    obtain ⟨hql, hqc, -⟩ := hok.1 hgood
    exact hq.elim (· hql) (· hqc)
  · exact .ends rfl hl (.rejected 2 (fun hgood => hp (hok.1 hgood).2.2) (.inr rfl) rfl rfl)
  · obtain ⟨hql, hqc⟩ := not_or.1 hq
    have hgood : launchOk h₀ := hok.2 ⟨not_not.1 hql, not_not.1 hqc, not_not.1 hp⟩
    refine .goesOn hgood (.init rfl hgood hl hsent) ?_
    simp only [stepsLeft, hph, gotoPhase_seq, gotoPhase_width]
    omega

/-- `INIT` goes on to the first column, or with `WIDTH = 0` to `FIN` (45 R138). -/
theorem runStep_initStrip {h₀ h : Hardware} {policy : MissPolicy} (hph : h.seq.ph = .init) (hok : launchOk h₀)
    (hl : sameLaunch h₀ h) (hsent : nothingSent h₀ h) :
    RunStep h₀ policy (stepsLeft h.width.toNat h.seq) (initStrip h) := by
  have hs : ∀ m, StripRun h₀ m (initStrip h) := fun m =>
    ⟨hl, hok, rfl, Nat.zero_le 7, by rw [initStrip_outlen, initStrip_cnt, hsent.1]; exact Nat.zero_le m⟩
  have hleft : stepsLeft h.width.toNat h.seq = 3 + 16 * columnsIn h.width.toNat := by simp only [stepsLeft, hph]
  by_cases hw : 0 < h.width.toNat
  · have hq : (initStrip h).seq = { ph := .csc, col := 0 } := by simp [hw]
    refine .goesOn hok (.column (by rw [hq]; rfl) (by rw [hq]; exact hw) (hs _)) ?_
    rw [hleft, hq, initStrip_width, stepsLeft_csc rfl hw]
    exact Nat.add_comm _ _
  · have hq : (initStrip h).seq = { ph := .fin, col := 0 } := by simp [hw]
    refine .goesOn hok (.fin (by rw [hq]) (by rw [hq]; decide) (hs _) fun _ => ⟨rfl, hsent⟩) ?_
    rw [hleft, hq, show h.width.toNat = 0 by omega]
    rfl

/-- `FIN` completes, with nothing pending it sends nothing, and `HALT` is next (44 R123). -/
theorem runStep_flush {h₀ h x : Hardware} {policy : MissPolicy} {m tick : Nat} (hph : h.seq.ph = .fin)
    (hs : StripRun h₀ m h) (hsent : h₀.width = 0 → h.cnt = 0 ∧ nothingSent h₀ h) (hx : flush tick h = some x) :
    RunStep h₀ policy (stepsLeft h.width.toNat h.seq) (gotoPhase .halt x) := by
  have hl := sameLaunch_trans hs.launch (sameLaunch_of_coderOnly (writerOnly_coderOnly (flush_writerOnly hx)))
  refine .goesOn hs.passed (.halt rfl hs.passed hl fun hw => ?_) ?_
  · obtain ⟨hcnt, hnothing⟩ := hsent hw
    rw [flush, if_pos (by rw [hcnt]; rfl)] at hx
    cases hx
    exact hnothing
  · simp only [stepsLeft, hph, gotoPhase_seq]

theorem runStep_endRun {h₀ h : Hardware} {policy : MissPolicy} (hph : h.seq.ph = .halt) (hok : launchOk h₀)
    (hl : sameLaunch h₀ h) (hsent : h₀.width = 0 → nothingSent h₀ h) :
    RunStep h₀ policy (stepsLeft h.width.toNat h.seq) (endRun h) := by
  rw [show stepsLeft h.width.toNat h.seq = 1 by simp only [stepsLeft, hph]]
  exact .ends rfl hl (.done hok rfl hsent)

/-- A macroblock column takes the bits of its budget and starts at 65528 at most, so that one block more finds room. -/
theorem stripRun_room {h₀ h : Hardware} (hcol : h.seq.col.toNat < h.width.toNat) (hs : StripRun h₀ (bitBudget h.seq) h) :
    h.outlen.toNat + 1270 ≤ capacity .out := by
  have hwidth := h.width.isLt
  have hbits := hs.budget
  have hmax := bitBudget_le h.seq
  rw [capacity_out]
  omega

/-- The operation that a phase of a macroblock column schedules completes, and takes the run one step on. -/
theorem exec_column_runStep {h₀ : Hardware} {i : Instr} {s : State} (hsch : Scheduled s.hw.seq i)
    (hmcu : inMcu s.hw.seq.ph = true) (hcol : s.hw.seq.col.toNat < s.hw.width.toNat)
    (hs : StripRun h₀ (bitBudget s.hw.seq) s.hw) :
    ∃ t, exec i s = .next t ∧ RunStep h₀ s.cfg.missPolicy (stepsLeft s.hw.width.toNat s.hw.seq) t.hw := by
  have hroom := stripRun_room hcol hs
  have hph := hsch.phase
  have hw : h₀.width ≠ 0 := launchWidth_ne_zero hcol.pos hs.launch
  have hleft : 1 ≤ stepsLeft s.hw.width.toNat s.hw.seq := by rw [stepsLeft_of_inMcu hmcu]; omega
  cases coreOp_of_not_isHost hsch.not_isHost with
  | csc col =>
    obtain ⟨hoperand, hnat⟩ := hsch.csc_operand
    refine ⟨_, exec_csc_eq_next.2 ⟨by rw [hnat]; exact hs.aligned, rfl⟩, ?_⟩
    simp only [colorConvert, hoperand]
    exact runStep_blocks hmcu hcol _ s.hw.cf rfl (by rw [hph]; rfl) (by simp [bitBudget, hph, phaseOf]) hs
  | dctr c =>
    rw [phaseOf_dctrOp] at hph
    refine ⟨_, exec_dctr c s, runStep_blocks hmcu hcol _ s.hw.cf ?_ ?_ ?_ hs⟩ <;>
      cases c <;> simp [hph, inMcu, bitBudget, stepsInColumn, dctrPhase, dctcPhase]
  | dctc c =>
    rw [phaseOf_dctcOp] at hph
    refine ⟨_, exec_dctc c s, runStep_blocks hmcu hcol _ s.hw.cf ?_ ?_ ?_ hs⟩ <;>
      cases c <;> simp [hph, inMcu, bitBudget, stepsInColumn, dctcPhase, qntPhase]
  | qnt c =>
    rw [phaseOf_qntOp] at hph
    refine ⟨_, exec_qnt c s, runStep_blocks hmcu hcol s.hw.sb _ ?_ ?_ ?_ hs⟩ <;>
      cases c <;> simp [hph, inMcu, bitBudget, stepsInColumn, qntPhase, afterQnt]
  | encdc c =>
    rw [phaseOf_encdcOp] at hph
    rw [exec_encdc]
    refine exec_coding_runStep (encodeDc_room _ _ _ _ (by omega)) (missesUnderFault_encodeDc _ _ _)
      ((bitRule_stripRun h₀).encodeDc _ _ _ hs) (encodeDc_coderOnly _ _ _ _) hw hleft fun x hc hx =>
        runStep_gotoPhase hmcu hcol hc ?_ ?_ ?_ hx <;>
      cases c <;> simp [hph, inMcu, bitBudget, stepsInColumn, encdcPhase, encacPhase]
  | encac c =>
    rw [phaseOf_encacOp] at hph
    rw [exec_encac]
    refine exec_coding_runStep (encodeAc_room _ _ _ _ hroom) (missesUnderFault_encodeAc _ _ _)
      ((bitRule_stripRun h₀).encodeAc _ _ _ hs) (encodeAc_coderOnly _ _ _ _) hw hleft fun x hc hx => ?_
    cases c with
    | y => exact runStep_gotoPhase hmcu hcol hc rfl (by rw [hph]; rfl) (by simp [bitBudget, hph, encacPhase]) hx
    | cb => exact runStep_gotoPhase hmcu hcol hc rfl (by rw [hph]; rfl) (by simp [bitBudget, hph, encacPhase]) hx
    | cr => exact runStep_nextMcu hmcu hcol hph hc hx
  | chk | init | fin | halt | putb | trap => rw [hph] at hmcu; cases hmcu

/-- The scheduled operation of a run underway completes, and takes the run one step on. -/
theorem exec_underway {h₀ : Hardware} {i : Instr} {s : State} (hu : Underway h₀ s.hw) (hsch : Scheduled s.hw.seq i) :
    ∃ t, exec i s = .next t ∧ RunStep h₀ s.cfg.missPolicy (stepsLeft s.hw.width.toNat s.hw.seq) t.hw := by
  have only : ∀ j, scheduledOp s.hw.seq = some j → i = j := fun _ hj => Option.some.inj (hsch.op.symm.trans hj)
  cases hu with
  | chk hph hl hsent =>
    rw [only .chk (by simp only [scheduledOp, hph])]
    exact ⟨_, exec_chk s, runStep_checkLaunch hph hl hsent⟩
  | init hph hok hl hsent =>
    rw [only .init (by simp only [scheduledOp, hph])]
    exact ⟨_, exec_init s, runStep_initStrip hph hok hl hsent⟩
  | column hmcu hcol hs => exact exec_column_runStep hsch hmcu hcol hs
  | fin hph hcol hs hsent =>
    have hbits := hs.budget
    rw [show bitBudget s.hw.seq = 768 * s.hw.seq.col.toNat by simp [bitBudget, hph]] at hbits
    obtain ⟨x, hx⟩ := flush_isSome (tick := s.env.tick) (h := s.hw) (by rw [capacity_out]; omega)
    rw [only .fin (by simp only [scheduledOp, hph])]
    exact ⟨_, exec_fin_eq_next.2 ⟨x, hx, rfl⟩, runStep_flush hph hs hsent hx⟩
  | halt hph hok hl hsent =>
    rw [only .halt (by simp only [scheduledOp, hph])]
    exact ⟨_, exec_halt s, runStep_endRun hph hok hl hsent⟩

/-! ## The whole run -/

theorem Underway.phase_ne_idle {h₀ h : Hardware} (hu : Underway h₀ h) : h.seq.ph ≠ .idle := by
  cases hu with
  | column hmcu => intro hidle; rw [hidle] at hmcu; cases hmcu
  | chk hph | init hph | fin hph | halt hph => rw [hph]; decide

/-- A phase other than `IDLE` schedules an operation. -/
theorem exists_scheduledOp {q : Seq} (h : q.ph ≠ .idle) : ∃ i, scheduledOp q = some i := by
  unfold scheduledOp
  split
  · exact absurd ‹_› h
  all_goals exact ⟨_, rfl⟩

/-- In a run underway a `CSC` phase has a column that `CSC` can name. -/
theorem Underway.csc_column {h₀ h : Hardware} (hu : Underway h₀ h) (hcsc : h.seq.ph = .csc) :
    h.seq.col.toNat < 2 ^ 16 := by
  cases hu with
  | column _ hcol => exact hcol.trans h.width.isLt
  | chk hph | init hph | fin hph | halt hph => rw [hph] at hcsc; cases hcsc

/-- With no turn listed the core performs its scheduled operation (log entry 2). -/
theorem step_of_scheduled {s : State} {i : Instr} (hturns : s.env.turns = []) (hsch : Scheduled s.hw.seq i) :
    step s = exec i (advance s.env.listing s) := by
  have hturn : currentTurn s = .core := by
    unfold currentTurn
    rw [hturns]
    exact if_neg hsch.phase_ne_idle
  have hact : coreActivity s = .op i s.env.listing := by
    unfold coreActivity
    rw [hsch.op]
    exact if_neg fun hbad => Nat.not_lt.2 hbad.2 (hsch.column hbad.1)
  simp only [step, nextActivity, hturn, hact]

/-- A run that takes a step ends one step later than from there. -/
theorem endsAfter_succ {n : Nat} {s t u : State} (hph : s.hw.seq.ph ≠ .idle) (hstep : step s = .next u)
    (he : endsAfter n u t) : endsAfter (n + 1) s t := by
  obtain ⟨hrun, hidle, hfirst⟩ := he
  refine ⟨runSteps_succ hstep hrun, hidle, fun m hm v hv => ?_⟩
  cases m with
  | zero => cases hv; exact hph
  | succ m =>
    simp only [runSteps, hstep] at hv
    exact hfirst m (by omega) v hv

/-- A run underway with nobody but the core moving ends, by induction on the steps left. -/
theorem underway_ends {h₀ : Hardware} (left : Nat) : ∀ {s : State}, s.env.turns = [] → Underway h₀ s.hw →
    stepsLeft s.hw.width.toNat s.hw.seq = left →
    ∃ n t, endsAfter n s t ∧ sameLaunch h₀ t.hw ∧ RunEnd h₀ s.cfg.missPolicy left n t.hw := by
  induction left using Nat.strong_induction_on with
  | _ left ih =>
    intro s hturns hu hleft
    obtain ⟨i, hop⟩ := exists_scheduledOp hu.phase_ne_idle
    have hsch : Scheduled s.hw.seq i := ⟨hop, hu.csc_column⟩
    obtain ⟨u, hx, hrun⟩ := exec_underway (s := advance s.env.listing s) hu hsch
    have hstep : step s = .next u := (step_of_scheduled hturns hsch).trans hx
    obtain ⟨hcfg, henv⟩ := exec_core_keeps hsch.not_isHost hx
    rw [advance_hw, advance_cfg, hleft] at hrun
    cases hrun with
    | ends hidle hl he =>
      exact ⟨1, u, endsAfter_succ hu.phase_ne_idle hstep ⟨rfl, hidle, by simp⟩, hl, he⟩
    | goesOn hok hu' hleft' =>
      have hturns' : u.env.turns = [] := by rw [henv, advance_turns, hturns]; rfl
      obtain ⟨n, t, he, hl, hend⟩ := ih _ (by omega) hturns' hu' rfl
      rw [hcfg, advance_cfg] at hend
      exact ⟨n + 1, t, endsAfter_succ hu.phase_ne_idle hstep he, hl, hleft' ▸ hend.cons hok⟩

/-- Settles O55: the steps left at the launch are `4 + 16 * ceil(WIDTH/8)`, and each operation takes one of them or ends the
run with a trap. -/
theorem runStepCount : Obligations.RunStepCount := by
  intro s hlaunched
  obtain ⟨hph, -, h0, hturns⟩ := hlaunched
  have hwidth := s.hw.width.isLt
  have hleft : stepsLeft s.hw.width.toNat s.hw.seq = 4 + 16 * ((s.hw.width.toNat + 7) / 8) := by
    simp only [stepsLeft, hph, columnsIn]
  obtain ⟨n, t, he, hl, hend⟩ := underway_ends _ hturns (.chk hph ⟨rfl, rfl, rfl, rfl, rfl, rfl, rfl⟩ ⟨h0, rfl⟩) hleft
  refine ⟨n, t, he, ?_⟩
  cases hend with
  | done hok hst hsent =>
    refine ⟨le_rfl, by omega, hl, fun hbad => absurd hok hbad, fun _ hw => ⟨hst, hsent hw⟩, fun _ => ?_⟩
    exact ⟨.inl hst, fun _ => rfl, fun _ _ => hst⟩
  | rejected e hbad hcode hst hempty =>
    have hstatus : t.hw.status = statusTrap 1 ∨ t.hw.status = statusTrap 2 :=
      hcode.imp (fun hcode => by rw [hst, hcode]) (fun hcode => by rw [hst, hcode])
    refine ⟨by omega, by omega, hl, fun _ => ⟨rfl, hstatus, hempty⟩, fun hok => absurd hok hbad, fun _ => ?_⟩
    refine ⟨.inr ⟨hstatus.imp_right .inl, hempty⟩, fun hdone => ?_, fun hok => absurd hok hbad⟩
    rcases hstatus with h | h <;> rw [hdone] at h <;> cases h
  | missed hok hw hfault hn hst hempty =>
    refine ⟨hn, by omega, hl, fun hbad => absurd hok hbad, fun _ hzero => absurd hzero hw, fun _ => ?_⟩
    refine ⟨.inr ⟨.inr (.inr hst), hempty⟩, fun hdone => ?_, fun _ hp => ?_⟩
    · rw [hdone] at hst; cases hst
    · rw [hfault] at hp; cases hp

end Sys2Proof.Laws
end

section
/-! PROOFS. The rounding rule and `QNT` (42 R99 to R102, R104). -/

namespace Sys2Proof.Laws

open Sys2Proof Sys2Proof.Machine Sys2Proof.Claims

/-! ## The rounding rule -/

theorem roundHalfAway_of_nonneg {q : ℚ} (h : 0 ≤ q) : roundHalfAway q = ⌊q + 1 / 2⌋ := if_pos h

theorem roundHalfAway_of_neg {q : ℚ} (h : q < 0) : roundHalfAway q = -⌊-q + 1 / 2⌋ := if_neg h.not_ge

@[simp] theorem roundHalfAway_zero : roundHalfAway 0 = 0 := by
  rw [roundHalfAway_of_nonneg le_rfl]
  norm_num

/-- `RHA` is odd. -/
theorem roundHalfAway_neg (q : ℚ) : roundHalfAway (-q) = -roundHalfAway q := by
  rcases lt_trichotomy q 0 with h | rfl | h
  · rw [roundHalfAway_of_neg h, roundHalfAway_of_nonneg (by linarith), neg_neg]
  · simp
  · rw [roundHalfAway_of_nonneg h.le, roundHalfAway_of_neg (by linarith), neg_neg]

/-- For numerator and denominator without a sign, half of the denominator is added before the division (42 R104). -/
theorem roundHalfAway_natCast_div {D : ℕ} (hD : 0 < D) (k : ℕ) :
    roundHalfAway ((k : ℚ) / D) = (2 * k + D : ℤ) / (2 * D : ℤ) := by
  have hD' : (D : ℚ) ≠ 0 := by positivity
  have hsum : (k : ℚ) / D + 1 / 2 = ((2 * k + D : ℤ) : ℚ) / (2 * D : ℕ) := by
    push_cast
    field_simp
  rw [roundHalfAway_of_nonneg (by positivity), hsum, Rat.floor_intCast_div_natCast]
  push_cast
  rfl

/-- The integer form of `RHA` for a numerator of either sign (42 R104). -/
theorem roundHalfAway_intCast_div {D : ℕ} (hD : 0 < D) (n : ℤ) :
    roundHalfAway ((n : ℚ) / D) = n.sign * ((2 * |n| + D) / (2 * D)) := by
  rcases lt_trichotomy n 0 with h | rfl | h
  · obtain ⟨k, rfl⟩ := Int.exists_eq_neg_ofNat h.le
    rw [Int.sign_eq_neg_one_of_neg h, abs_neg, Nat.abs_cast, Int.cast_neg, Int.cast_natCast, neg_div, roundHalfAway_neg,
      roundHalfAway_natCast_div hD, neg_one_mul]
  · simp
  · obtain ⟨k, rfl⟩ := Int.eq_ofNat_of_zero_le h.le
    rw [Int.sign_eq_one_of_pos h, Nat.abs_cast, Int.cast_natCast, roundHalfAway_natCast_div hD, one_mul]

/-- Settles O27: the two cases are the definition's, and half a denominator is added to the numerator's magnitude. -/
theorem roundingRule : Obligations.RoundingRule := by
  refine ⟨fun q => ⟨roundHalfAway_of_nonneg, roundHalfAway_of_neg, roundHalfAway_neg q⟩, fun n d step hd hstep => ?_⟩
  change roundHalfAway ((n : ℚ) / d / step) = _
  rw [div_div, ← Nat.cast_mul, roundHalfAway_intCast_div (Nat.mul_pos hd hstep)]

/-! ## `QNT` -/

theorem toInt_coefOfInt {z : ℤ} (hlo : -(2 ^ 15) ≤ z) (hhi : z < 2 ^ 15) (free : BitVec 16) :
    (coefOfInt z free).toInt = z := by
  rw [coefOfInt, if_pos ⟨hlo, hhi⟩, BitVec.toInt_ofInt, Int.bmod_eq_of_le (by simpa using hlo) (by simpa using hhi)]

theorem stepOf_eq (h : Hardware) (c : Component) (i : ℕ) :
    stepOf h c i = (readByte (if c = .y then h.ql else h.qc) i).toNat := by
  cases c <;> rfl

/-- Settles O28: `QNT c` writes the block of the quantizer, whose entries that fit are the rounded quotients. -/
theorem qntResult : Obligations.QntResult := by
  intro c s
  refine ⟨quantizeBlock (arithOps s.cfg.arith) s.env.tick s.hw c, exec_qnt c s, fun i hstep hlo hhi => ?_⟩
  rw [Fin.getElem_fin, quantizeBlock_getElem, quantize, stepOf_eq, if_neg hstep.ne']
  exact toInt_coefOfInt hlo hhi _

end Sys2Proof.Laws
end

section
/-! PROOFS. The magnitude category, the extra bits and their decoding (43 R105, R106, R120). -/

namespace Sys2Proof.Laws

open Sys2Proof Sys2Proof.Machine Sys2Proof.Claims

theorem bitLength_bounds {n : Nat} (hn : n ≠ 0) :
    1 ≤ bitLength n ∧ 2 ^ (bitLength n - 1) ≤ n ∧ n < 2 ^ bitLength n := by
  rw [bitLength, if_neg hn]
  exact ⟨Nat.succ_pos _, Nat.log2_self_le hn, Nat.lt_log2_self⟩

section

variable {v : Int}

/-- The magnitude lies between the two powers of two that the category names. -/
theorem category_bounds (hv : v ≠ 0) :
    1 ≤ category v ∧ 2 ^ (category v - 1) ≤ v.natAbs ∧ v.natAbs < 2 ^ category v :=
  bitLength_bounds (Int.natAbs_ne_zero.2 hv)

theorem category_neg (v : Int) : category (-v) = category v := congrArg bitLength (Int.natAbs_neg v)

theorem category_eq_zero_iff : category v = 0 ↔ v = 0 := by
  constructor
  · intro h
    by_contra hv
    have := (category_bounds hv).1
    omega
  · rintro rfl
    exact category_zero

theorem two_pow_category (hv : v ≠ 0) : 2 ^ category v = 2 * 2 ^ (category v - 1) := by
  rw [← pow_succ', Nat.sub_add_cancel (category_bounds hv).1]

/-- A positive value is its own extra bits, whose top bit is set. -/
theorem extraBits_of_pos (hv : 0 < v) :
    (extraBits v : Int) = v ∧ extraBits v < 2 ^ category v ∧ 2 ^ (category v - 1) ≤ extraBits v := by
  obtain ⟨-, hlow, hhigh⟩ := category_bounds hv.ne'
  rw [extraBits, if_pos hv]
  omega

/-- The extra bits of a negative value are short by their top bit. -/
theorem extraBits_of_neg (hv : v < 0) :
    (extraBits v : Int) = v + 2 ^ category v - 1 ∧ extraBits v < 2 ^ (category v - 1) := by
  obtain ⟨-, hlow, hhigh⟩ := category_bounds hv.ne
  have hpow := two_pow_category hv.ne
  have hcast : ((2 ^ category v : Nat) : Int) = 2 ^ category v := by push_cast; rfl
  rw [extraBits, if_neg hv.le.not_gt, if_pos hv]
  omega

end

/-- Settles O30: the category is the number of bits of the magnitude; positive and negative values differ in the top extra bit. -/
theorem categoryAndExtraBits : Obligations.CategoryAndExtraBits := by
  refine ⟨category_zero, fun v hv => ?_⟩
  obtain ⟨hone, hlow, hhigh⟩ := category_bounds hv
  refine ⟨hone, hlow, hhigh, category_neg v, ?_⟩
  rcases hv.lt_or_gt with hneg | hpos
  · obtain ⟨hextra, hlt⟩ := extraBits_of_neg hneg
    have hpow := two_pow_category hv
    rw [if_neg hneg.le.not_gt]
    exact ⟨hextra, by omega, iff_of_false (by omega) (by omega)⟩
  · obtain ⟨hextra, hlt, htop⟩ := extraBits_of_pos hpos
    rw [if_pos hpos]
    exact ⟨hextra, hlt, iff_of_true htop hpos⟩

/-- Settles O31: the decoder tells the sign by the top extra bit. -/
theorem categorizationRoundTrip : Obligations.CategorizationRoundTrip := by
  intro v
  rcases lt_trichotomy v 0 with hneg | rfl | hpos
  · obtain ⟨hextra, hlt⟩ := extraBits_of_neg hneg
    rw [decodeExtra, if_neg (mt category_eq_zero_iff.1 hneg.ne), if_neg (by omega), hextra]
    ring
  · rfl
  · obtain ⟨hextra, -, htop⟩ := extraBits_of_pos hpos
    rw [decodeExtra, if_neg (mt category_eq_zero_iff.1 hpos.ne'), if_pos htop, hextra]

end Sys2Proof.Laws
end

section
/-! PROOFS. The lookup, and that under `Q30` with nonzero steps no lookup of a strip misses `HUFF_STD` (43 R107, R116, R117). -/

namespace Sys2Proof.Laws

open Sys2Proof Sys2Proof.Machine Sys2Proof.Claims

/-! ## The lookup -/

section

variable {cfg : Config} {k : CoefKind} {t : TableSel} {i : Nat}

theorem lookup_of_valid {code : HuffCode} (h : (romOf cfg.huff k t).getD i none = some code) (free : HuffCode) :
    lookup cfg k t (some i) free = some code := by
  simp only [lookup, h]

theorem lookup_of_invalid (h : (romOf cfg.huff k t).getD i none = none) (free : HuffCode) :
    lookup cfg k t (some i) free = if cfg.missPolicy = .placeholder then some placeholderCode else none := by
  simp only [lookup, h]
  cases cfg.missPolicy <;> rfl

/-- An index past the end of the ROM is an invalid entry. -/
theorem getD_none_eq_some_iff {rom : HuffRom} {code : HuffCode} :
    rom.getD i none = some code ↔ rom[i]? = some (some code) := by
  rw [List.getD_eq_getElem?_getD]
  cases rom[i]? <;> simp

end

/-- Settles O32: the entry decides, and then the miss policy. -/
theorem lookupRule : Obligations.LookupRule := by
  intro cfg k t i free
  have invalid (h : ∀ code, (romOf cfg.huff k t)[i]? ≠ some (some code)) : (romOf cfg.huff k t).getD i none = none :=
    Option.eq_none_iff_forall_ne_some.2 fun code hcode => h code (getD_none_eq_some_iff.1 hcode)
  refine ⟨fun code h => lookup_of_valid (getD_none_eq_some_iff.2 h) free, fun h hpolicy => ?_, fun h hpolicy => ?_⟩
  · refine ⟨placeholderCode, ?_, rfl, rfl⟩
    rw [lookup_of_invalid (invalid h), if_pos hpolicy]
  · rw [lookup_of_invalid (invalid h), if_neg (by rw [hpolicy]; decide)]

/-! ## The categories of a strip -/

section

variable (pixels : List Byte) (width : Nat) {lt ct : List Byte} (hpos : tablesPositive lt ct) (c : Component)

include hpos

theorem stripCoefs_dc_within (col : Nat) :
    -1024 ≤ stripCoefs q30Ops pixels width lt ct col c 0 ∧ stripCoefs q30Ops pixels width lt ct col c 0 ≤ 1020 := by
  obtain ⟨hy, hcb, hcr, -⟩ := quantizedRanges pixels width col lt ct hpos
  rw [abs_le] at hcb hcr
  cases c <;> omega

theorem category_dc_le (col : Nat) : category (stripCoefs q30Ops pixels width lt ct col c 0) ≤ 11 := by
  have hdc := stripCoefs_dc_within pixels width hpos c col
  exact bitLength_le (by omega)

/-- Two values of the DC range are less than 2^11 apart. -/
theorem category_dc_diff_le (col col' : Nat) :
    category (stripCoefs q30Ops pixels width lt ct col c 0 - stripCoefs q30Ops pixels width lt ct col' c 0) ≤ 11 := by
  have hdc := stripCoefs_dc_within pixels width hpos c col
  have hdc' := stripCoefs_dc_within pixels width hpos c col'
  exact bitLength_le (by omega)

theorem category_ac_le (col : Nat) {i : Fin 64} (hi : i ≠ 0) :
    category (stripCoefs q30Ops pixels width lt ct col c i) ≤ 10 := by
  have hac := abs_le.1 (abs_stripCoefs_ac_le pixels width col hpos c hi)
  exact bitLength_le (by omega)

end

/-! ## `HUFF_STD` has their codes -/

theorem huffStd_dc_valid (t : TableSel) : ∀ n ≤ 11, ((romOf huffStd .dc t).getD n none).isSome := by
  cases t <;> decide +kernel

theorem huffStd_ac_valid (t : TableSel) :
    ∀ run < 16, ∀ size < 10, ((romOf huffStd .ac t).getD (16 * run + (size + 1)) none).isSome := by
  cases t <;> decide +kernel

theorem huffStd_eob_zrl_valid (t : TableSel) :
    ((romOf huffStd .ac t).getD 0x00 none).isSome ∧ ((romOf huffStd .ac t).getD 0xF0 none).isSome := by
  cases t <;> decide +kernel

theorem both_isSome {ps qs : Option (List (Nat × Nat))} (hp : ps.isSome) (hq : qs.isSome) : (both ps qs).isSome := by
  obtain ⟨p, rfl⟩ := Option.isSome_iff_exists.1 hp
  obtain ⟨q, rfl⟩ := Option.isSome_iff_exists.1 hq
  rfl

section

variable {cfg : Config} (hstd : cfg.huff = huffStd) (t : TableSel)

include hstd

theorem codeOf_isSome {k : CoefKind} {i : Nat} (h : ((romOf huffStd k t).getD i none).isSome) :
    (codeOf cfg k t i).isSome := by
  obtain ⟨code, hcode⟩ := Option.isSome_iff_exists.1 h
  rw [codeOf, lookup_of_valid (hstd ▸ hcode)]
  rfl

theorem dcPairs_isSome {diff : Int} (h : category diff ≤ 11) : (dcPairs cfg t diff).isSome := by
  rw [dcPairs, Option.isSome_map]
  exact codeOf_isSome hstd t (huffStd_dc_valid t _ h)

theorem zrlItems_isSome (n : Nat) : (zrlItems cfg t n).isSome := by
  unfold zrlItems
  split
  · rfl
  · rw [Option.isSome_map]
    exact codeOf_isSome hstd t (huffStd_eob_zrl_valid t).2

theorem eobItems_isSome (zeros : Nat) : (eobItems cfg t zeros).isSome := by
  unfold eobItems
  split
  · rfl
  · rw [codeItem, Option.isSome_map]
    exact codeOf_isSome hstd t (huffStd_eob_zrl_valid t).1

theorem codeItem_isSome (zeros : Nat) {v : Int} (hv : v ≠ 0) (hcat : category v ≤ 10) :
    (codeItem cfg t (16 * (zeros % 16) + category v)).isSome := by
  have hpos := (category_bounds hv).1
  have hvalid := huffStd_ac_valid t (zeros % 16) (by omega) (category v - 1) (by omega)
  rw [Nat.sub_add_cancel hpos] at hvalid
  rw [codeItem, Option.isSome_map]
  exact codeOf_isSome hstd t hvalid

/-- The AC part of a block has a code for each of its symbols. -/
theorem acPairs_isSome {vs : List Int} (h : ∀ v ∈ vs, category v ≤ 10) : ∀ zeros, (acPairs cfg t zeros vs).isSome := by
  induction vs with
  | nil => exact eobItems_isSome hstd t
  | cons v rest ih =>
    intro zeros
    rw [List.forall_mem_cons] at h
    by_cases hv : v = 0
    · rw [hv, acPairs_zero]
      exact ih h.2 _
    · rw [acPairs_nonzero cfg t zeros hv]
      exact both_isSome (zrlItems_isSome hstd t _)
        (both_isSome (both_isSome (codeItem_isSome hstd t zeros hv h.1) rfl) (ih h.2 0))

end

/-! ## A strip whose blocks have their codes has its stream -/

theorem blockPairs_eq (cfg : Config) (c : Component) (before : Int) (cf : Fin 64 → Int) :
    blockPairs cfg c before cf = both (dcPairs cfg (tableSel c) (cf 0 - before)) (acPairs cfg (tableSel c) 0 (acValues cf)) := by
  unfold blockPairs
  cases dcPairs cfg (tableSel c) (cf 0 - before) <;> cases acPairs cfg (tableSel c) 0 (acValues cf) <;> rfl

/-- Pairs are put together when each part has its own. -/
theorem foldr_pairs_isSome {β : Type} {pairs : β → Option (List (Nat × Nat))} (h : ∀ b, (pairs b).isSome)
    (blocks : List β) :
    (blocks.foldr (fun b rest => do
      let block ← pairs b
      let rest ← rest
      some (block ++ rest)) (some [])).isSome := by
  induction blocks with
  | nil => rfl
  | cons b blocks ih =>
    obtain ⟨block, hblock⟩ := Option.isSome_iff_exists.1 (h b)
    obtain ⟨rest, hrest⟩ := Option.isSome_iff_exists.1 ih
    rw [List.foldr_cons, hblock, hrest]
    rfl

theorem stripPairs_isSome {cfg : Config} {coefs : Nat → Component → Fin 64 → Int}
    (h : ∀ j c, (blockPairs cfg c (if j = 0 then 0 else coefs (j - 1) c 0) (coefs j c)).isSome) (columns : Nat) :
    (stripPairs cfg coefs columns).isSome :=
  foldr_pairs_isSome (fun jc : Nat × Component => h jc.1 jc.2) _

theorem mem_acValues {cf : Fin 64 → Int} {v : Int} (h : v ∈ acValues cf) : ∃ i ≠ 0, cf i = v := by
  have hne : ∀ k ∈ List.range' 1 63, zzNat k ≠ 0 := by decide
  obtain ⟨k, hk, rfl⟩ := List.mem_map.1 h
  exact ⟨zzNat k, hne k hk, rfl⟩

/-- Every block of a strip has its pairs: the predictor is 0 in the first column and the block's to the left after it. -/
theorem stripBlock_isSome {cfg : Config} (hstd : cfg.huff = huffStd) (pixels : List Byte) (width : Nat) {lt ct : List Byte}
    (hpos : tablesPositive lt ct) (j : Nat) (c : Component) :
    (blockPairs cfg c (if j = 0 then 0 else stripCoefs q30Ops pixels width lt ct (8 * (j - 1)) c 0)
      (stripCoefs q30Ops pixels width lt ct (8 * j) c)).isSome := by
  have hac : ∀ v ∈ acValues (stripCoefs q30Ops pixels width lt ct (8 * j) c), category v ≤ 10 := fun v hv => by
    obtain ⟨i, hi, rfl⟩ := mem_acValues hv
    exact category_ac_le pixels width hpos c (8 * j) hi
  rw [blockPairs_eq]
  refine both_isSome (dcPairs_isSome hstd _ ?_) (acPairs_isSome hstd _ hac 0)
  split
  · rw [sub_zero]
    exact category_dc_le pixels width hpos c _
  · exact category_dc_diff_le pixels width hpos c _ _

/-- Settles O33: the ranges of the coefficients bound the categories, and `HUFF_STD` has an entry for each of them. -/
theorem reachableSymbols : Obligations.ReachableSymbols := by
  intro pixels width lt ct hpos
  refine ⟨fun col c => ⟨category_dc_le pixels width hpos c col, category_dc_diff_le pixels width hpos c _ _,
    fun i hi => category_ac_le pixels width hpos c col hi⟩, fun cfg harith hstd hlen => ?_⟩
  have hcoefs : (fun j => stripCoefs (arithOps cfg.arith) pixels width lt ct (8 * j)) =
      fun j => stripCoefs q30Ops pixels width lt ct (8 * j) := by
    rw [harith]
    funext j c
    exact stripCoefs_q30 pixels width lt ct (8 * j) c
  obtain ⟨pairs, hpairs⟩ := Option.isSome_iff_exists.1
    (stripPairs_isSome (stripBlock_isSome hstd pixels width hpos) ((width + 7) / 8))
  obtain ⟨hlt, hct, -, -⟩ := hpos
  refine ⟨streamBytes (pairBits pairs), ?_⟩
  rw [encodeStrip, if_neg (by omega), if_neg (by omega), hcoefs, hpairs]

end Sys2Proof.Laws
end

section
/-! PROOFS. `ENCDC` sends the category's code and the extra bits, and both coding operations complete with room in `OUT`
(43 R109, R112). -/

namespace Sys2Proof.Laws

open Sys2Proof Sys2Proof.Machine Sys2Proof.Claims

/-- Settles O36: with room for what they can send the codings come to their end or miss, and either is a next state. -/
theorem codingCompletes : Obligations.CodingCompletes := by
  refine fun c s => ⟨fun hroom => ?_, fun hroom => ?_⟩
  · rw [exec_encdc]
    exact codingOutcome_isNext (encodeDc_room s.cfg s.env.tick c s.hw hroom) _ _
  · rw [exec_encac]
    exact codingOutcome_isNext (encodeAc_room s.cfg s.env.tick c s.hw hroom) _ _

/-! ## The writer does not read `PRED` -/

/-- `f` changes nothing that the writer reads or writes, as `withScan` and an update of `PRED` do. -/
def besideWriter (f : Hardware → Hardware) : Prop :=
  ∀ h acc cnt out outlen, f { h with acc := acc, cnt := cnt, out := out, outlen := outlen } =
    { f h with acc := acc, cnt := cnt, out := out, outlen := outlen }

theorem besideWriter_pred (p : Triple (BitVec 16)) : besideWriter fun h => { h with pred := p } := fun _ _ _ _ _ => rfl

section

variable {f : Hardware → Hardware} (hf : besideWriter f)

include hf

theorem besideWriter.apply_eq (h : Hardware) : f h = { f h with acc := h.acc, cnt := h.cnt, out := h.out, outlen := h.outlen } :=
  hf h h.acc h.cnt h.out h.outlen

theorem emit_comm (b : Byte) (h : Hardware) : emit b (f h) = (emit b h).map f := by
  have hlen : (f h).outlen = h.outlen := by rw [hf.apply_eq h]
  unfold emit
  rw [hlen]
  split
  · refine congrArg some ?_
    rw [hf.apply_eq h]
    exact (hf h h.acc h.cnt _ _).symm
  · rfl

theorem emitStuffed_comm (b : Byte) (h : Hardware) : emitStuffed b (f h) = (emitStuffed b h).map f := by
  unfold emitStuffed
  split
  · rw [emit_comm hf]
    cases emit b h with
    | none => rfl
    | some x => exact emit_comm hf 0x00 x
  · exact emit_comm hf b h

theorem drain_comm {bytes : Nat} : ∀ {acc cnt : Nat} {h : Hardware},
    drain bytes acc cnt (f h) = (drain bytes acc cnt h).map f := by
  induction bytes with
  | zero =>
    intro acc cnt h
    rw [drain_zero, drain_zero, Option.map_some, hf.apply_eq h]
    exact congrArg some (hf h _ _ h.out h.outlen).symm
  | succ n ih =>
    intro acc cnt h
    rw [drain, drain, emitStuffed_comm hf]
    cases emitStuffed (BitVec.ofNat 8 (acc >>> (cnt - 8))) h with
    | none => rfl
    | some x => exact ih

theorem putBits_comm (v n : Nat) (h : Hardware) : putBits v n (f h) = (putBits v n h).map f := by
  have hacc : (f h).acc = h.acc := by rw [hf.apply_eq h]
  have hcnt : (f h).cnt = h.cnt := by rw [hf.apply_eq h]
  unfold putBits
  rw [hacc, hcnt]
  split
  · rfl
  · exact drain_comm hf

theorem putAll_comm (ps : List (Nat × Nat)) : ∀ h : Hardware, putAll ps (f h) = (putAll ps h).map f := by
  induction ps with
  | nil => intro h; rfl
  | cons p ps ih =>
    intro h
    rw [putAll, putAll, putBits_comm hf]
    cases putBits p.1 p.2 h with
    | none => rfl
    | some x => exact ih x

end

/-! ## `ENCDC` -/

theorem putExtra_eq (v : Int) (h : Hardware) : putExtra v h = ofWriter (putAll (extraPairs v) h) := by
  unfold putExtra extraPairs
  split
  · rfl
  · rw [putAll_singleton]

theorem putCode_putExtra (code : HuffCode) (v : Int) (h : Hardware) :
    andThen (putCode (some code) h) (putExtra v) = ofWriter (putAll (codePair code :: extraPairs v) h) := by
  simp only [putCode, putAll, codePair]
  cases putBits code.code.toNat code.len h with
  | none => rfl
  | some x => exact putExtra_eq v x

/-- The extra pairs of a difference: none of 0 (43 R109). -/
theorem extraPairs_eq (v : Int) : extraPairs v = if v = 0 then [] else [(extraBits v, category v)] := by
  simp only [extraPairs, category_eq_zero_iff]

/-- `CF[c][0] - PRED[c]` (43 R109). -/
def dcDiff (c : Component) (h : Hardware) : Int := (getComp h.cf c)[0].toInt - (getComp h.pred c).toInt

/-- `PRED[c] <- CF[c][0]` (43 R109). -/
def updatePred (c : Component) (h : Hardware) : Hardware := { h with pred := setComp h.pred c (getComp h.cf c)[0] }

/-- A category that forms a symbol: `ENCDC` misses with `PRED[c]` updated, or sends the DC part of the grammar. -/
theorem encodeDc_eq (cfg : Config) (tick : Nat) (c : Component) (h : Hardware) (hcat : category (dcDiff c h) < 16) :
    encodeDc cfg tick c h =
      (dcPairs cfg (tableSel c) (dcDiff c h)).elim (.missed (updatePred c h)) fun ps => ofWriter ((putAll ps h).map
        fun x => { x with pred := setComp h.pred c (getComp h.cf c)[0] }) := by
  have hsym : dcSymbol (category (dcDiff c h)) = some (category (dcDiff c h)) := if_pos hcat
  change andThen (putCode (lookup cfg .dc (tableSel c) (dcSymbol (category (dcDiff c h))) _) (updatePred c h))
    (putExtra (dcDiff c h)) = _
  rw [hsym, dcPairs]
  change andThen (putCode (codeOf cfg .dc (tableSel c) (category (dcDiff c h))) _) _ = _
  cases codeOf cfg .dc (tableSel c) (category (dcDiff c h)) with
  | none => rfl
  | some code =>
    rw [putCode_putExtra]
    exact congrArg ofWriter (putAll_comm (besideWriter_pred _) _ h)

/-- Settles O34: with room in `OUT` the DC part of the grammar is sent, or the lookup of the category misses. -/
theorem encdcResult : Obligations.EncdcResult := by
  intro c s dc diff hcat hroom
  have hends := encodeDc_room s.cfg s.env.tick c s.hw hroom
  rw [exec_encdc, ← tableSel_eq]
  rw [encodeDc_eq s.cfg s.env.tick c s.hw hcat] at hends ⊢
  cases hcode : lookup s.cfg .dc (tableSel c) (some (category diff)) default with
  | none =>
    have hpairs : dcPairs s.cfg (tableSel c) (dcDiff c s.hw) = none := congrArg (Option.map _) hcode
    rw [hpairs]
    rfl
  | some code =>
    have hpairs : dcPairs s.cfg (tableSel c) (dcDiff c s.hw) = some (codePair code :: extraPairs diff) :=
      congrArg (Option.map _) hcode
    rw [hpairs, extraPairs_eq] at hends ⊢
    cases hx : putAll (codePair code :: if diff = 0 then [] else [(extraBits diff, category diff)]) s.hw with
    | none => rw [Option.elim_some, hx] at hends; exact hends.elim
    | some x =>
      refine ⟨x, hx, ?_⟩
      have hseq : x.seq = s.hw.seq := by rw [putAll_writerOnly hx]
      rw [Option.elim_some, hx, ← hseq]
      rfl

end Sys2Proof.Laws
end

section
/-! PROOFS. What the storing operations leave unchanged (43 R109, R112; 44 R121 to R123): which fields they set, and which bytes
of `OUT` they write. -/

namespace Sys2Proof.Laws

open Sys2Proof Sys2Proof.Machine Sys2Proof.Claims

/-! ## The bytes that are stored -/

/-- From `h` to `x` bytes of `OUT` were stored at the indices from `OUTLEN` of `h` up to `OUTLEN` of `x` only. -/
structure StoredFrom (h x : Hardware) : Prop where
  canonical : x.out.wf = true
  grown : h.outlen.toNat ≤ x.outlen.toNat
  outside : ∀ a, a < h.outlen.toNat ∨ x.outlen.toNat ≤ a → readByte x.out a = readByte h.out a

theorem storedFrom_refl {h : Hardware} (hwf : h.out.wf = true) : StoredFrom h h := ⟨hwf, le_rfl, fun _ _ => rfl⟩

section

variable {h x y : Hardware} (hs : StoredFrom h x)

include hs

theorem storedFrom_emitStuffed {b : Byte} (hy : emitStuffed b x = some y) : StoredFrom h y := by
  have hlen := emitStuffed_outlen hy
  have hgrown := hs.grown
  refine ⟨(emitStuffed_outBytes hs.canonical hy).1, by omega, fun a ha => ?_⟩
  rw [emitStuffed_read hs.canonical hy, if_neg (by split at hlen <;> omega), if_neg]
  · exact hs.outside a (by split at hlen <;> omega)
  · rintro ⟨hb, ha'⟩
    rw [if_pos hb] at hlen
    omega

theorem storedFrom_drain {bytes acc cnt : Nat} (hy : drain bytes acc cnt x = some y) : StoredFrom h y := by
  induction bytes generalizing acc cnt x with
  | zero =>
    rw [drain_zero] at hy
    cases hy
    exact ⟨hs.canonical, hs.grown, hs.outside⟩
  | succ bytes ih =>
    obtain ⟨z, hz, hy⟩ := drain_succ.1 hy
    exact ih (storedFrom_emitStuffed hs hz) hy

theorem storedFrom_putBits {v n : Nat} (hy : putBits v n x = some y) : StoredFrom h y := by
  unfold putBits at hy
  split at hy
  · cases hy
    exact hs
  · exact storedFrom_drain hs hy

theorem storedFrom_flush {tick : Nat} (hy : flush tick x = some y) : StoredFrom h y := by
  unfold flush at hy
  split at hy
  · cases hy
    exact hs
  · obtain ⟨z, hz, rfl⟩ := Option.map_eq_some_iff.1 hy
    have hstored := storedFrom_emitStuffed hs hz
    exact ⟨hstored.canonical, hstored.grown, hstored.outside⟩

end

theorem bitRule_storedFrom (h : Hardware) : BitRule fun _ => StoredFrom h where
  put hs hy := storedFrom_putBits hs hy
  mono _ hs := hs
  coder _ _ _ _ hs := ⟨hs.canonical, hs.grown, hs.outside⟩

theorem sameBytesOutside_of_storedFrom {h x t : Hardware} (hc : coderOnly h x) (hs : StoredFrom h x)
    (hmem : ∀ sp, memoryOf sp t = memoryOf sp x) : sameBytesOutside h.outlen.toNat x.outlen.toNat h t := by
  refine ⟨fun sp a hsp => by rw [hmem, memoryOf_coderOnly hc hsp], fun a ha => ?_⟩
  rw [show t.out = x.out from hmem .out]
  exact hs.outside a ha

/-! ## The fields that are set -/

/-- `x` differs from `h` in the fields of a scan at most: as `coderOnly`, but for `PRED`. -/
def scanOnly (h x : Hardware) : Prop :=
  x = { h with run := x.run, k := x.k, last := x.last, acc := x.acc, cnt := x.cnt, out := x.out, outlen := x.outlen }

section

variable {P : Hardware → Prop} (hput : ∀ {v n : Nat} {x y : Hardware}, P x → putBits v n x = some y → P y)
  {x : Hardware} (hx : P x)

include hput hx

/-- What `PUTB` keeps, sending a code keeps. -/
theorem reaches_putCode (code : Option HuffCode) : reaches P (putCode code x) := by
  cases code with
  | none => exact hx
  | some code =>
    simp only [putCode]
    cases hy : putBits code.code.toNat code.len x with
    | none => trivial
    | some y => exact hput hx hy

theorem reaches_putExtra (v : Int) : reaches P (putExtra v x) := by
  unfold putExtra
  split
  · exact hx
  · cases hy : putBits (extraBits v) (category v) x with
    | none => trivial
    | some y => exact hput hx hy

variable (hscan : ∀ {x : Hardware} (run : BitVec 5) (k last : BitVec 6), P x → P (withScan run k last x))

include hscan

theorem reaches_acPosition (cfg : Config) (tick : Nat) (c : Component) (pos : Nat) :
    reaches P (acPosition cfg tick c pos x) := by
  have hk : P { x with k := BitVec.ofNat 6 pos } := hscan x.run _ x.last hx
  have hrun : ∀ (y : Hardware) (run : BitVec 5), P y → P { y with run := run } := fun y run hy => hscan run y.k y.last hy
  unfold acPosition
  simp only
  split
  · unfold acZero
    split
    · exact reaches_andThen (reaches_putCode hput hk _) fun y hy => hrun y 0 hy
    · exact hrun _ _ hk
  · exact reaches_andThen (reaches_putCode hput hk _) fun y hy =>
      reaches_andThen (reaches_putExtra hput hy _) fun z hz => hrun z 0 hz

theorem reaches_acScan (cfg : Config) (tick : Nat) (c : Component) (positions : List Nat) :
    reaches P (acScan cfg tick c positions x) := by
  induction positions generalizing x with
  | nil => exact hx
  | cons pos rest ih =>
    exact reaches_andThen (reaches_acPosition hput hx hscan cfg tick c pos) fun y hy => ih hy

/-- What `PUTB` and the registers of the scan keep, `ENCAC` keeps. -/
theorem reaches_encodeAc (cfg : Config) (tick : Nat) (c : Component) : reaches P (encodeAc cfg tick c x) := by
  refine reaches_andThen (reaches_acScan hput (hscan 0 x.k _ hx) hscan cfg tick c _) fun y hy => ?_
  unfold acEnd
  split
  · exact hy
  · exact reaches_putCode hput hy _

end

theorem scanOnly_encodeAc (cfg : Config) (tick : Nat) (c : Component) (h : Hardware) :
    reaches (scanOnly h) (encodeAc cfg tick c h) := by
  refine reaches_encodeAc (P := scanOnly h) (x := h) (fun {v n x y} hx hy => ?_) rfl (fun {x} run k last hx => ?_) cfg tick c
  · have hw := putBits_writerOnly hy
    unfold scanOnly writerOnly at *
    rw [hw, hx]
  · unfold scanOnly withScan at *
    rw [hx]

theorem writerOnly_encodeDc (cfg : Config) (tick : Nat) (c : Component) (h : Hardware) :
    reaches (writerOnly (updatePred c h)) (encodeDc cfg tick c h) := by
  have hput {v n : Nat} {x y : Hardware} (hx : writerOnly (updatePred c h) x) (hy : putBits v n x = some y) :
      writerOnly (updatePred c h) y := writerOnly_trans hx (putBits_writerOnly hy)
  exact reaches_andThen (reaches_putCode hput (writerOnly_refl _) _) fun x hx => reaches_putExtra hput hx _

/-! ## The outcomes -/

/-- A coding operation completes where its coding ends, or takes the trap where it misses. -/
theorem codingOutcome_reached {P : Hardware → Prop} {s t : State} {next : Hardware → Hardware} {r : Coding}
    (hr : reaches P r) (h : codingOutcome s next r = .next t) :
    ∃ x, P x ∧ codingEnd r = some x ∧ (t = { s with hw := next x } ∨ t = { s with hw := takeTrap 3 x }) := by
  rcases codingOutcome_cases h with ⟨x, rfl, ht⟩ | ⟨x, rfl, ht⟩
  · exact ⟨x, hr, rfl, .inl ht⟩
  · exact ⟨x, hr, rfl, .inr ht⟩

theorem memoryOf_gotoPhase (ph : Phase) (h : Hardware) (sp : Space) : memoryOf sp (gotoPhase ph h) = memoryOf sp h := by
  cases sp <;> rfl

theorem memoryOf_takeTrap (e : BitVec 4) (h : Hardware) (sp : Space) : memoryOf sp (takeTrap e h) = memoryOf sp h := by
  cases sp <;> rfl

theorem memoryOf_closeBlock (tick : Nat) (c : Component) (h : Hardware) (sp : Space) :
    memoryOf sp (closeBlock tick c h) = memoryOf sp h := by
  cases c <;> cases sp <;> rfl

/-- The bytes that a coding operation stores are those up to where its coding ends or misses. -/
theorem sameBytesOutside_coding {s t : State} {next : Hardware → Hardware} {r : Coding} (hc : reaches (coderOnly s.hw) r)
    (hs : reaches (StoredFrom s.hw) r) (hnext : ∀ x sp, memoryOf sp (next x) = memoryOf sp x)
    (h : codingOutcome s next r = .next t) {e : Hardware} (he : codingEnd r = some e) :
    sameBytesOutside s.hw.outlen.toNat e.outlen.toNat s.hw t.hw := by
  obtain ⟨x, ⟨hc, hs⟩, hx, ht⟩ := codingOutcome_reached (reaches_and hc hs) h
  obtain rfl : x = e := Option.some_inj.1 (hx.symm.trans he)
  rcases ht with rfl | rfl
  · exact sameBytesOutside_of_storedFrom hc hs (hnext x)
  · exact sameBytesOutside_of_storedFrom hc hs (memoryOf_takeTrap 3 x)

/-- Settles O49: `PUTB` stores from `OUTLEN` on and moves it past what it stored, and the codings store by `PUTB` only. -/
theorem frameOfStoringOperations : Obligations.FrameOfStoringOperations := by
  intro s t hwf
  have hrefl := storedFrom_refl hwf
  refine ⟨fun n v h => ?_, fun h => ?_, fun c h => ?_, fun c h => ?_⟩
  · obtain ⟨-, x, hx, rfl⟩ := exec_putb_eq_next.1 h
    have hw := putBits_writerOnly hx
    exact ⟨congrArg (fun h => { s with hw := h }) hw,
      sameBytesOutside_of_storedFrom (writerOnly_coderOnly hw) (storedFrom_putBits hrefl hx) fun _ => rfl⟩
  · obtain ⟨x, hx, rfl⟩ := exec_fin_eq_next.1 h
    have hw := flush_writerOnly hx
    refine ⟨?_, sameBytesOutside_of_storedFrom (x := x) (writerOnly_coderOnly hw) (storedFrom_flush hrefl hx)
      (memoryOf_gotoPhase _ x)⟩
    rw [hw]
    rfl
  · rw [exec_encdc] at h
    refine ⟨?_, fun e => sameBytesOutside_coding (encodeDc_coderOnly _ _ _ _)
      ((bitRule_storedFrom s.hw).encodeDc (m := 0) _ _ _ hrefl) (memoryOf_gotoPhase _) h⟩
    obtain ⟨x, hw, -, rfl | rfl⟩ := codingOutcome_reached (writerOnly_encodeDc s.cfg s.env.tick c s.hw) h
    · rw [hw]
      simp [gotoPhase, updatePred]
    · rw [hw]
      simp [takeTrap, updatePred]
  · rw [exec_encac] at h
    refine ⟨?_, fun e => sameBytesOutside_coding (encodeAc_coderOnly _ _ _ _)
      ((bitRule_storedFrom s.hw).encodeAc (m := 0) _ _ _ hrefl) (memoryOf_closeBlock _ _) h⟩
    obtain ⟨x, hw, -, rfl | rfl⟩ := codingOutcome_reached (scanOnly_encodeAc s.cfg s.env.tick c s.hw) h
    · rw [hw]
      cases c <;> rfl
    · rw [hw]
      rfl

end Sys2Proof.Laws
end

section
/-! PROOFS. The writer on bits (44 R121 to R123, R128): the accumulator as a list of pending bits, `PUTB` and `FIN` as
operations on that list, and the whole stream. -/

namespace Sys2Proof.Laws

open Sys2Proof Sys2Proof.Machine Sys2Proof.Claims

/-! ## Bits as numbers -/

@[simp] theorem length_bitsOf (v n : Nat) : (bitsOf v n).length = n := by simp [bitsOf]

@[simp] theorem natOfBits_nil : natOfBits [] = 0 := rfl

theorem natOfBits_concat (a : List Bool) (x : Bool) : natOfBits (a ++ [x]) = 2 * natOfBits a + x.toNat := by
  simp [natOfBits, List.foldl_append]

theorem natOfBits_append (a b : List Bool) : natOfBits (a ++ b) = natOfBits a * 2 ^ b.length + natOfBits b := by
  induction b using List.reverseRecOn with
  | nil => simp
  | append_singleton b x ih =>
    rw [← List.append_assoc, natOfBits_concat, ih, natOfBits_concat, List.length_append, List.length_singleton, pow_succ]
    ring

theorem natOfBits_lt (bits : List Bool) : natOfBits bits < 2 ^ bits.length := by
  induction bits using List.reverseRecOn with
  | nil => simp
  | append_singleton b x ih =>
    have hx := Bool.toNat_le x
    rw [natOfBits_concat, List.length_append, List.length_singleton, pow_succ]
    omega

theorem bitsOf_succ (v n : Nat) : bitsOf v (n + 1) = [v.testBit n] ++ bitsOf v n := by
  simp only [bitsOf, List.range_succ_eq_map, List.map_cons, List.map_map, List.singleton_append]
  congr 1
  exact List.map_congr_left fun i _ => congrArg v.testBit (by simp only [Nat.succ_eq_add_one]; omega)

theorem natOfBits_bitsOf (v n : Nat) : natOfBits (bitsOf v n) = v % 2 ^ n := by
  induction n with
  | zero => simp [bitsOf, Nat.mod_one]
  | succ n ih =>
    have htop : natOfBits [v.testBit n] = (v.testBit n).toNat := by simp [natOfBits]
    rw [bitsOf_succ, natOfBits_append, ih, length_bitsOf, htop, Nat.toNat_testBit, Nat.mod_pow_succ]
    ring

theorem natOfBits_zeros (k : Nat) : natOfBits (List.replicate k false) = 0 := by
  induction k with
  | zero => rfl
  | succ k ih => rw [List.replicate_succ', natOfBits_concat, ih]; rfl

/-! ## Bits as bytes -/

/-- The first eight bits, or all of them with zeros behind (30 R77, R79). -/
theorem byteOfBits_eq (bits : List Bool) :
    byteOfBits bits = BitVec.ofNat 8 (natOfBits (bits.take 8 ++ List.replicate (8 - bits.length) false)) := by
  have hbits : (List.range 8).map (fun i => bits.getD i false) = bits.take 8 ++ List.replicate (8 - bits.length) false := by
    refine List.ext_getElem ?_ fun i hi _ => ?_
    · simp only [List.length_map, List.length_range, List.length_append, List.length_take, List.length_replicate]
      omega
    rw [List.length_map, List.length_range] at hi
    by_cases hlt : i < bits.length
    · simp [hi, hlt]
    · simp [List.getElem_append, hlt]
  rw [byteOfBits, ← hbits, natOfBits, List.foldl_map]

/-- A last byte of pending bits: the bits on top, zeros below (44 R123). -/
theorem byteOfBits_of_length_le {bits : List Bool} (h : bits.length ≤ 8) :
    byteOfBits bits = BitVec.ofNat 8 (natOfBits bits * 2 ^ (8 - bits.length)) := by
  rw [byteOfBits_eq, List.take_of_length_le h, natOfBits_append, natOfBits_zeros, List.length_replicate, Nat.add_zero]

/-- Bit 0 of a padded byte is 0 (44 R123). -/
theorem byteOfBits_ne_0xFF {bits : List Bool} (h : bits.length ≤ 7) : byteOfBits bits ≠ 0xFF := by
  intro hff
  have hnat : natOfBits bits * 2 ^ (8 - bits.length) % 2 ^ 8 = 255 := by
    rw [byteOfBits_of_length_le (by omega)] at hff
    simpa using congrArg BitVec.toNat hff
  rw [show 8 - bits.length = 7 - bits.length + 1 by omega, pow_succ, ← mul_assoc] at hnat
  omega

theorem natOfBits_eq_take_drop (bits : List Bool) :
    natOfBits bits = natOfBits (bits.take 8) * 2 ^ (bits.length - 8) + natOfBits (bits.drop 8) ∧
      natOfBits (bits.drop 8) < 2 ^ (bits.length - 8) := by
  have hsplit := natOfBits_append (bits.take 8) (bits.drop 8)
  have hlt := natOfBits_lt (bits.drop 8)
  rw [List.take_append_drop, List.length_drop] at hsplit
  rw [List.length_drop] at hlt
  exact ⟨hsplit, hlt⟩

/-- What the loop of `PUTB` keeps (44 R121). -/
theorem natOfBits_mod (bits : List Bool) : natOfBits bits % 2 ^ (bits.length - 8) = natOfBits (bits.drop 8) := by
  obtain ⟨hsplit, hlt⟩ := natOfBits_eq_take_drop bits
  rw [hsplit, Nat.mul_add_mod_of_lt hlt]

section

variable {bits : List Bool} (h : 8 ≤ bits.length)

include h

/-- What the loop of `PUTB` emits: the 8 oldest bits (44 R121). -/
theorem byteOfBits_eq_shiftRight : BitVec.ofNat 8 (natOfBits bits >>> (bits.length - 8)) = byteOfBits bits := by
  obtain ⟨hsplit, hlt⟩ := natOfBits_eq_take_drop bits
  rw [byteOfBits_eq, show 8 - bits.length = 0 by omega, List.replicate_zero, List.append_nil, Nat.shiftRight_eq_div_pow, hsplit,
    Nat.add_comm, Nat.add_mul_div_right _ _ (Nat.two_pow_pos _), Nat.div_eq_of_lt hlt, Nat.zero_add]

theorem wholeBytes_cons : wholeBytes bits = byteOfBits bits :: wholeBytes (bits.drop 8) := by
  have hcount : bits.length / 8 = (bits.length - 8) / 8 + 1 := by omega
  simp only [wholeBytes, hcount, List.range_succ_eq_map, List.map_cons, List.map_map, List.length_drop, List.drop_drop]
  exact congrArg (byteOfBits bits :: ·) (List.map_congr_left fun j _ => congrArg (byteOfBits <| bits.drop ·) (by
    simp only [Nat.succ_eq_add_one]; omega))

end

theorem wholeBytes_of_length_lt {bits : List Bool} (h : bits.length < 8) : wholeBytes bits = [] := by
  rw [wholeBytes, Nat.div_eq_of_lt h]
  rfl

/-- The bits after the last whole byte. -/
def bitsLeft (bits : List Bool) : List Bool := bits.drop (8 * (bits.length / 8))

@[simp] theorem length_bitsLeft (bits : List Bool) : (bitsLeft bits).length = bits.length % 8 := by
  rw [bitsLeft, List.length_drop]
  omega

theorem length_bitsLeft_le (bits : List Bool) : (bitsLeft bits).length ≤ 7 := by
  rw [length_bitsLeft]
  omega

theorem bitsLeft_of_length_lt {bits : List Bool} (h : bits.length < 8) : bitsLeft bits = bits := by
  rw [bitsLeft, Nat.div_eq_of_lt h]
  rfl

theorem bitsLeft_drop {bits : List Bool} (h : 8 ≤ bits.length) : bitsLeft (bits.drop 8) = bitsLeft bits := by
  rw [bitsLeft, bitsLeft, List.drop_drop, List.length_drop]
  congr 1
  omega

/-- More bits continue where the whole bytes ended. -/
theorem wholeBytes_bitsLeft_append (more : List Bool) (n : Nat) : ∀ {bits : List Bool}, n = bits.length / 8 →
    wholeBytes (bits ++ more) = wholeBytes bits ++ wholeBytes (bitsLeft bits ++ more) ∧
      bitsLeft (bits ++ more) = bitsLeft (bitsLeft bits ++ more) := by
  induction n with
  | zero =>
    intro bits hn
    have hlt : bits.length < 8 := by omega
    rw [wholeBytes_of_length_lt hlt, bitsLeft_of_length_lt hlt]
    exact ⟨rfl, rfl⟩
  | succ n ih =>
    intro bits hn
    have hle : 8 ≤ bits.length := by omega
    have hle' : 8 ≤ (bits ++ more).length := by rw [List.length_append]; omega
    have hdrop : (bits ++ more).drop 8 = bits.drop 8 ++ more := List.drop_append_of_le_length hle
    have hbyte : byteOfBits (bits ++ more) = byteOfBits bits := by
      rw [byteOfBits_eq, byteOfBits_eq, List.take_append_of_le_length hle, Nat.sub_eq_zero_of_le hle, Nat.sub_eq_zero_of_le hle']
    obtain ⟨hbytes, hleft⟩ := ih (bits := bits.drop 8) (by rw [List.length_drop]; omega)
    rw [wholeBytes_cons hle, wholeBytes_cons hle', ← bitsLeft_drop hle', hdrop, hbyte, hbytes, hleft, bitsLeft_drop hle]
    exact ⟨rfl, rfl⟩

/-- The packed bytes are the whole bytes and, where bits are left, one byte of them (30 R79). -/
theorem packBits_eq (bits : List Bool) :
    packBits bits = wholeBytes bits ++ if bits.length % 8 = 0 then [] else [byteOfBits (bitsLeft bits)] := by
  unfold packBits wholeBytes bitsLeft
  split
  · rw [show (bits.length + 7) / 8 = bits.length / 8 by omega, List.append_nil]
  · rw [show (bits.length + 7) / 8 = bits.length / 8 + 1 by omega, List.range_succ, List.map_append]
    rfl

theorem length_wholeBytes (bits : List Bool) : (wholeBytes bits).length = bits.length / 8 := by simp [wholeBytes]

theorem length_packBits (bits : List Bool) : (packBits bits).length = (bits.length + 7) / 8 := by simp [packBits]

theorem stuffBytes_append (a b : List Byte) : stuffBytes (a ++ b) = stuffBytes a ++ stuffBytes b := List.flatMap_append

theorem stuffBytes_cons (b : Byte) (bytes : List Byte) : stuffBytes (b :: bytes) = stuffBytes [b] ++ stuffBytes bytes :=
  stuffBytes_append [b] bytes

/-- Stuffing at most doubles the number of bytes. -/
theorem length_stuffBytes (bytes : List Byte) :
    bytes.length ≤ (stuffBytes bytes).length ∧ (stuffBytes bytes).length ≤ 2 * bytes.length := by
  induction bytes with
  | nil => exact ⟨le_rfl, le_rfl⟩
  | cons b bytes ih =>
    have hb : 1 ≤ (stuffBytes [b]).length ∧ (stuffBytes [b]).length ≤ 2 := by
      rw [stuffBytes_singleton]
      split <;> simp
    rw [stuffBytes_cons, List.length_append, List.length_cons]
    omega

/-! ## `PUTB` on bits -/

/-- `ACC` and `CNT` hold these bits (10 R16). -/
structure PendingBits (bits : List Bool) (h : Hardware) : Prop where
  cnt : h.cnt.toNat = bits.length
  acc : h.acc.toNat = natOfBits bits

theorem pendingBits_of_writerOk {h : Hardware} (hok : writerOk h) : PendingBits (bitsOf h.acc.toNat h.cnt.toNat) h where
  cnt := (length_bitsOf _ _).symm
  acc := by rw [natOfBits_bitsOf, Nat.mod_eq_of_lt hok.2]

theorem pendingBits_write {bits : List Bool} (hlen : bits.length ≤ 7) (h : Hardware) :
    PendingBits bits { h with acc := BitVec.ofNat 32 (natOfBits bits), cnt := BitVec.ofNat 5 bits.length } where
  cnt := by
    rw [BitVec.toNat_ofNat]
    omega
  acc := by
    have hlt := natOfBits_lt bits
    have hpow : 2 ^ bits.length ≤ 2 ^ 7 := Nat.pow_le_pow_right (by decide) hlen
    rw [BitVec.toNat_ofNat]
    omega

/-- The loop of `PUTB` appends the whole bytes, stuffed, and keeps the bits that are left (44 R121). -/
theorem drain_bits {n : Nat} : ∀ {bits : List Bool} {h h' : Hardware}, n = bits.length / 8 → h.out.wf = true →
    drain n (natOfBits bits) bits.length h = some h' →
    h'.out.wf = true ∧ outBytes h' = outBytes h ++ stuffBytes (wholeBytes bits) ∧ PendingBits (bitsLeft bits) h' := by
  induction n with
  | zero =>
    intro bits h h' hn hwf hs
    have hlt : bits.length < 8 := by omega
    rw [drain_zero] at hs
    cases hs
    rw [wholeBytes_of_length_lt hlt, bitsLeft_of_length_lt hlt]
    exact ⟨hwf, (List.append_nil _).symm, pendingBits_write (by omega) h⟩
  | succ n ih =>
    intro bits h h' hn hwf hs
    have hle : 8 ≤ bits.length := by omega
    obtain ⟨x, hx, hd⟩ := drain_succ.1 hs
    rw [byteOfBits_eq_shiftRight hle] at hx
    rw [natOfBits_mod, ← List.length_drop] at hd
    obtain ⟨hwfx, houtx⟩ := emitStuffed_outBytes hwf hx
    obtain ⟨hwf', hout', hpend⟩ := ih (by rw [List.length_drop]; omega) hwfx hd
    rw [bitsLeft_drop hle] at hpend
    rw [houtx, List.append_assoc, ← stuffBytes_cons, ← wholeBytes_cons hle] at hout'
    exact ⟨hwf', hout', hpend⟩

section

variable {rest : List Bool} {h : Hardware} (hrest : PendingBits rest h)

include hrest

/-- `PUTB` is its loop on the pending bits with the new ones behind; no new bit is no round of the loop. -/
theorem putBits_eq_drain (hlen : rest.length ≤ 7) (v n : Nat) :
    putBits v n h = drain ((rest ++ bitsOf v n).length / 8) (natOfBits (rest ++ bitsOf v n)) (rest ++ bitsOf v n).length h := by
  obtain ⟨hcnt, hacc⟩ := hrest
  unfold putBits
  split
  · subst n
    rw [show bitsOf v 0 = [] from rfl, List.append_nil, show rest.length / 8 = 0 by omega, drain_zero, ← hcnt, ← hacc,
      BitVec.ofNat_toNat, BitVec.ofNat_toNat, BitVec.setWidth_eq, BitVec.setWidth_eq]
  · rw [natOfBits_append, List.length_append, natOfBits_bitsOf, length_bitsOf, hcnt, hacc, Nat.shiftLeft_eq]

/-- `PUTB` appends the stuffed whole bytes of the pending bits with the new ones behind (44 R121). -/
theorem putBits_bits (hlen : rest.length ≤ 7) {v n : Nat} {h' : Hardware} (hwf : h.out.wf = true)
    (hs : putBits v n h = some h') :
    h'.out.wf = true ∧ outBytes h' = outBytes h ++ stuffBytes (wholeBytes (rest ++ bitsOf v n)) ∧
      PendingBits (bitsLeft (rest ++ bitsOf v n)) h' :=
  drain_bits rfl hwf (putBits_eq_drain hrest hlen v n ▸ hs)

theorem putBits_isSome (hlen : rest.length ≤ 7) {v n : Nat}
    (hroom : h.outlen.toNat + 2 * ((rest.length + n) / 8) ≤ capacity .out) : ∃ h', putBits v n h = some h' := by
  rw [putBits_eq_drain hrest hlen, List.length_append, length_bitsOf]
  exact drain_isSome hroom

/-! ## `FIN` on bits -/

theorem finalByte_eq (hlen : rest.length ≤ 8) (tick : Nat) : finalByte tick h.acc.toNat h.cnt.toNat = byteOfBits rest := by
  rw [finalByte, hrest.cnt, hrest.acc, if_pos hlen, byteOfBits_of_length_le hlen, Nat.shiftLeft_eq]

/-- `FIN` with bits pending (44 R123). -/
theorem flush_of_pending (hpos : rest ≠ []) (hlen : rest.length ≤ 8) (tick : Nat) :
    flush tick h = (emitStuffed (byteOfBits rest) h).map fun h => { h with acc := 0, cnt := 0 } := by
  have hcnt : h.cnt.toNat ≠ 0 := by rwa [hrest.cnt, Ne, List.length_eq_zero_iff]
  rw [flush, if_neg hcnt, finalByte_eq hrest hlen]

end

/-! ## The whole stream -/

/-- The writer has been given these bits from an empty output on: the whole bytes are in `OUT`, the others pending. -/
structure WroteBits (bits : List Bool) (h : Hardware) : Prop where
  canonical : h.out.wf = true
  output : outBytes h = stuffBytes (wholeBytes bits)
  pending : PendingBits (bitsLeft bits) h

section

variable {bits : List Bool} {h : Hardware} (hw : WroteBits bits h)

include hw

theorem WroteBits.outlen_le : h.outlen.toNat ≤ 2 * (bits.length / 8) := by
  have hlen := (length_stuffBytes (wholeBytes bits)).2
  rwa [← hw.output, length_outBytes, length_wholeBytes] at hlen

theorem WroteBits.put {v n : Nat} {h' : Hardware} (hs : putBits v n h = some h') : WroteBits (bits ++ bitsOf v n) h' := by
  obtain ⟨hwf, hout, hpend⟩ := putBits_bits hw.pending (length_bitsLeft_le _) hw.canonical hs
  obtain ⟨hbytes, hleft⟩ := wholeBytes_bitsLeft_append (bitsOf v n) _ (bits := bits) rfl
  exact ⟨hwf, by rw [hout, hw.output, hbytes, stuffBytes_append], hleft ▸ hpend⟩

theorem WroteBits.putAll {ps : List (Nat × Nat)} (hroom : 2 * (((bits ++ pairBits ps).length + 7) / 8) ≤ capacity .out) :
    ∃ h', putAll ps h = some h' ∧ WroteBits (bits ++ pairBits ps) h' := by
  induction ps generalizing bits h with
  | nil => exact ⟨h, rfl, by simpa [pairBits] using hw⟩
  | cons p ps ih =>
    have hcons : bits ++ pairBits (p :: ps) = (bits ++ bitsOf p.1 p.2) ++ pairBits ps := by simp [pairBits]
    have hlen := hw.outlen_le
    rw [hcons] at hroom ⊢
    simp only [List.length_append, length_bitsOf] at hroom
    obtain ⟨x, hx⟩ := putBits_isSome hw.pending (length_bitsLeft_le _) (v := p.1) (n := p.2) (by rw [length_bitsLeft]; omega)
    obtain ⟨h', hh', hw'⟩ := ih (hw.put hx) (by simp only [List.length_append, length_bitsOf]; omega)
    exact ⟨h', by rw [Machine.putAll, hx]; exact hh', hw'⟩

/-- `FIN` completes the stream (44 R128). -/
theorem WroteBits.flush (hroom : 2 * ((bits.length + 7) / 8) ≤ capacity .out) (tick : Nat) :
    ∃ h', flush tick h = some h' ∧ outBytes h' = streamBytes bits ∧ h'.acc = 0 ∧ h'.cnt = 0 := by
  have hlen := length_bitsLeft_le bits
  have hbytes := hw.outlen_le
  rw [streamBytes, packBits_eq, stuffBytes_append, ← hw.output]
  by_cases hleft : bits.length % 8 = 0
  · have hempty : bitsLeft bits = [] := by rw [← List.length_eq_zero_iff, length_bitsLeft, hleft]
    obtain ⟨hcnt, hacc⟩ := hw.pending
    rw [hempty] at hcnt hacc
    refine ⟨h, if_pos hcnt, ?_, BitVec.eq_of_toNat_eq hacc, BitVec.eq_of_toNat_eq hcnt⟩
    rw [if_pos hleft]
    exact (List.append_nil _).symm
  · have hpos : bitsLeft bits ≠ [] := by rwa [Ne, ← List.length_eq_zero_iff, length_bitsLeft]
    obtain ⟨x, hx⟩ := emitStuffed_isSome (b := byteOfBits (bitsLeft bits)) (h := h) (by omega)
    have hout := (emitStuffed_outBytes hw.canonical hx).2
    refine ⟨_, by rw [flush_of_pending hw.pending hpos (by omega), hx]; rfl, ?_, rfl, rfl⟩
    rw [if_neg hleft, ← hout]
    rfl

end

theorem wroteBits_nil {h : Hardware} (hacc : h.acc = 0) (hcnt : h.cnt = 0) (hlen : h.outlen = 0) (hwf : h.out.wf = true) :
    WroteBits [] h :=
  ⟨hwf, outBytes_of_outlen hlen, ⟨congrArg BitVec.toNat hcnt, congrArg BitVec.toNat hacc⟩⟩

/-- Settles O39: each `PUTB` appends its bits to those that the writer has been given, and `FIN` pads what is left to a byte. -/
theorem writerStream : Obligations.WriterStream := by
  intro ps tick h _ hacc hcnt hlen hwf hroom
  obtain ⟨x, hx, hw⟩ := (wroteBits_nil hacc hcnt hlen hwf).putAll (ps := ps) hroom
  obtain ⟨h', hh', hres⟩ := hw.flush hroom tick
  exact ⟨h', by rw [hx]; exact hh', hres⟩

/-! ## Outcomes of the operations -/

/-- Settles O37: with at most 7 pending bits and 16 new ones the loop runs at most twice. -/
theorem putbResult : Obligations.PutbResult := by
  intro s n v hn
  refine ⟨?_, fun hok hwf hroom => ?_⟩
  · rintro rfl
    exact exec_putb_eq_next.2 ⟨hn, s.hw, rfl, rfl⟩
  · have hpend := pendingBits_of_writerOk hok
    have hlen : (bitsOf s.hw.acc.toNat s.hw.cnt.toNat).length ≤ 7 := by rw [length_bitsOf]; exact hok.1
    obtain ⟨x, hx⟩ := putBits_isSome hpend hlen (v := v.toNat) (n := n.toNat) (by omega)
    obtain ⟨-, hout, hleft⟩ := putBits_bits hpend hlen hwf hx
    have hw := putBits_writerOnly hx
    refine ⟨_, exec_putb_eq_next.2 ⟨hn, x, hx, rfl⟩, congrArg (fun h => { s with hw := h }) hw, hout, ?_, hleft.acc,
      sameBytesOutside_of_storedFrom (writerOnly_coderOnly hw) (storedFrom_putBits (storedFrom_refl hwf) hx) fun _ => rfl⟩
    rw [← length_bitsLeft]
    exact hleft.cnt

/-- Settles O38: the padded byte is not 0xFF, so that it is appended without stuffing. -/
theorem finResult : Obligations.FinResult := by
  refine fun s => ⟨fun h0 => ?_, fun hpos hok hwf hroom => ?_⟩
  · exact exec_fin_eq_next.2 ⟨s.hw, if_pos (congrArg BitVec.toNat h0), rfl⟩
  · have hpend := pendingBits_of_writerOk hok
    have hcnt := hok.1
    have hlen := length_bitsOf s.hw.acc.toNat s.hw.cnt.toNat
    have hne : byteOfBits (bitsOf s.hw.acc.toNat s.hw.cnt.toNat) ≠ 0xFF := byteOfBits_ne_0xFF (by omega)
    have hbits : bitsOf s.hw.acc.toNat s.hw.cnt.toNat ≠ [] := List.ne_nil_of_length_pos (by omega)
    have hflush := flush_of_pending hpend hbits (by omega) s.env.tick
    rw [emitStuffed, if_neg hne, emit_eq_some.2 ⟨hroom, rfl⟩] at hflush
    refine ⟨hne, _, exec_fin_eq_next.2 ⟨_, hflush, rfl⟩, ?_, fun a ha => ?_⟩
    · rw [readByte_writeByte hwf, if_pos rfl]
    · rw [readByte_writeByte hwf, if_neg ha]

/-- Settles O14: the operand fails the check that each of these operations makes first. -/
theorem operandsWithoutMeaningStop : Obligations.OperandsWithoutMeaningStop := by
  refine fun s => ⟨fun n v hn => ?_, fun col hcol => ?_, fun e he => ?_⟩
  · exact if_neg (by omega)
  · exact if_neg hcol
  · exact if_neg (by omega)

end Sys2Proof.Laws
end

section
/-! PROOFS. The invariants of the writer between two operations (44 R124, R125): what `PUTB` and `FIN` keep, every
operation keeps. -/

namespace Sys2Proof.Laws

open Sys2Proof Sys2Proof.Machine Sys2Proof.Claims

/-! ## The writer along every operation -/

/-- The writer of `h'` is that of `h`, or its output is empty (45 R134, R135, R141). -/
structure WriterKept (h h' : Hardware) : Prop where
  acc : h'.acc = h.acc
  cnt : h'.cnt = h.cnt
  out : h'.out = h.out
  outlen : h'.outlen = h.outlen ∨ h'.outlen = 0

/-- `P` is a property of the writer that `PUTB`, `FIN` and `INIT` keep. -/
structure WriterRule (P : Hardware → Prop) : Prop where
  put : ∀ {v n : Nat} {h h' : Hardware}, P h → putBits v n h = some h' → P h'
  flush : ∀ {tick : Nat} {h h' : Hardware}, P h → flush tick h = some h' → P h'
  init : ∀ {h : Hardware}, P h → P (initStrip h)
  kept : ∀ {h h' : Hardware}, P h → WriterKept h h' → P h'

theorem writerKept_takeTrap (e : BitVec 4) (h : Hardware) : WriterKept h (takeTrap e h) := ⟨rfl, rfl, rfl, .inr rfl⟩

theorem writerKept_gotoPhase (ph : Phase) (h : Hardware) : WriterKept h (gotoPhase ph h) := ⟨rfl, rfl, rfl, .inl rfl⟩

/-- The datapath touches `SB`, `CF` and `SEQ` only. -/
theorem writerKept_blocks (h : Hardware) (sb : Triple (Block Sample)) (cf : Triple (Block (BitVec 16))) (q : Seq) :
    WriterKept h { h with sb := sb, cf := cf, seq := q } := ⟨rfl, rfl, rfl, .inl rfl⟩

theorem writerKept_endRun (h : Hardware) : WriterKept h (endRun h) := ⟨rfl, rfl, rfl, .inl rfl⟩

theorem writerKept_closeBlock (tick : Nat) (c : Component) (h : Hardware) : WriterKept h (closeBlock tick c h) := by
  cases c <;> exact ⟨rfl, rfl, rfl, .inl rfl⟩

theorem writerKept_checkLaunch (h : Hardware) : WriterKept h (checkLaunch h) := by
  unfold checkLaunch
  split_ifs
  · exact writerKept_takeTrap 1 h
  · exact writerKept_takeTrap 2 h
  · exact writerKept_gotoPhase .init h

/-- The host writes no byte of `OUT`, and `START` and `CLR` empty the output. -/
theorem writerKept_hostEffect {h h' : Hardware} (he : HostEffect h h') : WriterKept h h' := by
  cases he with
  | none => exact ⟨rfl, rfl, rfl, .inl rfl⟩
  | reg r data =>
    cases r with
    | ctrl =>
      simp only [writeReg, writeCtrl]
      split_ifs
      · exact ⟨rfl, rfl, rfl, .inr rfl⟩
      · exact ⟨rfl, rfl, rfl, .inr rfl⟩
      · exact ⟨rfl, rfl, rfl, .inl rfl⟩
    | _ => exact ⟨rfl, rfl, rfl, .inl rfl⟩
  | mem sp i b _ hsp =>
    exact ⟨storeByte_acc h sp i b, storeByte_cnt h sp i b, memoryOf_storeByte_of_ne h hsp.symm i b,
      .inl (storeByte_outlen h sp i b)⟩

section

variable {P : Hardware → Prop} (hP : WriterRule P)

include hP

theorem WriterRule.bitRule : BitRule fun _ => P where
  put := hP.put
  mono _ h := h
  coder _ _ _ _ h := hP.kept h ⟨rfl, rfl, rfl, .inl rfl⟩

theorem WriterRule.coding {s t : State} {next : Hardware → Hardware} {r : Coding} (hr : reaches P r)
    (hnext : ∀ x, WriterKept x (next x)) (h : codingOutcome s next r = .next t) : P t.hw := by
  rcases codingOutcome_cases h with ⟨x, rfl, rfl⟩ | ⟨x, rfl, rfl⟩
  · exact hP.kept hr (hnext x)
  · exact hP.kept hr (writerKept_takeTrap 3 x)

/-- Every operation keeps such a property, from whatever phase it is performed. -/
theorem WriterRule.exec {i : Instr} {s t : State} (hs : P s.hw) (h : exec i s = .next t) : P t.hw := by
  by_cases hi : i.isHost = true
  · exact hP.kept hs (writerKept_hostEffect (exec_host hi h).1)
  cases coreOp_of_not_isHost (Bool.eq_false_iff.2 hi) with
  | chk => rw [exec_chk, nextHw_eq_next] at h; rw [h]; exact hP.kept hs (writerKept_checkLaunch _)
  | init => rw [exec_init, nextHw_eq_next] at h; rw [h]; exact hP.init hs
  | csc col => rw [(exec_csc_eq_next.1 h).2]; exact hP.kept hs (writerKept_blocks _ _ s.hw.cf _)
  | dctr c => rw [exec_dctr, nextHw_eq_next] at h; rw [h]; exact hP.kept hs (writerKept_blocks _ _ s.hw.cf _)
  | dctc c => rw [exec_dctc, nextHw_eq_next] at h; rw [h]; exact hP.kept hs (writerKept_blocks _ _ s.hw.cf _)
  | qnt c => rw [exec_qnt, nextHw_eq_next] at h; rw [h]; exact hP.kept hs (writerKept_blocks _ s.hw.sb _ _)
  | encdc c =>
    rw [exec_encdc] at h
    exact hP.coding (hP.bitRule.encodeDc (m := 0) _ _ _ hs) (writerKept_gotoPhase _) h
  | encac c =>
    rw [exec_encac] at h
    exact hP.coding (hP.bitRule.encodeAc (m := 0) _ _ _ hs) (writerKept_closeBlock _ _) h
  | putb n v =>
    obtain ⟨-, x, hx, rfl⟩ := exec_putb_eq_next.1 h
    exact hP.put hs hx
  | fin =>
    obtain ⟨x, hx, rfl⟩ := exec_fin_eq_next.1 h
    exact hP.kept (hP.flush hs hx) (writerKept_gotoPhase _ x)
  | halt => rw [exec_halt, nextHw_eq_next] at h; rw [h]; exact hP.kept hs (writerKept_endRun _)
  | trap e => rw [(exec_trap_eq_next.1 h).2]; exact hP.kept hs (writerKept_takeTrap e _)

end

/-! ## What `FIN` does, by cases -/

/-- `FIN` finds nothing pending, or appends a byte and clears `ACC` and `CNT` (44 R123). -/
theorem flush_cases {tick : Nat} {h h' : Hardware} (hs : flush tick h = some h') :
    (h.cnt = 0 ∧ h' = h) ∨
      ∃ b x, emitStuffed b h = some x ∧ h' = { x with acc := 0, cnt := 0 } := by
  unfold flush at hs
  split at hs
  · exact .inl ⟨BitVec.eq_of_toNat_eq ‹_›, (Option.some_inj.1 hs).symm⟩
  · obtain ⟨x, hx, rfl⟩ := Option.map_eq_some_iff.1 hs
    exact .inr ⟨_, x, hx, rfl⟩

theorem flush_cnt {tick : Nat} {h h' : Hardware} (hs : flush tick h = some h') : h'.cnt = 0 := by
  rcases flush_cases hs with ⟨h0, rfl⟩ | ⟨b, x, -, rfl⟩
  · exact h0
  · rfl

/-! ## The two invariants -/

theorem writerRule_writerOk : WriterRule writerOk where
  put {v n h h'} hok hs := by
    unfold putBits at hs
    split at hs
    · cases hs; exact hok
    · exact drain_writerOk rfl (pending_lt hok.2) hs
  flush {tick h h'} hok hs := by
    rcases flush_cases hs with ⟨-, rfl⟩ | ⟨b, x, -, rfl⟩
    · exact hok
    · exact writerOk_empty rfl rfl
  init _ := writerOk_empty rfl rfl
  kept {h h'} hok hk := by
    unfold writerOk
    rw [hk.acc, hk.cnt]
    exact hok

theorem writerRule_outputOk : WriterRule outputOk where
  put {v n h h'} hok hs := by
    unfold putBits at hs
    split at hs
    · cases hs; exact hok
    · exact drain_outputOk hok hs
  flush {tick h h'} hok hs := by
    rcases flush_cases hs with ⟨-, rfl⟩ | ⟨b, x, hx, rfl⟩
    · exact hok
    · have hok' := emitStuffed_outputOk hok hx
      exact hok'
  init hok := hok
  kept {h h'} hok hk := by
    refine ⟨hk.out ▸ hok.1, ?_⟩
    rcases hk.outlen with hlen | hlen
    · rw [outBytes, hk.out, hlen]
      exact hok.2
    · exact stuffed_of_outlen hlen

/-- Settles O40: `PUTB` drains to less than a byte, and `FIN` and `INIT` leave nothing pending. -/
theorem accumulatorInvariant : Obligations.AccumulatorInvariant := by
  refine fun i s t h => ⟨fun hok => writerRule_writerOk.exec hok h, ?_, ?_⟩
  · rintro rfl
    rw [exec_init, nextHw_eq_next] at h
    rw [h]
    exact ⟨rfl, rfl⟩
  · rintro rfl -
    obtain ⟨x, hx, rfl⟩ := exec_fin_eq_next.1 h
    have hcnt := flush_cnt hx
    exact hcnt

/-- Settles O41: every computed byte is appended with its stuffing. -/
theorem stuffingInvariant : Obligations.StuffingInvariant :=
  fun _ _ _ hwf hstuffed h => (writerRule_outputOk.exec ⟨hwf, hstuffed⟩ h).2

end Sys2Proof.Laws
end

section
/-! PROOFS. How many bits a strip sends, and how long its output is (44 R127, 45 R144). -/

namespace Sys2Proof.Laws

open Sys2Proof Sys2Proof.Machine Sys2Proof.Claims

/-! ## Bits of pairs -/

/-- Where there are pairs they send at least `lo` and at most `hi` bits. -/
def bitsWithin (lo hi : Nat) (items : Option (List (Nat × Nat))) : Prop :=
  ∀ ps, items = some ps → lo ≤ (pairBits ps).length ∧ (pairBits ps).length ≤ hi

theorem pairBits_append (ps qs : List (Nat × Nat)) : pairBits (ps ++ qs) = pairBits ps ++ pairBits qs := List.flatMap_append

theorem pairBits_singleton (p : Nat × Nat) : pairBits [p] = bitsOf p.1 p.2 := List.flatMap_singleton _ p

theorem bitsWithin_mono {lo hi lo' hi' : Nat} {items : Option (List (Nat × Nat))} (h : bitsWithin lo hi items)
    (hlo : lo' ≤ lo) (hhi : hi ≤ hi') : bitsWithin lo' hi' items := fun ps hps => by
  obtain ⟨h1, h2⟩ := h ps hps
  exact ⟨hlo.trans h1, h2.trans hhi⟩

theorem bitsWithin_nil : bitsWithin 0 0 (some []) := by
  rintro _ ⟨⟩
  exact ⟨le_rfl, le_rfl⟩

theorem bitsWithin_both {lo hi lo' hi' : Nat} {items items' : Option (List (Nat × Nat))} (h : bitsWithin lo hi items)
    (h' : bitsWithin lo' hi' items') : bitsWithin (lo + lo') (hi + hi') (both items items') := by
  intro ps hps
  obtain ⟨qs, rs, hqs, hrs, rfl⟩ := Option.map₂_eq_some_iff.1 hps
  have hq := h qs hqs
  have hr := h' rs hrs
  rw [pairBits_append, List.length_append]
  omega

/-- The extra bits are as many as the category says (30 R68). -/
theorem bitsWithin_extraPairs {v : Int} {n : Nat} (h : category v ≤ n) : bitsWithin 0 n (some (extraPairs v)) := by
  rintro _ ⟨⟩
  refine ⟨Nat.zero_le _, ?_⟩
  unfold extraPairs
  split
  · exact Nat.zero_le n
  · rwa [pairBits_singleton, length_bitsOf]

/-! ## Blocks -/

/-- No code of the configuration is shorter than `m` bits. -/
def codesFrom (m : Nat) (cfg : Config) : Prop := ∀ k t i code, codeOf cfg k t i = some code → m ≤ code.len

section

variable {cfg : Config} {m : Nat} (hm : codesFrom m cfg) (t : TableSel)

include hm

theorem bitsWithin_code (k : CoefKind) (i : Nat) : bitsWithin m 16 ((codeOf cfg k t i).map fun c => [codePair c]) := by
  intro ps hps
  obtain ⟨code, hcode, rfl⟩ := Option.map_eq_some_iff.1 hps
  rw [pairBits_singleton, length_bitsOf]
  exact ⟨hm k t i code hcode, huffCode_len_le code⟩

/-- A DC part with a category of at most 11 (43 R117). -/
theorem bitsWithin_dcPairs {diff : Int} (h : category diff ≤ 11) : bitsWithin m 27 (dcPairs cfg t diff) := by
  have hdc : dcPairs cfg t diff =
      both ((codeOf cfg .dc t (category diff)).map fun c => [codePair c]) (some (extraPairs diff)) := by
    unfold dcPairs
    cases codeOf cfg .dc t (category diff) <;> rfl
  rw [hdc]
  exact bitsWithin_both (bitsWithin_code hm t .dc _) (bitsWithin_extraPairs h)

theorem bitsWithin_zrlItems (n : Nat) : bitsWithin 0 (16 * n) (zrlItems cfg t n) := by
  induction n with
  | zero => exact bitsWithin_nil
  | succ n ih =>
    rw [zrlItems_succ]
    exact bitsWithin_mono (bitsWithin_both ih (bitsWithin_code hm t .ac 0xF0)) (Nat.zero_le _) (by omega)

/-- Each coefficient costs at most 26 bits, a zero by its share of a ZRL or of the EOB; and a block that is not empty sends a code
(43 R117). -/
theorem bitsWithin_acPairs {vs : List Int} (h : ∀ v ∈ vs, category v ≤ 10) : ∀ zeros,
    bitsWithin (if zeros + vs.length = 0 then 0 else m) (26 * (zeros + vs.length)) (acPairs cfg t zeros vs) := by
  induction vs with
  | nil =>
    intro zeros
    change bitsWithin _ _ (eobItems cfg t zeros)
    rw [List.length_nil, Nat.add_zero, eobItems]
    split
    · exact bitsWithin_mono bitsWithin_nil le_rfl (Nat.zero_le _)
    · exact bitsWithin_mono (bitsWithin_code hm t .ac 0x00) le_rfl (by omega)
  | cons v rest ih =>
    intro zeros
    rw [List.forall_mem_cons] at h
    by_cases hv : v = 0
    · rw [hv, acPairs_zero, List.length_cons, show zeros + (rest.length + 1) = zeros + 1 + rest.length by omega]
      exact ih h.2 (zeros + 1)
    · rw [acPairs_nonzero cfg t zeros hv, List.length_cons, if_neg (by omega)]
      have hcode : bitsWithin m 16 (codeItem cfg t (16 * (zeros % 16) + category v)) := bitsWithin_code hm t .ac _
      exact bitsWithin_mono (bitsWithin_both (bitsWithin_zrlItems hm t (zeros / 16))
        (bitsWithin_both (bitsWithin_both hcode (bitsWithin_extraPairs h.1)) (ih h.2 0))) (by omega) (by omega)

/-- A block sends at least the codes of its DC part and of its AC part, and at most 1665 bits (44 R127). -/
theorem bitsWithin_blockPairs {before : Int} {cf : Fin 64 → Int} (c : Component) (hdc : category (cf 0 - before) ≤ 11)
    (hac : ∀ v ∈ acValues cf, category v ≤ 10) : bitsWithin (2 * m) 1665 (blockPairs cfg c before cf) := by
  have hlen : (acValues cf).length = 63 := by simp [acValues]
  have hpart := bitsWithin_acPairs hm (tableSel c) hac 0
  rw [hlen] at hpart
  rw [blockPairs_eq]
  exact bitsWithin_mono (bitsWithin_both (bitsWithin_dcPairs hm (tableSel c) hdc) hpart)
    (by rw [if_neg (by decide)]; omega) (by omega)

end

/-! ## Strips -/

theorem bitsWithin_foldr {β : Type} {pairs : β → Option (List (Nat × Nat))} {lo hi : Nat}
    (h : ∀ b, bitsWithin lo hi (pairs b)) (blocks : List β) :
    bitsWithin (lo * blocks.length) (hi * blocks.length) (blocks.foldr (fun b rest => do
      let block ← pairs b
      let rest ← rest
      some (block ++ rest)) (some [])) := by
  induction blocks with
  | nil => exact bitsWithin_nil
  | cons b blocks ih =>
    have hboth : ∀ items items' : Option (List (Nat × Nat)), (do
        let block ← items
        let rest ← items'
        some (block ++ rest)) = both items items' := by
      intro items items'
      cases items <;> cases items' <;> rfl
    rw [List.foldr_cons, hboth, List.length_cons]
    exact bitsWithin_mono (bitsWithin_both (h b) ih) (by rw [Nat.mul_succ, Nat.add_comm])
      (by rw [Nat.mul_succ, Nat.add_comm])

/-- A column has three blocks. -/
theorem bitsWithin_stripPairs {cfg : Config} {coefs : Nat → Component → Fin 64 → Int} {lo hi : Nat}
    (h : ∀ j c, bitsWithin lo hi (blockPairs cfg c (if j = 0 then 0 else coefs (j - 1) c 0) (coefs j c))) (columns : Nat) :
    bitsWithin (lo * (3 * columns)) (hi * (3 * columns)) (stripPairs cfg coefs columns) := by
  have hlen : ((List.range columns).flatMap fun j => [Component.y, .cb, .cr].map fun c => (j, c)).length = 3 * columns := by
    simp [List.length_flatMap, Nat.mul_comm]
  rw [← hlen]
  exact bitsWithin_foldr (fun jc : Nat × Component => h jc.1 jc.2) _

theorem bitsWithin_stripBlock {cfg : Config} {m : Nat} (hm : codesFrom m cfg) (pixels : List Byte) (width : Nat)
    {lt ct : List Byte} (hpos : tablesPositive lt ct) (j : Nat) (c : Component) :
    bitsWithin (2 * m) 1665 (blockPairs cfg c (if j = 0 then 0 else stripCoefs q30Ops pixels width lt ct (8 * (j - 1)) c 0)
      (stripCoefs q30Ops pixels width lt ct (8 * j) c)) := by
  refine bitsWithin_blockPairs hm c ?_ fun v hv => ?_
  · split
    · rw [sub_zero]
      exact category_dc_le pixels width hpos c _
    · exact category_dc_diff_le pixels width hpos c _ _
  · obtain ⟨i, hi, rfl⟩ := mem_acValues hv
    exact category_ac_le pixels width hpos c (8 * j) hi

/-! ## Codes of `HUFF_STD` -/

theorem huffStd_len (k : CoefKind) (t : TableSel) :
    (romOf huffStd k t).all fun entry => entry.all fun code => decide (2 ≤ code.len) := by
  cases k <;> cases t <;> decide +kernel

/-- Every code of `HUFF_STD` has at least two bits, and the placeholder has sixteen. -/
theorem codesFrom_huffStd {cfg : Config} (hstd : cfg.huff = huffStd) : codesFrom 2 cfg := by
  intro k t i code hcode
  unfold codeOf at hcode
  cases hentry : (romOf cfg.huff k t).getD i none with
  | none =>
    rw [lookup_of_invalid hentry] at hcode
    split at hcode
    · cases hcode
      decide
    · cases hcode
  | some entry =>
    rw [lookup_of_valid hentry] at hcode
    cases hcode
    rw [hstd] at hentry
    have hmem := List.mem_of_getElem? (getD_none_eq_some_iff.1 hentry)
    simpa using List.all_eq_true.1 (huffStd_len k t) _ hmem

/-! ## The output -/

/-- The stream has a byte for eight bits, or two where it is stuffed. -/
theorem length_streamBytes (bits : List Bool) :
    (bits.length + 7) / 8 ≤ (streamBytes bits).length ∧ (streamBytes bits).length ≤ 2 * ((bits.length + 7) / 8) := by
  rw [← length_packBits]
  exact length_stuffBytes _

theorem encodeStrip_eq_ok {cfg : Config} {pixels lt ct bytes : List Byte} {width : Nat}
    (h : encodeStrip cfg pixels width lt ct = .ok bytes) :
    ∃ ps, stripPairs cfg (fun j => stripCoefs (arithOps cfg.arith) pixels width lt ct (8 * j)) ((width + 7) / 8) = some ps ∧
      bytes = streamBytes (pairBits ps) := by
  unfold encodeStrip at h
  split at h
  · cases h
  · split at h
    · cases h
    · split at h
      · cases h
      · cases h
        exact ⟨_, ‹_›, rfl⟩

/-- A successful strip sends between `6 * m` and 4995 bits for each column (44 R127, 45 R144). -/
theorem encodeStrip_bits {cfg : Config} {m : Nat} (hm : codesFrom m cfg) (harith : cfg.arith = .q30)
    {pixels lt ct bytes : List Byte} {width : Nat} (hpos : tablesPositive lt ct)
    (h : encodeStrip cfg pixels width lt ct = .ok bytes) :
    ∃ bits, bytes = streamBytes bits ∧ 2 * m * (3 * ((width + 7) / 8)) ≤ bits.length ∧
      bits.length ≤ 1665 * (3 * ((width + 7) / 8)) := by
  obtain ⟨ps, hps, hbytes⟩ := encodeStrip_eq_ok h
  have hcoefs : (fun j => stripCoefs (arithOps cfg.arith) pixels width lt ct (8 * j)) =
      fun j => stripCoefs q30Ops pixels width lt ct (8 * j) := by
    rw [harith]
    funext j c
    exact stripCoefs_q30 pixels width lt ct (8 * j) c
  rw [hcoefs] at hps
  exact ⟨pairBits ps, hbytes, bitsWithin_stripPairs (bitsWithin_stripBlock hm pixels width hpos) _ ps hps⟩

/-- Settles O56: 8192 columns of 4995 bits, each byte stuffed, and at least 12 bits for a column with `HUFF_STD`. -/
theorem outputLength : Obligations.OutputLength := by
  intro cfg pixels width lt ct bytes harith hpos hwidth h
  refine ⟨?_, fun hstd hw => ?_⟩
  · obtain ⟨bits, rfl, -, hbits⟩ := encodeStrip_bits (m := 0) (fun _ _ _ _ _ => Nat.zero_le _) harith hpos h
    have hlen := (length_streamBytes bits).2
    omega
  · obtain ⟨bits, rfl, hbits, -⟩ := encodeStrip_bits (codesFrom_huffStd hstd) harith hpos h
    have hlen := (length_streamBytes bits).1
    omega

end Sys2Proof.Laws
end

section
/-! PROOFS. The sequencer's operations and the schedule (45 R136 to R141): what `CHK`, `INIT`, `HALT` and `TRAP` leave, which
operation the core performs on its turn, and where it goes next. -/

namespace Sys2Proof.Laws

open Sys2Proof Sys2Proof.Machine Sys2Proof.Claims

/-! ## The sequencer's operations -/

/-- Settles O10: the outcome is that of the launch check, which tests the lengths in this order. -/
theorem chkOutcome : Obligations.ChkOutcome := exec_chk

/-- Settles O11: both forms of the phase after `INIT` start the loop at column 0. -/
theorem initOutcome : Obligations.InitOutcome := by
  intro s
  rw [exec_init, initStrip]
  split <;> rfl

/-- Settles O12: the outcome is that of the end of a run. -/
theorem haltOutcome : Obligations.HaltOutcome := exec_halt

/-- Settles O13: a code in 1..3 takes the trap. -/
theorem trapOutcome : Obligations.TrapOutcome := fun _ _ h1 h3 => exec_trap_eq_next.2 ⟨⟨h1, h3⟩, rfl⟩

/-! ## The core's turn -/

theorem currentTurn_of_coreMoves {s : State} (h : coreMoves s) : currentTurn s = .core := by
  unfold currentTurn
  rcases h with hturn | ⟨hturns, hph⟩
  · obtain ⟨ts, hts⟩ := List.head?_eq_some_iff.1 hturn
    rw [hts]
  · simp only [hturns, if_neg hph]

theorem operationAt_eq (q : Seq) : operationAt q = scheduledOp q := by
  obtain ⟨ph, col⟩ := q
  cases ph <;> rfl

section

variable {s : State} (hturn : currentTurn s = .core)

include hturn

/-- On its turn the core performs its scheduled operation. -/
theorem step_of_coreTurn {i : Instr} (hsch : Scheduled s.hw.seq i) : step s = exec i (advance s.env.listing s) := by
  have hact : coreActivity s = .op i s.env.listing := by
    unfold coreActivity
    rw [hsch.op]
    exact if_neg fun hbad => Nat.not_lt.2 hbad.2 (hsch.column hbad.1)
  simp only [step, nextActivity, hturn, hact]

/-- `CSC` cannot name a column of 2^16 or more (log entry 18). -/
theorem step_of_badColumn (hph : s.hw.seq.ph = .csc) (hcol : 2 ^ 16 ≤ s.hw.seq.col.toNat) : step s = .fault .cscColumn := by
  have hact : coreActivity s = .badColumn := by
    simp only [coreActivity, scheduledOp, hph]
    exact if_pos ⟨trivial, hcol⟩
  simp only [step, nextActivity, hturn, hact]

theorem step_of_coreIdle (hph : s.hw.seq.ph = .idle) : step s = .next (advance s.env.listing s) := by
  simp only [step, nextActivity, hturn, coreActivity, scheduledOp, hph]

/-- A step of the core that is not at `IDLE` and answers a next state performed the scheduled operation. -/
theorem step_core_eq_next {t : State} (hph : s.hw.seq.ph ≠ .idle) (h : step s = .next t) :
    ∃ i, Scheduled s.hw.seq i ∧ exec i (advance s.env.listing s) = .next t := by
  obtain ⟨i, hop⟩ := exists_scheduledOp hph
  have hsch : Scheduled s.hw.seq i := ⟨hop, fun hcsc => by
    by_contra hcol
    rw [step_of_badColumn hturn hcsc (Nat.not_lt.1 hcol)] at h
    cases h⟩
  exact ⟨i, hsch, step_of_coreTurn hturn hsch ▸ h⟩

end

/-- Settles O6: the operation that the statement's table names is the scheduled one. -/
theorem stepRunsScheduledOperation : Obligations.StepRunsScheduledOperation := by
  intro s hmoves
  have hturn := currentTurn_of_coreMoves hmoves
  exact ⟨fun i hop hcol => step_of_coreTurn hturn ⟨operationAt_eq _ ▸ hop, hcol⟩, step_of_coreIdle hturn,
    step_of_badColumn hturn⟩

/-! ## The transition table -/

/-- `h'` is where the transition table takes `h`: the next phase, its column and its `STATUS` (45 R136, R139, R140). -/
structure NextByTable (h h' : Hardware) : Prop where
  phase : h'.seq.ph = phaseAfter h
  status : h.seq.ph ≠ .halt → h'.status = h.status
  done : h.seq.ph = .halt → h'.status = statusDone
  start : h.seq.ph = .init → h'.seq.col = 0
  loop : h.seq.ph = .encac2 → h.seq.col.toNat + 8 < 2 ^ 17 → h'.seq.col = h.seq.col + 8
  column : h.seq.ph ≠ .init → h.seq.ph ≠ .encac2 → h'.seq.col = h.seq.col

/-- `h'` is a trap from `h`. -/
structure Trapped (h h' : Hardware) : Prop where
  may : mayTrap h.seq.ph = true
  seq : h'.seq = { h.seq with ph := .idle }
  err : h'.status.err = true

/-- At most phases only `SEQ.PH` moves. -/
theorem nextByTable_of_phase {h h' : Hardware} {ph : Phase} (hne : h.seq.ph ∉ [Phase.init, .encac2, .halt])
    (hph : phaseAfter h = ph) (hseq : h'.seq = { h.seq with ph := ph }) (hstatus : h'.status = h.status) :
    NextByTable h h' := by
  simp only [List.mem_cons, List.not_mem_nil, or_false, not_or] at hne
  obtain ⟨hinit, hlast, hhalt⟩ := hne
  exact
    { phase := by rw [hseq, hph]
      status := fun _ => hstatus
      done := fun h0 => absurd h0 hhalt
      start := fun h0 => absurd h0 hinit
      loop := fun h0 => absurd h0 hlast
      column := fun _ _ => by rw [hseq] }

theorem trapped_takeTrap {h x : Hardware} (e : BitVec 4) (hmay : mayTrap h.seq.ph = true) (hseq : x.seq = h.seq) :
    Trapped h (takeTrap e x) := ⟨hmay, by rw [takeTrap_seq, hseq], rfl⟩

section

variable {h : Hardware}

theorem checkLaunch_follows (hph : h.seq.ph = .chk) : NextByTable h (checkLaunch h) ∨ Trapped h (checkLaunch h) := by
  have hmay : mayTrap h.seq.ph = true := by rw [hph]; rfl
  unfold checkLaunch
  split_ifs
  · exact .inr (trapped_takeTrap 1 hmay rfl)
  · exact .inr (trapped_takeTrap 2 hmay rfl)
  · exact .inl (nextByTable_of_phase (by rw [hph]; decide) (by simp only [phaseAfter, hph]) rfl rfl)

theorem initStrip_follows (hph : h.seq.ph = .init) : NextByTable h (initStrip h) where
  phase := by simp only [initStrip_phase, phaseAfter, hph]
  status _ := rfl
  done hhalt := by rw [hph] at hhalt; cases hhalt
  start _ := rfl
  loop hlast := by rw [hph] at hlast; cases hlast
  column hne := absurd hph hne

theorem endRun_follows (hph : h.seq.ph = .halt) : NextByTable h (endRun h) where
  phase := by simp only [endRun_seq, phaseAfter, hph]
  status hne := absurd hph hne
  done _ := rfl
  start hinit := by rw [hph] at hinit; cases hinit
  loop hlast := by rw [hph] at hlast; cases hlast
  column _ _ := rfl

theorem nextMcu_follows {x : Hardware} (hph : h.seq.ph = .encac2) (hc : coderOnly h x) (tick : Nat) :
    NextByTable h (nextMcu tick x) where
  phase := by simp only [nextMcu_seq, coderOnly_seq hc, (sameLaunch_of_coderOnly hc).1, phaseAfter, hph]
  status _ := coderOnly_status (h' := x) hc
  done hhalt := by rw [hph] at hhalt; cases hhalt
  start hinit := by rw [hph] at hinit; cases hinit
  loop _ hcol := by rw [nextMcu_seq, coderOnly_seq hc, nextColumn, if_pos hcol]
  column _ hne := absurd hph hne

end

/-- A coding goes on by the table or a miss traps. -/
theorem coding_follows {s t : State} {next : Hardware → Hardware} {r : Coding} (hmay : mayTrap s.hw.seq.ph = true)
    (hc : reaches (coderOnly s.hw) r) (hnext : ∀ x, coderOnly s.hw x → NextByTable s.hw (next x))
    (h : codingOutcome s next r = .next t) : NextByTable s.hw t.hw ∨ Trapped s.hw t.hw := by
  rcases codingOutcome_cases h with ⟨x, rfl, rfl⟩ | ⟨x, rfl, rfl⟩
  · exact .inl (hnext x hc)
  · exact .inr (trapped_takeTrap 3 hmay (coderOnly_seq hc))

theorem gotoPhase_follows {h x : Hardware} {ph : Phase} (hne : h.seq.ph ∉ [Phase.init, .encac2, .halt])
    (hph : phaseAfter h = ph) (hc : coderOnly h x) : NextByTable h (gotoPhase ph x) :=
  nextByTable_of_phase hne hph (by rw [gotoPhase_seq, coderOnly_seq hc]) (coderOnly_status (h' := x) hc)

/-- The scheduled operation goes on by the table or traps. -/
theorem exec_follows {i : Instr} {s t : State} (hs : Scheduled s.hw.seq i) (h : exec i s = .next t) :
    NextByTable s.hw t.hw ∨ Trapped s.hw t.hw := by
  have hph := hs.phase
  cases coreOp_of_not_isHost hs.not_isHost with
  | chk => rw [exec_chk, nextHw_eq_next] at h; rw [h]; exact checkLaunch_follows hph
  | init => rw [exec_init, nextHw_eq_next] at h; rw [h]; exact .inl (initStrip_follows hph)
  | csc col =>
    change s.hw.seq.ph = .csc at hph
    rw [(exec_csc_eq_next.1 h).2, colorConvert_of_scheduled hs]
    exact .inl (nextByTable_of_phase (by rw [hph]; decide) (by simp only [phaseAfter, hph]) rfl rfl)
  | dctr c =>
    rw [exec_dctr, nextHw_eq_next] at h
    rw [phaseOf_dctrOp] at hph
    rw [h]
    refine .inl (nextByTable_of_phase ?_ ?_ rfl rfl) <;> cases c <;> simp [hph, phaseAfter, dctrPhase, dctcPhase]
  | dctc c =>
    rw [exec_dctc, nextHw_eq_next] at h
    rw [phaseOf_dctcOp] at hph
    rw [h]
    refine .inl (nextByTable_of_phase ?_ ?_ rfl rfl) <;> cases c <;> simp [hph, phaseAfter, dctcPhase, qntPhase]
  | qnt c =>
    rw [exec_qnt, nextHw_eq_next] at h
    rw [phaseOf_qntOp] at hph
    rw [h]
    refine .inl (nextByTable_of_phase ?_ ?_ rfl rfl) <;> cases c <;> simp [hph, phaseAfter, qntPhase, afterQnt]
  | encdc c =>
    rw [exec_encdc] at h
    rw [phaseOf_encdcOp] at hph
    refine coding_follows ?_ (encodeDc_coderOnly _ _ _ _) (fun x hc => gotoPhase_follows ?_ ?_ hc) h <;>
      cases c <;> simp [hph, mayTrap, phaseAfter, encdcPhase, encacPhase]
  | encac c =>
    rw [exec_encac] at h
    rw [phaseOf_encacOp] at hph
    refine coding_follows (by rw [hph]; cases c <;> rfl) (encodeAc_coderOnly _ _ _ _) (fun x hc => ?_) h
    cases c with
    | y => exact gotoPhase_follows (by rw [hph]; decide) (by simp only [phaseAfter, hph, encacPhase]) hc
    | cb => exact gotoPhase_follows (by rw [hph]; decide) (by simp only [phaseAfter, hph, encacPhase]) hc
    | cr => exact nextMcu_follows hph hc _
  | fin =>
    obtain ⟨x, hx, rfl⟩ := exec_fin_eq_next.1 h
    exact .inl (gotoPhase_follows (by rw [hph]; decide) (by simp only [phaseAfter, hph, phaseOf])
      (writerOnly_coderOnly (flush_writerOnly hx)))
  | halt => rw [exec_halt, nextHw_eq_next] at h; rw [h]; exact .inl (endRun_follows hph)
  | putb | trap => exact absurd hph hs.phase_ne_idle

/-- Settles O7: the step performs the scheduled operation, which goes on by the table or traps. -/
theorem nextPhaseOfSchedule : Obligations.NextPhaseOfSchedule := by
  intro s t hmoves hph h
  obtain ⟨i, hsch, hx⟩ := step_core_eq_next (currentTurn_of_coreMoves hmoves) hph h
  rcases exec_follows (s := advance s.env.listing s) hsch hx with hnext | htrap
  · exact .inl ⟨hnext.phase, hnext.status, hnext.done, hnext.start, hnext.loop, hnext.column⟩
  · exact .inr ⟨htrap.may, htrap.seq, htrap.err⟩

end Sys2Proof.Laws
end

section
/-! PROOFS. The host's four operations in every state (45 R129 to R135): which register or byte an offset reaches, and the outcome
at each of them. -/

namespace Sys2Proof.Laws

open Sys2Proof Sys2Proof.Machine Sys2Proof.Claims

/-! ## Registers -/

/-- The offset of a register (10 R19). -/
def regOffset : Reg → Word
  | .ctrl => 0x00
  | .status => 0x04
  | .width => 0x08
  | .pixlen => 0x0C
  | .qllen => 0x10
  | .qclen => 0x14
  | .outlen => 0x18

/-- An aligned offset up to 0x18 is a register's, and any other reaches none (20 R41). -/
theorem regAt_cases (addr : Word) :
    (∃ r, addr = regOffset r ∧ regAt addr = some r) ∨
      ((addr.toNat % 4 ≠ 0 ∨ 0x18 < addr.toNat) ∧ regAt addr = none) := by
  have at_offset : ∀ r, addr.toNat = (regOffset r).toNat → addr = regOffset r := fun r h => BitVec.eq_of_toNat_eq h
  unfold regAt
  split
  · exact .inl ⟨.ctrl, at_offset _ ‹_›, rfl⟩
  · exact .inl ⟨.status, at_offset _ ‹_›, rfl⟩
  · exact .inl ⟨.width, at_offset _ ‹_›, rfl⟩
  · exact .inl ⟨.pixlen, at_offset _ ‹_›, rfl⟩
  · exact .inl ⟨.qllen, at_offset _ ‹_›, rfl⟩
  · exact .inl ⟨.qclen, at_offset _ ‹_›, rfl⟩
  · exact .inl ⟨.outlen, at_offset _ ‹_›, rfl⟩
  · refine .inr ⟨?_, rfl⟩
    simp only [imp_false] at *
    omega

theorem regOffset_aligned (r : Reg) : (regOffset r).toNat % 4 = 0 ∧ (regOffset r).toNat ≤ 0x18 := by
  cases r <;> decide

theorem exec_hwr32_of_reg {addr : Word} {r : Reg} (h : regAt addr = some r) (data : Word) (s : State) :
    exec (.hwr32 addr data) s = if s.hw.status.busy then respond s .written else written s (writeReg r data s.hw) := by
  change execHwr32 addr data s = _
  simp only [execHwr32, h]

theorem exec_hwr32_of_none {addr : Word} (h : regAt addr = none) (data : Word) (s : State) :
    exec (.hwr32 addr data) s = respond s .error := by
  change execHwr32 addr data s = _
  simp only [execHwr32, h]

theorem exec_hrd32_of_reg {addr : Word} {r : Reg} (h : regAt addr = some r) (seen : Word) (s : State) :
    exec (.hrd32 addr seen) s = respond s (.word (regRead s.env.tick r s.hw)) := by
  change execHrd32 addr s = _
  simp only [execHrd32, h]

theorem exec_hrd32_of_none {addr : Word} (h : regAt addr = none) (seen : Word) (s : State) :
    exec (.hrd32 addr seen) s = respond s .error := by
  change execHrd32 addr s = _
  simp only [execHrd32, h]

/-- Settles O42: an offset of no register and a write while `BUSY` only answer, and a register is written as its row says. -/
theorem hwrThirtyTwoResult : Obligations.HwrThirtyTwoResult := by
  intro s addr data
  rcases regAt_cases addr with ⟨r, rfl, hreg⟩ | ⟨hoff, hreg⟩
  · obtain ⟨haligned, hle⟩ := regOffset_aligned r
    rw [exec_hwr32_of_reg hreg]
    by_cases hbusy : s.hw.status.busy = true
    · exact ⟨.written, by rw [if_pos hbusy, if_pos (.inr (.inr hbusy))]; rfl⟩
    · refine ⟨.written, ?_⟩
      rw [if_neg hbusy, if_neg (not_or.2 ⟨by omega, not_or.2 ⟨by omega, hbusy⟩⟩)]
      cases r <;> rfl
  · exact ⟨.error, by rw [exec_hwr32_of_none hreg, if_pos (hoff.imp_right .inl)]; rfl⟩

theorem statusWord_eq_ofNat (st : Status) :
    statusWord st = BitVec.ofNat 32 (st.busy.toNat + 2 * st.done.toNat + 4 * st.err.toNat + 16 * st.errcode.toNat) := by
  obtain ⟨busy, done, err, errcode⟩ := st
  revert busy done err errcode
  decide

theorem regRead_of_idle {h : Hardware} (hidle : h.status.busy = false) (tick : Nat) (r : Reg) :
    regRead tick r h = readReg r h := if_neg fun hb => by rw [hidle] at hb; exact Bool.false_ne_true hb.2

/-- Settles O43: `STATUS` reads as its value always and every register while idle, and no read writes. -/
theorem hrdThirtyTwoResult : Obligations.HrdThirtyTwoResult := by
  intro s addr seen
  refine ⟨fun hoff => ?_, ?_, fun haligned hle => ?_⟩
  · rcases regAt_cases addr with ⟨r, rfl, -⟩ | ⟨-, hreg⟩
    · obtain ⟨haligned, hle⟩ := regOffset_aligned r
      omega
    · exact ⟨.error, exec_hrd32_of_none hreg seen s⟩
  · rintro rfl
    rw [← statusWord_eq_ofNat]
    exact exec_readStatus seen s
  · rcases regAt_cases addr with ⟨r, rfl, hreg⟩ | ⟨hoff, -⟩
    · refine ⟨_, exec_hrd32_of_reg hreg seen s, fun hidle => ?_⟩
      rw [regRead_of_idle hidle]
      cases r <;> simp [regOffset, readReg, BitVec.ofNat_toNat]
    · omega

/-! ## Windows -/

/-- An offset from a window's first to its last reaches that space, at the distance from the first (20 R39). -/
theorem windowAt_of_mem {w : Space × Nat × Nat} (hw : w ∈ windows) {a : Nat} (hlo : w.2.1 ≤ a) (hhi : a ≤ w.2.2) :
    windowAt a = some (w.1, a - w.2.1) := by
  simp only [windows, List.mem_cons, List.not_mem_nil, or_false] at hw
  unfold windowAt
  rcases hw with rfl | rfl | rfl | rfl
  · exact if_pos ⟨hlo, hhi⟩
  · dsimp only at hlo hhi
    rw [if_neg (by omega)]
    exact if_pos ⟨hlo, hhi⟩
  · dsimp only at hlo hhi
    rw [if_neg (by omega), if_neg (by omega)]
    exact if_pos ⟨hlo, hhi⟩
  · dsimp only at hlo hhi
    rw [if_neg (by omega), if_neg (by omega), if_neg (by omega)]
    exact if_pos ⟨hlo, hhi⟩

/-- An offset that reaches a space lies in the listed window of it. -/
theorem windowAt_mem {a i : Nat} {sp : Space} (h : windowAt a = some (sp, i)) :
    ∃ w ∈ windows, w.1 = sp ∧ w.2.1 ≤ a ∧ a ≤ w.2.2 := by
  unfold windowAt at h
  split_ifs at h with hql hqc hpix hout <;> cases h
  · exact ⟨_, .head _, rfl, hql⟩
  · exact ⟨_, .tail _ (.head _), rfl, hqc⟩
  · exact ⟨_, .tail _ (.tail _ (.head _)), rfl, hpix⟩
  · exact ⟨_, .tail _ (.tail _ (.tail _ (.head _))), rfl, hout⟩

theorem windowAt_of_outside {a : Nat} (h : outsideWindows a) : windowAt a = none := by
  cases hw : windowAt a with
  | none => rfl
  | some p =>
    obtain ⟨w, hmem, -, hin⟩ := windowAt_mem hw
    exact absurd hin (h w hmem)

theorem writeWindow_of_window {addr : Word} {sp : Space} {i : Nat} (h : windowAt addr.toNat = some (sp, i)) (hsp : sp ≠ .out) :
    writeWindow addr = some (sp, i) := by
  unfold writeWindow readWindow
  rw [h]
  cases sp with
  | out => exact absurd rfl hsp
  | _ => rfl

/-- The writable windows end below `OUT`. -/
theorem writeWindow_below_out {addr : Word} {sp : Space} {i : Nat} (h : writeWindow addr = some (sp, i)) :
    windowAt addr.toNat = some (sp, i) ∧ addr.toNat < 0x1000000 := by
  have hsp := (writeWindow_eq_some h).1
  have hwin : windowAt addr.toNat = some (sp, i) := by
    unfold writeWindow readWindow at h
    split at h
    · cases h
    · exact h
  refine ⟨hwin, ?_⟩
  unfold windowAt at hwin
  split_ifs at hwin <;> cases hwin
  · omega
  · omega
  · omega
  · exact absurd rfl hsp

theorem exec_hwr8_of_window {addr : Word} {sp : Space} {i : Nat} (h : writeWindow addr = some (sp, i)) (data : Byte)
    (s : State) :
    exec (.hwr8 addr data) s = if s.hw.status.busy then respond s .written else written s (storeByte sp i data s.hw) := by
  change execHwr8 addr data s = _
  simp only [execHwr8, h]

theorem exec_hwr8_of_none {addr : Word} (h : writeWindow addr = none) (data : Byte) (s : State) :
    exec (.hwr8 addr data) s = respond s .error := by
  change execHwr8 addr data s = _
  simp only [execHwr8, h]

theorem exec_hrd8_of_window {addr : Word} {sp : Space} {i : Nat} (h : windowAt addr.toNat = some (sp, i)) (seen : Byte)
    (s : State) :
    exec (.hrd8 addr seen) s = respond s (.byte (windowRead s.env.tick sp i s.hw)) := by
  change execHrd8 addr s = _
  simp only [execHrd8, readWindow, h]

theorem exec_hrd8_of_none {addr : Word} (h : windowAt addr.toNat = none) (seen : Byte) (s : State) :
    exec (.hrd8 addr seen) s = respond s .error := by
  change execHrd8 addr s = _
  simp only [execHrd8, readWindow, h]

/-- A write to a memory other than `OUT` changes that memory alone. -/
theorem storeByte_frame {sp : Space} (hsp : sp ≠ .out) (i : Nat) (b : Byte) (h : Hardware) :
    storeByte sp i b h = { h with
      ql := (storeByte sp i b h).ql, qc := (storeByte sp i b h).qc, pix := (storeByte sp i b h).pix } := by
  cases sp with
  | out => exact absurd rfl hsp
  | _ => rfl

theorem readByte_storeByte {h : Hardware} (hwf : ∀ sp, Memory.wf (memoryOf sp h) = true) (sp sp' : Space) (i a : Nat) (b : Byte) :
    readByte (memoryOf sp' (storeByte sp i b h)) a =
      if sp' = sp ∧ a = i then b else readByte (memoryOf sp' h) a := by
  by_cases hsp : sp' = sp
  · subst hsp
    simp only [memoryOf_storeByte, readByte_writeByte (hwf sp'), true_and]
  · rw [memoryOf_storeByte_of_ne h hsp, if_neg fun hboth => hsp hboth.1]

/-- Settles O44: a byte is stored in a writable window while idle, and else the operation only answers. -/
theorem hwrEightResult : Obligations.HwrEightResult := by
  intro s addr data hwf
  refine ⟨fun w hw hout hlo hhi hidle => ?_, fun hcase => ?_⟩
  · have hwin := writeWindow_of_window (windowAt_of_mem hw hlo hhi) hout
    rw [exec_hwr8_of_window hwin, hidle]
    refine ⟨_, rfl, ?_, fun sp a => readByte_storeByte hwf w.1 sp _ a data⟩
    exact congrArg (fun h => { s with hw := h, env := { s.env with resp := .written } }) (storeByte_frame hout _ data s.hw)
  · cases hwin : writeWindow addr with
    | none => exact ⟨.error, exec_hwr8_of_none hwin data s⟩
    | some p =>
      obtain ⟨hread, hlt⟩ := writeWindow_below_out hwin
      have hbusy : s.hw.status.busy = true := by
        rcases hcase with hbusy | hout | hge
        · exact hbusy
        · rw [windowAt_of_outside hout] at hread
          cases hread
        · omega
      exact ⟨.written, by rw [exec_hwr8_of_window hwin, if_pos hbusy]; rfl⟩

theorem windowRead_of_idle {h : Hardware} (hidle : h.status.busy = false) (tick : Nat) (sp : Space) (i : Nat) :
    windowRead tick sp i h =
      if sp = .out ∧ h.outlen.toNat ≤ i then Config.freeOutByte h i else readByte (memoryOf sp h) i := by
  rw [windowRead, hidle]
  rfl

/-- Settles O45: a read only answers, and while idle its byte is a function of the hardware and the offset. -/
theorem hrdEightResult : Obligations.HrdEightResult := by
  intro s addr seen
  refine ⟨fun w hw hlo hhi => ?_, fun hout => ⟨.error, exec_hrd8_of_none (windowAt_of_outside hout) seen s⟩⟩
  have hwin := windowAt_of_mem hw hlo hhi
  refine ⟨_, exec_hrd8_of_window hwin seen s, fun hidle hbelow => ?_, fun hidle t seen' ht => ?_⟩
  · rw [windowRead_of_idle hidle, if_neg fun hpast => Nat.not_lt.2 hpast.2 (hbelow hpast.1)]
  · have hread : windowRead t.env.tick w.1 (addr.toNat - w.2.1) t.hw =
        windowRead s.env.tick w.1 (addr.toNat - w.2.1) s.hw := by
      rw [ht, windowRead_of_idle hidle, windowRead_of_idle hidle]
    rw [exec_hrd8_of_window hwin, hread]
    rfl

end Sys2Proof.Laws
end

section
/-! PROOFS. What the operations of the core leave unchanged (45 R142; 45 R137 to R141, 40 R85, 41 R98, 42 R100), and that the
transform and quantizer operations of two components can be exchanged (45 R147). -/

namespace Sys2Proof.Laws

open Sys2Proof Sys2Proof.Machine Sys2Proof.Claims

/-! ## The launch state -/

theorem sameLaunch_refl (h : Hardware) : sameLaunch h h := ⟨rfl, rfl, rfl, rfl, rfl, rfl, rfl⟩

/-- The datapath touches `SB`, `CF` and `SEQ` only. -/
theorem sameLaunch_blocks (h : Hardware) (sb : Triple (Block Sample)) (cf : Triple (Block (BitVec 16))) (q : Seq) :
    sameLaunch h { h with sb := sb, cf := cf, seq := q } := sameLaunch_refl h

theorem sameLaunch_gotoPhase (ph : Phase) (h : Hardware) : sameLaunch h (gotoPhase ph h) := sameLaunch_refl h

theorem sameLaunch_checkLaunch (h : Hardware) : sameLaunch h (checkLaunch h) := by
  unfold checkLaunch
  split_ifs <;> exact sameLaunch_refl h

theorem sameLaunch_closeBlock (tick : Nat) (c : Component) (h : Hardware) : sameLaunch h (closeBlock tick c h) := by
  cases c <;> exact sameLaunch_refl h

theorem sameLaunch_coding {s t : State} {next : Hardware → Hardware} {r : Coding} (hc : reaches (coderOnly s.hw) r)
    (hnext : ∀ x, sameLaunch x (next x)) (h : codingOutcome s next r = .next t) : sameLaunch s.hw t.hw := by
  rcases codingOutcome_cases h with ⟨x, rfl, rfl⟩ | ⟨x, rfl, rfl⟩
  · exact sameLaunch_trans (sameLaunch_of_coderOnly hc) (hnext x)
  · exact sameLaunch_of_coderOnly (h' := x) hc

/-- No operation of the core writes `WIDTH`, a length or a memory that the host fills. -/
theorem exec_sameLaunch {i : Instr} {s t : State} (hi : i.isHost = false) (h : exec i s = .next t) :
    sameLaunch s.hw t.hw := by
  cases coreOp_of_not_isHost hi with
  | chk => rw [exec_chk, nextHw_eq_next] at h; rw [h]; exact sameLaunch_checkLaunch s.hw
  | init => rw [exec_init, nextHw_eq_next] at h; rw [h]; exact sameLaunch_refl s.hw
  | csc col => rw [(exec_csc_eq_next.1 h).2, colorConvert]; exact sameLaunch_blocks s.hw _ s.hw.cf _
  | dctr c => rw [exec_dctr, nextHw_eq_next] at h; rw [h]; exact sameLaunch_blocks s.hw _ s.hw.cf _
  | dctc c => rw [exec_dctc, nextHw_eq_next] at h; rw [h]; exact sameLaunch_blocks s.hw _ s.hw.cf _
  | qnt c => rw [exec_qnt, nextHw_eq_next] at h; rw [h]; exact sameLaunch_blocks s.hw s.hw.sb _ _
  | encdc c =>
    rw [exec_encdc] at h
    exact sameLaunch_coding (encodeDc_coderOnly _ _ _ _) (sameLaunch_gotoPhase _) h
  | encac c =>
    rw [exec_encac] at h
    exact sameLaunch_coding (encodeAc_coderOnly _ _ _ _) (sameLaunch_closeBlock _ c) h
  | putb n v =>
    obtain ⟨-, x, hx, rfl⟩ := exec_putb_eq_next.1 h
    exact sameLaunch_of_coderOnly (writerOnly_coderOnly (putBits_writerOnly hx))
  | fin =>
    obtain ⟨x, hx, rfl⟩ := exec_fin_eq_next.1 h
    exact sameLaunch_of_coderOnly (h' := x) (writerOnly_coderOnly (flush_writerOnly hx))
  | halt => rw [exec_halt, nextHw_eq_next] at h; rw [h]; exact sameLaunch_refl s.hw
  | trap e => rw [(exec_trap_eq_next.1 h).2]; exact sameLaunch_refl s.hw

/-- Settles O47: an operation of the core changes the hardware only, and of it nothing that the host fills. -/
theorem coreKeepsLaunchState : Obligations.CoreKeepsLaunchState :=
  fun _ _ _ hi h => ⟨exec_sameLaunch hi h, exec_core_keeps hi h⟩

/-! ## Frames -/

theorem sameBytes_of_memories {h h' : Hardware} (hmem : ∀ sp, memoryOf sp h' = memoryOf sp h) : sameBytes h h' :=
  fun sp _ => by rw [hmem sp]

/-- `t` is `s` but for `STATUS`, `OUTLEN` and `SEQ.PH`. -/
def StatusOnly (s t : State) : Prop :=
  t = { s with hw := { s.hw with
    status := t.hw.status, outlen := t.hw.outlen, seq := { s.hw.seq with ph := t.hw.seq.ph } } } ∧ sameBytes s.hw t.hw

theorem statusOnly_takeTrap (e : BitVec 4) (s : State) : StatusOnly s { s with hw := takeTrap e s.hw } :=
  ⟨rfl, sameBytes_of_memories (memoryOf_takeTrap e s.hw)⟩

theorem statusOnly_checkLaunch (s : State) : StatusOnly s { s with hw := checkLaunch s.hw } := by
  unfold checkLaunch
  split_ifs
  · exact statusOnly_takeTrap 1 s
  · exact statusOnly_takeTrap 2 s
  · exact ⟨rfl, sameBytes_of_memories (memoryOf_gotoPhase .init s.hw)⟩

/-- The datapath touches no memory. -/
theorem sameBytes_blocks (h : Hardware) (sb : Triple (Block Sample)) (cf : Triple (Block (BitVec 16))) (q : Seq) :
    sameBytes h { h with sb := sb, cf := cf, seq := q } :=
  sameBytes_of_memories fun sp => by cases sp <;> rfl

/-- Settles O48: each operation is one update of the registers named for it, and no update of a memory. -/
theorem frameOfOperationsWithoutStores : Obligations.FrameOfOperationsWithoutStores := by
  intro s t
  refine ⟨fun i hi h => ?_, fun h => ?_, fun h => ?_, fun col h => ?_, fun c i hi h => ?_, fun c h => ?_⟩
  · rcases hi with rfl | rfl | ⟨e, rfl⟩
    · rw [exec_chk, nextHw_eq_next] at h
      rw [h]
      exact statusOnly_checkLaunch s
    · rw [exec_halt, nextHw_eq_next] at h
      rw [h]
      exact ⟨rfl, sameBytes_of_memories fun sp => by cases sp <;> rfl⟩
    · rw [(exec_trap_eq_next.1 h).2]
      exact statusOnly_takeTrap e s
  · rw [exec_halt, nextHw_eq_next] at h
    rw [h]
    rfl
  · rw [exec_init, nextHw_eq_next] at h
    rw [h]
    exact ⟨rfl, sameBytes_of_memories fun sp => by cases sp <;> rfl⟩
  · rw [(exec_csc_eq_next.1 h).2, colorConvert]
    exact ⟨rfl, sameBytes_blocks s.hw _ s.hw.cf _⟩
  · rcases hi with rfl | rfl
    · rw [exec_dctr, nextHw_eq_next] at h
      rw [h, rowPass_sb, getComp_setComp]
      exact ⟨rfl, sameBytes_blocks s.hw _ s.hw.cf _⟩
    · rw [exec_dctc, nextHw_eq_next] at h
      rw [h, columnPass_sb, getComp_setComp]
      exact ⟨rfl, sameBytes_blocks s.hw _ s.hw.cf _⟩
  · rw [exec_qnt, nextHw_eq_next] at h
    rw [h, quantizePass_cf, getComp_setComp]
    exact ⟨rfl, sameBytes_blocks s.hw s.hw.sb _ _⟩

/-! ## Operations of different components -/

theorem setComp_getComp {α : Type} (t : Triple α) (c : Component) : setComp t c (getComp t c) = t := by cases c <;> rfl

theorem setComp_comm {α : Type} (t : Triple α) {c c' : Component} (hne : c ≠ c') (v v' : α) :
    setComp (setComp t c v) c' v' = setComp (setComp t c' v') c v := by
  cases c <;> cases c' <;> first | rfl | exact absurd rfl hne

/-- An update of the blocks of component `c` alone, computed from these blocks. -/
def updateBlocks (c : Component) (sb : Block Sample → Block Sample) (cf : Block Sample → Block (BitVec 16) → Block (BitVec 16))
    (ph : Phase) (h : Hardware) : Hardware :=
  { h with
    sb := setComp h.sb c (sb (getComp h.sb c))
    cf := setComp h.cf c (cf (getComp h.sb c) (getComp h.cf c))
    seq := { h.seq with ph := ph } }

/-- Updates of two components can be exchanged, but for `SEQ`. -/
theorem updateBlocks_comm {c c' : Component} (hne : c ≠ c') (sb sb' : Block Sample → Block Sample)
    (cf cf' : Block Sample → Block (BitVec 16) → Block (BitVec 16)) (ph ph' : Phase) (h : Hardware) (q : Seq) :
    { updateBlocks c' sb' cf' ph' (updateBlocks c sb cf ph h) with seq := q } =
      { updateBlocks c sb cf ph (updateBlocks c' sb' cf' ph' h) with seq := q } := by
  simp only [updateBlocks, getComp_setComp_of_ne _ hne, getComp_setComp_of_ne _ hne.symm, setComp_comm _ hne]

/-- The quantized block, of the steps and the samples. -/
def quantizedBy (A : ArithOps Sample) (tick : Nat) (steps : Nat → Nat) (b : Block Sample) : Block (BitVec 16) :=
  Vector.ofFn fun i => quantize A (steps i.val) b[i] (Config.freeBits 16 tick i.val)

theorem quantizeBlock_eq (A : ArithOps Sample) (tick : Nat) (h : Hardware) (c : Component) :
    quantizeBlock A tick h c = quantizedBy A tick (stepOf h c) (getComp h.sb c) := rfl

/-- A transform or quantizer operation of component `c` is the same update of the blocks of `c` in every state with the
configuration, the environment and the launch state of `s`. -/
theorem exec_updateBlocks {c : Component} {i : Instr} (hi : i ∈ [dctrOp c, dctcOp c, qntOp c]) (s : State) :
    ∃ sb cf ph, ∀ t : State, t.cfg = s.cfg → t.env = s.env → sameLaunch s.hw t.hw →
      exec i t = nextHw t (updateBlocks c sb cf ph t.hw) := by
  simp only [List.mem_cons, List.not_mem_nil, or_false] at hi
  rcases hi with rfl | rfl | rfl
  · refine ⟨rowTransform (arithOps s.cfg.arith), fun _ b => b, dctcPhase c, fun t hcfg _ _ => ?_⟩
    rw [exec_dctr, hcfg, updateBlocks, setComp_getComp]
    rfl
  · refine ⟨columnTransform (arithOps s.cfg.arith), fun _ b => b, qntPhase c, fun t hcfg _ _ => ?_⟩
    rw [exec_dctc, hcfg, updateBlocks, setComp_getComp]
    rfl
  · refine ⟨fun b => b, fun b _ => quantizedBy (arithOps s.cfg.arith) s.env.tick (stepOf s.hw c) b, afterQnt c,
      fun t hcfg henv hl => ?_⟩
    have hsteps : stepOf t.hw c = stepOf s.hw c := funext (stepOf_alike hl c)
    rw [exec_qnt, hcfg, henv, quantizePass, quantizeBlock_eq, hsteps, updateBlocks, setComp_getComp]

theorem isHost_of_blockOp {c : Component} {i : Instr} (hi : i ∈ [dctrOp c, dctcOp c, qntOp c]) : i.isHost = false := by
  simp only [List.mem_cons, List.not_mem_nil, or_false] at hi
  rcases hi with rfl | rfl | rfl <;> cases c <;> rfl

/-- Settles O58: each of the two operations is one update of its component's blocks, in whatever order they are performed. -/
theorem componentsCommute : Obligations.ComponentsCommute := by
  intro c c' i j s t u t' u' hne hi hj hit hju hjt' hiu'
  obtain ⟨sb, cf, ph, hexec⟩ := exec_updateBlocks hi s
  obtain ⟨sb', cf', ph', hexec'⟩ := exec_updateBlocks hj s
  obtain ⟨hcfg, henv⟩ := exec_core_keeps (isHost_of_blockOp hi) hit
  obtain ⟨hcfg', henv'⟩ := exec_core_keeps (isHost_of_blockOp hj) hjt'
  rw [hexec' t hcfg henv (exec_sameLaunch (isHost_of_blockOp hi) hit), nextHw_eq_next] at hju
  rw [hexec t' hcfg' henv' (exec_sameLaunch (isHost_of_blockOp hj) hjt'), nextHw_eq_next] at hiu'
  rw [hexec s rfl rfl (sameLaunch_refl s.hw), nextHw_eq_next] at hit
  rw [hexec' s rfl rfl (sameLaunch_refl s.hw), nextHw_eq_next] at hjt'
  rw [hju, hiu', hit, hjt']
  exact updateBlocks_comm hne sb sb' cf cf' ph ph' s.hw s.hw.seq

end Sys2Proof.Laws
end

section
/-! PROOFS. The pairs of a strip in the order in which a run sends them: two parts to a block, DC and AC, six to a macroblock
column (30 R69, 45 R139). -/

namespace Sys2Proof.Laws

open Sys2Proof Sys2Proof.Machine Sys2Proof.Claims

/-- The place of a component in the coding order. -/
def componentIndex : Component → Nat
  | .y => 0
  | .cb => 1
  | .cr => 2

/-- The component at a place of the coding order. -/
def componentAt : Nat → Component
  | 0 => .y
  | 1 => .cb
  | _ => .cr

@[simp] theorem componentAt_componentIndex (c : Component) : componentAt (componentIndex c) = c := by cases c <;> rfl

theorem componentIndex_le (c : Component) : componentIndex c ≤ 2 := by cases c <;> decide

/-- The DC coefficient that the block of column `j` is coded against: 0 in the first column (43 R109, 45 R138). -/
def dcBefore (coefs : Nat → Component → Fin 64 → Int) (j : Nat) (c : Component) : Int :=
  if j = 0 then 0 else coefs (j - 1) c 0

/-- The DC part of the block of component `c` in column `j`. -/
def dcPart (cfg : Config) (coefs : Nat → Component → Fin 64 → Int) (j : Nat) (c : Component) : Option (List (Nat × Nat)) :=
  dcPairs cfg (tableSel c) (coefs j c 0 - dcBefore coefs j c)

/-- Its AC part. -/
def acPart (cfg : Config) (coefs : Nat → Component → Fin 64 → Int) (j : Nat) (c : Component) : Option (List (Nat × Nat)) :=
  acPairs cfg (tableSel c) 0 (acValues (coefs j c))

/-- Part `n` of the strip. -/
def partAt (cfg : Config) (coefs : Nat → Component → Fin 64 → Int) (n : Nat) : Option (List (Nat × Nat)) :=
  if n % 2 = 0 then dcPart cfg coefs (n / 6) (componentAt (n % 6 / 2))
  else acPart cfg coefs (n / 6) (componentAt (n % 6 / 2))

/-- The pairs of the first `n` parts; none where one of them has a symbol without a code. -/
def sentPairs (cfg : Config) (coefs : Nat → Component → Fin 64 → Int) : Nat → Option (List (Nat × Nat))
  | 0 => some []
  | n + 1 => both (sentPairs cfg coefs n) (partAt cfg coefs n)

section

variable (cfg : Config) (coefs : Nat → Component → Fin 64 → Int)

theorem partAt_dc (j : Nat) (c : Component) : partAt cfg coefs (6 * j + 2 * componentIndex c) = dcPart cfg coefs j c := by
  have hle := componentIndex_le c
  rw [partAt, if_pos (by omega), show (6 * j + 2 * componentIndex c) / 6 = j by omega,
    show (6 * j + 2 * componentIndex c) % 6 / 2 = componentIndex c by omega, componentAt_componentIndex]

theorem partAt_ac (j : Nat) (c : Component) :
    partAt cfg coefs (6 * j + 2 * componentIndex c + 1) = acPart cfg coefs j c := by
  have hle := componentIndex_le c
  rw [partAt, if_neg (by omega), show (6 * j + 2 * componentIndex c + 1) / 6 = j by omega,
    show (6 * j + 2 * componentIndex c + 1) % 6 / 2 = componentIndex c by omega, componentAt_componentIndex]

/-- A part without its codes leaves the strip without its stream. -/
theorem sentPairs_eq_none {n m : Nat} (hnone : sentPairs cfg coefs n = none) (hle : n ≤ m) : sentPairs cfg coefs m = none := by
  induction m, hle using Nat.le_induction with
  | base => exact hnone
  | succ m _ ih => rw [sentPairs, ih]; rfl

theorem sentPairs_succ_eq_none {n m : Nat} (hnone : partAt cfg coefs n = none) (hlt : n < m) :
    sentPairs cfg coefs m = none :=
  sentPairs_eq_none cfg coefs (n := n + 1) (by rw [sentPairs, hnone]; exact Option.map₂_none_right _ _) hlt

/-- The two parts of a block more. -/
theorem sentPairs_block (j : Nat) (c : Component) :
    sentPairs cfg coefs (6 * j + 2 * componentIndex c + 2) =
      both (sentPairs cfg coefs (6 * j + 2 * componentIndex c))
        (blockPairs cfg c (if j = 0 then 0 else coefs (j - 1) c 0) (coefs j c)) := by
  rw [sentPairs, sentPairs, partAt_dc, partAt_ac, both_assoc, blockPairs_eq]
  rfl

/-- Blocks put together with what follows them. -/
theorem foldr_both {β : Type} (pairs : β → Option (List (Nat × Nat))) (rest : Option (List (Nat × Nat))) (blocks : List β) :
    blocks.foldr (fun b rest => both (pairs b) rest) rest =
      both (blocks.foldr (fun b rest => both (pairs b) rest) (some [])) rest := by
  induction blocks with
  | nil => exact (nil_both rest).symm
  | cons b blocks ih => rw [List.foldr_cons, ih, List.foldr_cons, both_assoc]

theorem stripPairs_eq_foldr (columns : Nat) :
    stripPairs cfg coefs columns =
      ((List.range columns).flatMap fun j => [Component.y, .cb, .cr].map fun c => (j, c)).foldr
        (fun jc rest => both (blockPairs cfg jc.2 (if jc.1 = 0 then 0 else coefs (jc.1 - 1) jc.2 0) (coefs jc.1 jc.2)) rest)
        (some []) := by
  have hboth : ∀ block rest : Option (List (Nat × Nat)), (do
      let block ← block
      let rest ← rest
      some (block ++ rest)) = both block rest := fun block rest => by
    cases block <;> cases rest <;> rfl
  simp only [stripPairs, hboth]

/-- The stream of a strip is that of its parts, six to a column. -/
theorem stripPairs_eq_sentPairs (columns : Nat) : stripPairs cfg coefs columns = sentPairs cfg coefs (6 * columns) := by
  induction columns with
  | zero => rfl
  | succ m ih =>
    have hy := sentPairs_block cfg coefs m .y
    have hcb := sentPairs_block cfg coefs m .cb
    have hcr := sentPairs_block cfg coefs m .cr
    simp only [componentIndex] at hy hcb hcr
    rw [stripPairs_eq_foldr, List.range_succ, List.flatMap_append, List.foldr_append, foldr_both, ← stripPairs_eq_foldr, ih,
      show 6 * (m + 1) = 6 * m + 2 * 2 + 2 by omega, hcr, show 6 * m + 2 * 2 = 6 * m + 2 * 1 + 2 by omega, hcb,
      show 6 * m + 2 * 1 = 6 * m + 2 * 0 + 2 by omega, hy, both_assoc, both_assoc]
    simp [both_nil]

end

/-! ## What the writer has been given -/

/-- The writer has been given the first `n` parts of the strip. -/
def Wrote (cfg : Config) (coefs : Nat → Component → Fin 64 → Int) (n : Nat) (h : Hardware) : Prop :=
  ∃ ps, sentPairs cfg coefs n = some ps ∧ WroteBits (pairBits ps) h

theorem WroteBits.of_putAll {ps : List (Nat × Nat)} : ∀ {bits : List Bool} {h x : Hardware}, WroteBits bits h →
    Machine.putAll ps h = some x → WroteBits (bits ++ pairBits ps) x := by
  induction ps with
  | nil =>
    intro bits h x hw hx
    cases hx
    rw [show pairBits [] = [] from rfl, List.append_nil]
    exact hw
  | cons p ps ih =>
    intro bits h x hw hx
    obtain ⟨y, hy, hyx⟩ := Option.bind_eq_some_iff.1 hx
    have hrest := ih (hw.put hy) hyx
    rwa [List.append_assoc, ← pairBits_singleton, ← pairBits_append] at hrest

/-- `FIN` completes the stream where it completes (44 R128). -/
theorem WroteBits.of_flush {bits : List Bool} {h x : Hardware} {tick : Nat} (hw : WroteBits bits h)
    (hx : Machine.flush tick h = some x) : outBytes x = streamBytes bits := by
  have hlen := length_bitsLeft_le bits
  rw [streamBytes, packBits_eq, stuffBytes_append, ← hw.output, ← length_bitsLeft]
  by_cases hleft : bitsLeft bits = []
  · rw [Machine.flush, if_pos (by rw [hw.pending.cnt, hleft]; rfl)] at hx
    cases hx
    rw [hleft]
    exact (List.append_nil _).symm
  · rw [flush_of_pending hw.pending hleft (by omega)] at hx
    obtain ⟨y, hy, rfl⟩ := Option.map_eq_some_iff.1 hx
    rw [if_neg (by rwa [List.length_eq_zero_iff])]
    exact (emitStuffed_outBytes hw.canonical hy).2

section

variable {cfg : Config} {coefs : Nat → Component → Fin 64 → Int} {n : Nat} {h x : Hardware}

/-- Nothing but the writer's fields counts. -/
theorem Wrote.of_writer (hw : Wrote cfg coefs n h) (hacc : x.acc = h.acc) (hcnt : x.cnt = h.cnt) (hout : x.out = h.out)
    (hlen : x.outlen = h.outlen) : Wrote cfg coefs n x := by
  obtain ⟨ps, hps, hbits⟩ := hw
  refine ⟨ps, hps, hout ▸ hbits.canonical, ?_, ⟨hcnt ▸ hbits.pending.cnt, hacc ▸ hbits.pending.acc⟩⟩
  rw [outBytes, hout, hlen]
  exact hbits.output

theorem Wrote.put {ps : List (Nat × Nat)} (hw : Wrote cfg coefs n h) (hpart : partAt cfg coefs n = some ps)
    (hx : putAll ps h = some x) : Wrote cfg coefs (n + 1) x := by
  obtain ⟨qs, hqs, hbits⟩ := hw
  refine ⟨qs ++ ps, by rw [sentPairs, hqs, hpart]; rfl, ?_⟩
  rw [pairBits_append]
  exact hbits.of_putAll hx

end

/-- A coding sends part `n` of the strip, or misses where it has a symbol without a code; want of room in `OUT` aside. -/
def CodesPart (cfg : Config) (coefs : Nat → Component → Fin 64 → Int) (n : Nat) : Coding → Prop
  | .coded x => Wrote cfg coefs (n + 1) x
  | .missed _ => partAt cfg coefs n = none
  | .full => True

section

variable {cfg : Config} {coefs : Nat → Component → Fin 64 → Int} {j : Nat} {c : Component} {h : Hardware}

/-- `ENCDC` sends a DC part when the difference of its registers is that of the strip (43 R109). -/
theorem encodeDc_codesPart (tick : Nat) (hdiff : dcDiff c h = coefs j c 0 - dcBefore coefs j c)
    (hcat : category (dcDiff c h) < 16) (hw : Wrote cfg coefs (6 * j + 2 * componentIndex c) h) :
    CodesPart cfg coefs (6 * j + 2 * componentIndex c) (encodeDc cfg tick c h) := by
  have hpart : partAt cfg coefs (6 * j + 2 * componentIndex c) = dcPairs cfg (tableSel c) (dcDiff c h) := by
    rw [partAt_dc, dcPart, hdiff]
  rw [encodeDc_eq cfg tick c h hcat]
  cases hps : dcPairs cfg (tableSel c) (dcDiff c h) with
  | none => exact hpart.trans hps
  | some ps =>
    rw [Option.elim_some]
    cases hx : putAll ps h with
    | none => trivial
    | some x => exact (hw.put (hpart.trans hps) hx).of_writer rfl rfl rfl rfl

/-- `ENCAC` sends an AC part when its coefficients are those of the strip (43 R112). -/
theorem encodeAc_codesPart (tick : Nat) (hcf : ∀ i : Fin 64, (getComp h.cf c)[i].toInt = coefs j c i)
    (hcat : ∀ i ≠ 0, category (coefs j c i) < 16) (hw : Wrote cfg coefs (6 * j + 2 * componentIndex c + 1) h) :
    CodesPart cfg coefs (6 * j + 2 * componentIndex c + 1) (encodeAc cfg tick c h) := by
  have hvalues : (fun i : Fin 64 => (getComp h.cf c)[i].toInt) = coefs j c := funext hcf
  have hsends := sends_encodeAc cfg tick c h fun k h1 h63 => by
    obtain ⟨i, hi, hik⟩ := mem_acValues (List.mem_map_of_mem (f := fun k => coefs j c (zzNat k))
      (List.mem_range'_1.2 ⟨h1, by omega⟩ : k ∈ List.range' 1 63))
    rw [show zigzag (getComp h.cf c) k = coefs j c i from (hcf (zzNat k)).trans hik.symm]
    exact hcat i hi
  rw [hvalues] at hsends
  have hpart := partAt_ac cfg coefs j c
  rw [acPart] at hpart
  cases hcoding : encodeAc cfg tick c h with
  | full => trivial
  | missed x => rw [hcoding] at hsends; exact hpart.trans hsends
  | coded y =>
    rw [hcoding] at hsends
    obtain ⟨ps, x, k, hps, hx, rfl⟩ := hsends
    exact (hw.put (hpart.trans hps) hx).of_writer rfl rfl rfl rfl

end

end Sys2Proof.Laws
end

section
/-! PROOFS. A run computes and sends the parts of its launch state's strip in order, and so reports what `encode_strip` gives
(45 R143), however the host's operations stand between its steps (20 R52). -/

namespace Sys2Proof.Laws

open Sys2Proof Sys2Proof.Machine Sys2Proof.Claims

/-! ## The strip of a launch state -/

/-- The samples of component `c` in macroblock column `j` of the strip that `h` holds. -/
def launchSamples (h : Hardware) (j : Nat) (c : Component) : Block Sample :=
  stripSamples (arithOps .q30) (bytesOf h.pix h.pixlen.toNat) h.width.toNat (8 * j) c

/-- Their coefficients. -/
def launchCoefs (h : Hardware) (j : Nat) : Component → Fin 64 → Int :=
  stripCoefs (arithOps .q30) (bytesOf h.pix h.pixlen.toNat) h.width.toNat (bytesOf h.ql h.qllen.toNat)
    (bytesOf h.qc h.qclen.toNat) (8 * j)

/-- Samples after `n` passes of the transform. -/
def afterPasses (n : Nat) (b : Block Sample) : Block Sample :=
  match n with
  | 0 => b
  | 1 => rowTransform (arithOps .q30) b
  | _ => transform (arithOps .q30) b

@[simp] theorem length_bytesOf (m : Memory) (n : Nat) : (bytesOf m n).length = n := by simp [bytesOf]

theorem getD_bytesOf (m : Memory) {n a : Nat} (ha : a < n) : (bytesOf m n).getD a 0 = readByte m a := by
  simp [bytesOf, ha]

/-- A clamped column is a column of the strip, so that its pixel's record lies in the buffer (40 R81, R82). -/
theorem pixelAddress_lt {width r col j : Nat} (hw : 0 < width) (hr : r < 8) :
    pixelAddress width r (stripColumn width col j) + 2 < width * 32 := by
  have hcol : stripColumn width col j ≤ width - 1 := Nat.min_le_right _ _
  have hrow : r * width ≤ 7 * width := Nat.mul_le_mul_right width (by omega)
  unfold pixelAddress
  omega

/-- What `CSC` reads in a checked run are the samples of the strip (40 R80). -/
theorem sampleBlock_eq_launchSamples {h : Hardware} (hok : launchOk h) (hw : h.width ≠ 0) (tick j : Nat) (c : Component) :
    sampleBlock (arithOps .q30) tick (8 * j) h c = launchSamples h j c := by
  obtain ⟨-, -, hpix⟩ := hok
  have hpos : 0 < h.width.toNat := Nat.pos_of_ne_zero fun h0 => hw (BitVec.eq_of_toNat_eq h0)
  ext i hi
  have haddr := pixelAddress_lt (col := 8 * j) (j := i % 8) hpos (show i / 8 < 8 by omega)
  rw [← hpix] at haddr
  simp only [sampleBlock_getElem, channelByte_of_width_ne_zero hw, launchSamples, stripSamples, Vector.getElem_ofFn]
  rw [getD_bytesOf _ (by omega), getD_bytesOf _ (by omega), getD_bytesOf _ (by omega)]
  rfl

section

variable {h : Hardware} (hok : launchOk h)

include hok

theorem launchStep_eq (c : Component) {i : Nat} (hi : i < 64) :
    ((if c = .y then bytesOf h.ql h.qllen.toNat else bytesOf h.qc h.qclen.toNat).getD i 0).toNat = stepOf h c i := by
  obtain ⟨hql, hqc, -⟩ := hok
  rw [stepOf_eq, hql, hqc]
  split <;> rw [getD_bytesOf _ hi]

theorem launchTables_positive (hsteps : stepsNonzero h) :
    tablesPositive (bytesOf h.ql h.qllen.toNat) (bytesOf h.qc h.qclen.toNat) := by
  obtain ⟨hql, hqc, -⟩ := hok
  rw [hql, hqc]
  have hbytes : ∀ m : Memory, (∀ i < 64, readByte m i ≠ 0) → ∀ b ∈ bytesOf m 64, b ≠ 0 := fun m hm b hb => by
    obtain ⟨i, hi, rfl⟩ := List.mem_map.1 hb
    exact hm i (List.mem_range.1 hi)
  exact ⟨length_bytesOf _ _, length_bytesOf _ _, hbytes h.ql fun i hi => (hsteps i hi).1,
    hbytes h.qc fun i hi => (hsteps i hi).2⟩

/-- The ranges of 42 R103, by which every difference and every coefficient has a symbol (43 R117). -/
theorem launchCoefs_ranges (hsteps : stepsNonzero h) (j : Nat) (c : Component) :
    (∀ i, -(2 ^ 15) ≤ launchCoefs h j c i ∧ launchCoefs h j c i < 2 ^ 15) ∧
      category (launchCoefs h j c 0 - dcBefore (launchCoefs h) j c) < 16 ∧
      ∀ i ≠ 0, category (launchCoefs h j c i) < 16 := by
  have hpos := launchTables_positive hok hsteps
  have hq30 : ∀ j c, launchCoefs h j c = stripCoefs q30Ops (bytesOf h.pix h.pixlen.toNat) h.width.toNat
      (bytesOf h.ql h.qllen.toNat) (bytesOf h.qc h.qclen.toNat) (8 * j) c := fun j c => stripCoefs_q30 _ _ _ _ _ c
  refine ⟨fun i => ?_, ?_, fun i hi => ?_⟩
  · rw [hq30]
    by_cases hi : i = 0
    · have hdc := stripCoefs_dc_within (bytesOf h.pix h.pixlen.toNat) h.width.toNat hpos c (8 * j)
      rw [hi]
      omega
    · have hac := abs_le.1 (abs_stripCoefs_ac_le (bytesOf h.pix h.pixlen.toNat) h.width.toNat (8 * j) hpos c hi)
      omega
  · unfold dcBefore
    rw [hq30, hq30]
    split
    · rw [sub_zero]
      exact (category_dc_le _ _ hpos c _).trans_lt (by decide)
    · exact (category_dc_diff_le _ _ hpos c _ _).trans_lt (by decide)
  · rw [hq30]
    exact (category_ac_le _ _ hpos c _ hi).trans_lt (by decide)

/-- `QNT` of the transformed samples leaves the coefficients of the strip (42 R100, R103). -/
theorem quantizeBlock_eq_launchCoefs (hsteps : stepsNonzero h) {x : Hardware} (hl : sameLaunch h x) (tick j : Nat)
    {c : Component} (hsb : getComp x.sb c = afterPasses 2 (launchSamples h j c)) (i : Fin 64) :
    (quantizeBlock (arithOps .q30) tick x c)[i].toInt = launchCoefs h j c i := by
  obtain ⟨hlo, hhi⟩ := (launchCoefs_ranges hok hsteps j c).1 i
  have hcoef : launchCoefs h j c i =
      (arithOps .q30).roundDiv (afterPasses 2 (launchSamples h j c))[i] (stepOf h c i) := by
    rw [← launchStep_eq hok c i.isLt]
    rfl
  rw [Fin.getElem_fin, quantizeBlock_getElem, stepOf_alike hl, hsb, quantize, if_neg (stepOf_ne_zero hsteps c i.isLt),
    hcoef]
  exact toInt_coefOfInt (hcoef ▸ hlo) (hcoef ▸ hhi) _

end

/-! ## What a run holds at each phase -/

/-- How many parts of its column a run has sent at a phase. -/
def partsIn : Phase → Nat
  | .encac0 => 1
  | .encdc1 => 2
  | .encac1 => 3
  | .encdc2 => 4
  | .encac2 => 5
  | _ => 0

theorem partsIn_encdcPhase (c : Component) : partsIn (encdcPhase c) = 2 * componentIndex c := by cases c <;> rfl

theorem partsIn_encacPhase (c : Component) : partsIn (encacPhase c) = 2 * componentIndex c + 1 := by cases c <;> rfl

/-- The predictor of a component after `k` parts of column `j`: the DC coefficient that was sent last (43 R109). -/
def predictorAt (coefs : Nat → Component → Fin 64 → Int) (j k : Nat) (c : Component) : Int :=
  if 2 * componentIndex c < k then coefs j c 0 else dcBefore coefs j c

/-- In a macroblock column the run from `h₀` holds what is live of the column's samples, coefficients and predictors, and has
sent the parts before it. -/
structure InColumn (cfg : Config) (h₀ : Hardware) (h : Hardware) : Prop where
  wrote : Wrote cfg (launchCoefs h₀) (6 * (h.seq.col.toNat / 8) + partsIn h.seq.ph) h
  pred : ∀ c, (getComp h.pred c).toInt = predictorAt (launchCoefs h₀) (h.seq.col.toNat / 8) (partsIn h.seq.ph) c
  samples : ∀ c n, passesAt h.seq.ph c = some n → getComp h.sb c = afterPasses n (launchSamples h₀ (h.seq.col.toNat / 8) c)
  coefs : ∀ c, coefsReady h.seq.ph c = true → ∀ i : Fin 64,
    (getComp h.cf c)[i].toInt = launchCoefs h₀ (h.seq.col.toNat / 8) c i

/-- What a run from `h₀` holds at its phase. -/
structure OnTrack (cfg : Config) (h₀ h : Hardware) : Prop where
  running : h.seq.ph ≠ .idle
  busy : h.status = statusBusy
  canonical : h.out.wf = true
  column : inMcu h.seq.ph = true → InColumn cfg h₀ h
  last : h.seq.ph = .fin → Wrote cfg (launchCoefs h₀) (6 * columnsIn h₀.width.toNat) h
  flushed : h.seq.ph = .halt → ∃ ps, sentPairs cfg (launchCoefs h₀) (6 * columnsIn h₀.width.toNat) = some ps ∧
    outBytes h = streamBytes (pairBits ps)

/-- The run from `h₀` has ended with the result of its strip. -/
structure EndedRight (cfg : Config) (h₀ h : Hardware) : Prop where
  idle : h.seq.ph = .idle
  result : reports (stripResult cfg h₀) h

/-! ## Results -/

section

variable {cfg : Config} {h₀ : Hardware} (hq : cfg.arith = .q30)

include hq

theorem stripResult_of_launchOk (hok : launchOk h₀) :
    stripResult cfg h₀ =
      match sentPairs cfg (launchCoefs h₀) (6 * columnsIn h₀.width.toNat) with
      | none => .error .unsupportedSymbol
      | some ps => .ok (streamBytes (pairBits ps)) := by
  obtain ⟨hql, hqc, hpix⟩ := hok
  rw [← stripPairs_eq_sentPairs, stripResult, encodeStrip, length_bytesOf, length_bytesOf, length_bytesOf,
    if_neg (by omega), if_neg (by omega), hq]
  rfl

theorem endedRight_endRun (hok : launchOk h₀) {h : Hardware} {ps : List (Nat × Nat)}
    (hps : sentPairs cfg (launchCoefs h₀) (6 * columnsIn h₀.width.toNat) = some ps)
    (hout : outBytes h = streamBytes (pairBits ps)) : EndedRight cfg h₀ (endRun h) := by
  refine ⟨rfl, ?_⟩
  rw [stripResult_of_launchOk hq hok, hps]
  exact ⟨rfl, hout⟩

theorem endedRight_missed (hok : launchOk h₀) {n : Nat} (hnone : partAt cfg (launchCoefs h₀) n = none)
    (hn : n < 6 * columnsIn h₀.width.toNat) (h : Hardware) : EndedRight cfg h₀ (takeTrap 3 h) := by
  refine ⟨rfl, ?_⟩
  rw [stripResult_of_launchOk hq hok, sentPairs_succ_eq_none _ _ hnone hn]
  exact ⟨rfl, rfl⟩

end

/-! ## The sequencer's operations -/

/-- The check of `CHK` is that of `encode_strip` (45 R137). -/
theorem onTrack_checkLaunch {cfg : Config} {h₀ h : Hardware} (hl : sameLaunch h₀ h) (ht : OnTrack cfg h₀ h) :
    OnTrack cfg h₀ (checkLaunch h) ∨ EndedRight cfg h₀ (checkLaunch h) := by
  obtain ⟨hwidth, hpix, hql, hqc, -⟩ := hl
  unfold checkLaunch
  rw [hwidth, hpix, hql, hqc]
  split_ifs with hlens hlen
  · refine .inr ⟨rfl, ?_⟩
    rw [stripResult, encodeStrip, length_bytesOf, length_bytesOf, if_pos hlens]
    exact ⟨rfl, rfl⟩
  · refine .inr ⟨rfl, ?_⟩
    rw [stripResult, encodeStrip, length_bytesOf, length_bytesOf, length_bytesOf, if_neg hlens, if_pos hlen]
    exact ⟨rfl, rfl⟩
  · exact .inl
      { running := by simp
        busy := ht.busy
        canonical := ht.canonical
        column := by simp [inMcu]
        last := by simp
        flushed := by simp }

/-- At the start of a column nothing of it is live. -/
theorem inColumn_csc {cfg : Config} {h₀ h : Hardware} {j : Nat} (hph : h.seq.ph = .csc) (hj : h.seq.col.toNat / 8 = j)
    (hwrote : Wrote cfg (launchCoefs h₀) (6 * j) h)
    (hpred : ∀ c, (getComp h.pred c).toInt = dcBefore (launchCoefs h₀) j c) : InColumn cfg h₀ h where
  wrote := by rw [hph, hj]; exact hwrote
  pred c := by rw [hph, hj, hpred]; exact (if_neg (Nat.not_lt_zero _)).symm
  samples c n hn := by rw [hph] at hn; cases hn
  coefs c hc := by rw [hph] at hc; cases hc

/-- `INIT` starts with an empty writer and predictors of 0 (45 R138). -/
theorem onTrack_initStrip {cfg : Config} {h₀ h : Hardware} (hl : sameLaunch h₀ h) (h0 : h.outlen = 0)
    (ht : OnTrack cfg h₀ h) : OnTrack cfg h₀ (initStrip h) := by
  have hwrote : Wrote cfg (launchCoefs h₀) 0 (initStrip h) := ⟨[], rfl, wroteBits_nil rfl rfl h0 ht.canonical⟩
  have hph : (initStrip h).seq.ph = .csc ∨ (initStrip h).seq.ph = .fin := by
    rw [initStrip_phase]; split <;> simp
  exact
    { running := fun hidle => by rw [hidle] at hph; rcases hph with hp | hp <;> cases hp
      busy := ht.busy
      canonical := ht.canonical
      column := fun hmcu => by
        have hcsc : (initStrip h).seq.ph = .csc := hph.resolve_right fun hfin => by rw [hfin] at hmcu; cases hmcu
        exact inColumn_csc (j := 0) hcsc (by simp [initStrip_seq]) hwrote fun c => by cases c <;> rfl
      last := fun hfin => by
        have hzero : h₀.width.toNat = 0 := by
          rw [← hl.1]
          by_contra hw
          rw [initStrip_phase, if_pos (by omega)] at hfin
          cases hfin
        rw [hzero]
        exact hwrote
      flushed := fun hhalt => by rw [hhalt] at hph; rcases hph with hp | hp <;> cases hp }

/-! ## The datapath's operations -/

/-- In a column everything else of `OnTrack` is as before while `STATUS` and `OUT` are. -/
theorem onTrack_of_inColumn {cfg : Config} {h₀ h : Hardware} (hmcu : inMcu h.seq.ph = true) (hbusy : h.status = statusBusy)
    (hc : InColumn cfg h₀ h) : OnTrack cfg h₀ h where
  running hidle := by rw [hidle] at hmcu; cases hmcu
  busy := hbusy
  canonical := by
    obtain ⟨_, _, hbits⟩ := hc.wrote
    exact hbits.canonical
  column _ := hc
  last hfin := by rw [hfin] at hmcu; cases hmcu
  flushed hhalt := by rw [hhalt] at hmcu; cases hmcu

/-- A datapath operation goes on within the column; what is live at the next phase is to be shown. -/
theorem onTrack_blocks {cfg : Config} {h₀ h : Hardware} (ht : OnTrack cfg h₀ h) (hmcu : inMcu h.seq.ph = true)
    {sb : Triple (Block Sample)} {cf : Triple (Block (BitVec 16))} {ph : Phase} (hph : inMcu ph = true)
    (hparts : partsIn ph = partsIn h.seq.ph)
    (hsamples : ∀ c n, passesAt ph c = some n →
      getComp sb c = afterPasses n (launchSamples h₀ (h.seq.col.toNat / 8) c))
    (hcoefs : ∀ c, coefsReady ph c = true → ∀ i : Fin 64,
      (getComp cf c)[i].toInt = launchCoefs h₀ (h.seq.col.toNat / 8) c i) :
    OnTrack cfg h₀ { h with sb := sb, cf := cf, seq := { h.seq with ph := ph } } := by
  have hc := ht.column hmcu
  refine onTrack_of_inColumn hph ht.busy ⟨?_, fun c => ?_, hsamples, hcoefs⟩
  · simp only [hparts]
    exact hc.wrote.of_writer rfl rfl rfl rfl
  · simp only [hparts]
    exact hc.pred c

/-- After a pass over one component the samples of the others are as they were. -/
theorem samples_setComp {c : Component} {sb : Triple (Block Sample)} {b : Block Sample} {ph ph' : Phase} {n : Nat}
    {target : Nat → Component → Block Sample} (hb : b = target n c)
    (hnext : ∀ c', passesAt ph' c' = if c' = c then some n else passesAt ph c')
    (hsb : ∀ c n, passesAt ph c = some n → getComp sb c = target n c) :
    ∀ c' m, passesAt ph' c' = some m → getComp (setComp sb c b) c' = target m c' := by
  intro c' m hm
  rw [hnext] at hm
  by_cases hc : c' = c
  · rw [if_pos hc] at hm
    cases hm
    rw [hc, getComp_setComp, hb]
  · rw [if_neg hc] at hm
    rw [getComp_setComp_of_ne sb hc]
    exact hsb c' m hm

section

variable {cfg : Config} {h₀ h : Hardware} (ht : OnTrack cfg h₀ h) {c : Component}

include ht

theorem onTrack_rowPass (hph : h.seq.ph = dctrPhase c) :
    OnTrack cfg h₀ (rowPass (arithOps .q30) c (dctcPhase c) h) := by
  have hmcu : inMcu h.seq.ph = true := by rw [hph]; cases c <;> rfl
  have hc := ht.column hmcu
  have hb := hc.samples c 0 (by rw [hph]; exact passesAt_dctrPhase c)
  refine onTrack_blocks ht hmcu (by cases c <;> rfl) (by rw [hph]; cases c <;> rfl)
    (samples_setComp (target := fun n c => afterPasses n (launchSamples h₀ (h.seq.col.toNat / 8) c)) (n := 1)
      (by rw [hb]; rfl) ?_ hc.samples) (fun c' hc' => hc.coefs c' ?_)
  · rw [hph]; exact passesAt_dctcPhase c
  · rw [hph, ← coefsReady_dctcPhase]; exact hc'

theorem onTrack_columnPass (hph : h.seq.ph = dctcPhase c) :
    OnTrack cfg h₀ (columnPass (arithOps .q30) c (qntPhase c) h) := by
  have hmcu : inMcu h.seq.ph = true := by rw [hph]; cases c <;> rfl
  have hc := ht.column hmcu
  have hb := hc.samples c 1 (by rw [hph, passesAt_dctcPhase, if_pos rfl])
  refine onTrack_blocks ht hmcu (by cases c <;> rfl) (by rw [hph]; cases c <;> rfl)
    (samples_setComp (target := fun n c => afterPasses n (launchSamples h₀ (h.seq.col.toNat / 8) c)) (n := 2)
      (by rw [hb]; rfl) ?_ hc.samples) (fun c' hc' => hc.coefs c' ?_)
  · rw [hph]; exact passesAt_qntPhase c
  · rw [hph, ← coefsReady_qntPhase]; exact hc'

theorem onTrack_quantizePass (hok : launchOk h₀) (hsteps : stepsNonzero h₀) (hl : sameLaunch h₀ h)
    (hph : h.seq.ph = qntPhase c) (tick : Nat) :
    OnTrack cfg h₀ (quantizePass (arithOps .q30) tick c (afterQnt c) h) := by
  have hmcu : inMcu h.seq.ph = true := by rw [hph]; cases c <;> rfl
  have hc := ht.column hmcu
  have hb := quantizeBlock_eq_launchCoefs hok hsteps hl tick _
    (hc.samples c 2 (by rw [hph, passesAt_qntPhase, if_pos rfl]))
  refine onTrack_blocks ht hmcu (by cases c <;> rfl) (by rw [hph]; cases c <;> rfl)
    (fun c' n hn => hc.samples c' n ?_) (fun c' hc' => ?_)
  · rw [passesAt_afterQnt] at hn
    rw [hph]
    split at hn
    · cases hn
    · exact hn
  · by_cases hcc : c' = c
    · rw [hcc, getComp_setComp]
      exact hb
    · rw [coefsReady_afterQnt, beq_false_of_ne hcc, Bool.false_or, ← hph] at hc'
      rw [getComp_setComp_of_ne h.cf hcc]
      exact hc.coefs c' hc'

/-- `CSC` finds its column aligned, and reads the pixels of the launch (40 R80). -/
theorem onTrack_colorConvert (hok : launchOk h₀) (hw : h₀.width ≠ 0) (hl : sameLaunch h₀ h)
    (haligned : h.seq.col.toNat % 8 = 0) {col : BitVec 16} (hs : Scheduled h.seq (.csc col)) (tick : Nat) :
    OnTrack cfg h₀ (colorConvert (arithOps .q30) tick col h) := by
  have hph : h.seq.ph = .csc := hs.phase
  have hsamples : ∀ c, sampleBlock (arithOps .q30) tick col.toNat h c = launchSamples h₀ (h.seq.col.toNat / 8) c := fun c => by
    have hpos : h₀.width.toNat ≠ 0 := fun h0 => hw (BitVec.eq_of_toNat_eq h0)
    rw [← sampleBlock_alike hl hpos _ tick tick, ← sampleBlock_eq_launchSamples hok hw tick, hs.csc_operand.2,
      show 8 * (h.seq.col.toNat / 8) = h.seq.col.toNat by omega]
  rw [colorConvert_of_scheduled hs]
  refine onTrack_blocks ht (by rw [hph]; rfl) rfl (by rw [hph]; rfl) (fun c n hn => ?_) (fun c hc => by cases hc)
  cases hn
  cases c with
  | y => exact hsamples .y
  | cb => exact hsamples .cb
  | cr => exact hsamples .cr

end

end Sys2Proof.Laws
end

section
/-! PROOFS. The codings of a run send its strip's parts in order, so that the whole run ends with the result of `encode_strip`
(45 R143), whatever turns the host takes beside it (20 R47, R52). -/

namespace Sys2Proof.Laws

open Sys2Proof Sys2Proof.Machine Sys2Proof.Claims

/-! ## The predictors -/

section

variable (coefs : Nat → Component → Fin 64 → Int) (j : Nat) (c c' : Component)

theorem predictorAt_before_dc : predictorAt coefs j (2 * componentIndex c) c = dcBefore coefs j c :=
  if_neg (Nat.lt_irrefl _)

theorem predictorAt_after_dc :
    predictorAt coefs j (2 * componentIndex c + 1) c' =
      if c' = c then coefs j c 0 else predictorAt coefs j (2 * componentIndex c) c' := by
  cases c <;> cases c' <;> simp [predictorAt, componentIndex]

/-- An AC part leaves the predictors. -/
theorem predictorAt_after_ac (i : Nat) : predictorAt coefs j (2 * i + 2) c = predictorAt coefs j (2 * i + 1) c := by
  have hiff : 2 * componentIndex c < 2 * i + 2 ↔ 2 * componentIndex c < 2 * i + 1 := by omega
  simp only [predictorAt, hiff]

/-- After the six parts of a column the predictors are those of the next. -/
theorem predictorAt_six : predictorAt coefs j 6 c = dcBefore coefs (j + 1) c := by
  have hle := componentIndex_le c
  rw [predictorAt, if_pos (by omega), dcBefore, if_neg (Nat.succ_ne_zero j), Nat.add_sub_cancel]

end

/-! ## The codings -/

section

variable {cfg : Config} {h₀ h x : Hardware}

/-- A coding that goes on within its column. -/
theorem onTrack_gotoPhase (ht : OnTrack cfg h₀ h) (hmcu : inMcu h.seq.ph = true) (hc : coderOnly h x) {ph : Phase}
    (hph : inMcu ph = true) (hw : Wrote cfg (launchCoefs h₀) (6 * (h.seq.col.toNat / 8) + partsIn ph) x)
    (hpred : ∀ c, (getComp x.pred c).toInt = predictorAt (launchCoefs h₀) (h.seq.col.toNat / 8) (partsIn ph) c)
    (hsamples : ∀ c, passesAt ph c = none) (hready : ∀ c, coefsReady h.seq.ph c = true) :
    OnTrack cfg h₀ (gotoPhase ph x) := by
  have hseq := coderOnly_seq hc
  have hcf : x.cf = h.cf := by rw [hc]
  refine onTrack_of_inColumn hph ((coderOnly_status hc).trans ht.busy) ⟨?_, fun c => ?_, fun c n hn => ?_, fun c _ => ?_⟩
  · rw [gotoPhase_seq, hseq]
    exact hw.of_writer rfl rfl rfl rfl
  · rw [gotoPhase_seq, hseq]
    exact hpred c
  · rw [gotoPhase_seq, hsamples c] at hn
    cases hn
  · rw [gotoPhase_seq, gotoPhase_cf, hseq, hcf]
    exact (ht.column hmcu).coefs c (hready c)

/-- After the last part of a column a run goes on to the next column, or has sent the whole strip (45 R139). -/
theorem onTrack_nextMcu (ht : OnTrack cfg h₀ h) (hl : sameLaunch h₀ h) (hcol : h.seq.col.toNat < h.width.toNat)
    (haligned : h.seq.col.toNat % 8 = 0) (hc : coderOnly h x)
    (hw : Wrote cfg (launchCoefs h₀) (6 * (h.seq.col.toNat / 8) + 6) x)
    (hpred : ∀ c, (getComp x.pred c).toInt = predictorAt (launchCoefs h₀) (h.seq.col.toNat / 8) 6 c) (tick : Nat) :
    OnTrack cfg h₀ (nextMcu tick x) := by
  have hseq := coderOnly_seq hc
  have hwidth := (sameLaunch_of_coderOnly hc).1
  have hbusy : (nextMcu tick x).status = statusBusy := (coderOnly_status hc).trans ht.busy
  have hlt := h.width.isLt
  have hw' : Wrote cfg (launchCoefs h₀) (6 * (h.seq.col.toNat / 8 + 1)) (nextMcu tick x) := hw.of_writer rfl rfl rfl rfl
  by_cases hnext : h.seq.col.toNat + 8 < h.width.toNat
  · have hq : (nextMcu tick x).seq = { ph := .csc, col := nextColumn tick h.seq.col } := by simp [hseq, hwidth, hnext]
    have hj : (nextMcu tick x).seq.col.toNat / 8 = h.seq.col.toNat / 8 + 1 := by
      rw [hq, nextColumn_toNat (by omega)]
      omega
    exact onTrack_of_inColumn (by rw [hq]; rfl) hbusy
      (inColumn_csc (by rw [hq]) hj hw' fun c => (hpred c).trans (predictorAt_six _ _ c))
  · have hph : (nextMcu tick x).seq.ph = .fin := by simp [hseq, hwidth, hnext]
    have hcolumns : columnsIn h₀.width.toNat = h.seq.col.toNat / 8 + 1 := by
      rw [← hl.1]
      unfold columnsIn
      omega
    exact
      { running := by rw [hph]; decide
        busy := hbusy
        canonical := by
          obtain ⟨_, _, hbits⟩ := hw'
          exact hbits.canonical
        column := fun hmcu => by rw [hph] at hmcu; cases hmcu
        last := fun _ => hcolumns ▸ hw'
        flushed := fun hhalt => by rw [hph] at hhalt; cases hhalt }

end

/-- A coding of part `n` goes on with the run on its track, or misses where the strip has no stream. -/
theorem coding_onTrack {P : Hardware → Prop} {cfg : Config} {h₀ : Hardware} {s t : State} {next : Hardware → Hardware}
    {r : Coding} {n : Nat} (hq : cfg.arith = .q30) (hok : launchOk h₀) (hn : n < 6 * columnsIn h₀.width.toNat)
    (hP : reaches P r) (hr : CodesPart cfg (launchCoefs h₀) n r)
    (hnext : ∀ x, P x → Wrote cfg (launchCoefs h₀) (n + 1) x → OnTrack cfg h₀ (next x))
    (h : codingOutcome s next r = .next t) : OnTrack cfg h₀ t.hw ∨ EndedRight cfg h₀ t.hw := by
  rcases codingOutcome_cases h with ⟨x, rfl, rfl⟩ | ⟨x, rfl, rfl⟩
  · exact .inl (hnext x hP hr)
  · exact .inr (endedRight_missed hq hok hr hn x)

/-- A column in progress: the launch is checked, no step of the quantizer is zero, and the column starts in the strip. -/
structure ColumnOf (h₀ h : Hardware) : Prop where
  launch : sameLaunch h₀ h
  passed : launchOk h₀
  steps : stepsNonzero h₀
  aligned : h.seq.col.toNat % 8 = 0
  inside : h.seq.col.toNat < h.width.toNat

section

variable {h₀ h : Hardware} (hcol : ColumnOf h₀ h)

include hcol

theorem ColumnOf.width_ne_zero : h₀.width ≠ 0 := launchWidth_ne_zero hcol.inside.pos hcol.launch

/-- The column's parts are parts of the strip. -/
theorem ColumnOf.part_lt {k : Nat} (hk : k < 6) : 6 * (h.seq.col.toNat / 8) + k < 6 * columnsIn h₀.width.toNat := by
  have hinside := hcol.inside
  rw [← hcol.launch.1]
  unfold columnsIn
  omega

end

section

variable {cfg : Config} {h₀ : Hardware} {s t : State} (hq : cfg.arith = .q30) (hcfg : s.cfg = cfg)
  (ht : OnTrack cfg h₀ s.hw) (hcol : ColumnOf h₀ s.hw) {c : Component}

include hq hcfg ht hcol

theorem onTrack_encdc (hph : s.hw.seq.ph = encdcPhase c) (h : exec (encdcOp c) s = .next t) :
    OnTrack cfg h₀ t.hw ∨ EndedRight cfg h₀ t.hw := by
  have hmcu : inMcu s.hw.seq.ph = true := by rw [hph]; cases c <;> rfl
  have hready : ∀ c', coefsReady s.hw.seq.ph c' = true := by rw [hph]; cases c <;> exact fun _ => rfl
  obtain ⟨hwrote, hpred, -, hcoefs⟩ := ht.column hmcu
  rw [hph, partsIn_encdcPhase] at hwrote hpred
  have hdc := hcoefs c (hready c) 0
  have hdiff : dcDiff c s.hw = launchCoefs h₀ (s.hw.seq.col.toNat / 8) c 0 -
      dcBefore (launchCoefs h₀) (s.hw.seq.col.toNat / 8) c := by
    rw [← hdc, ← predictorAt_before_dc, ← hpred]
    rfl
  have hle := componentIndex_le c
  rw [exec_encdc, hcfg] at h
  refine coding_onTrack hq hcol.passed (hcol.part_lt (by omega))
    (reaches_and (encodeDc_coderOnly _ _ _ _) (writerOnly_encodeDc _ _ _ _))
    (encodeDc_codesPart _ hdiff (hdiff ▸ (launchCoefs_ranges hcol.passed hcol.steps _ c).2.1) hwrote)
    (fun x ⟨hc, hx⟩ hw => onTrack_gotoPhase ht hmcu hc (by cases c <;> rfl) ?_ (fun c' => ?_)
      (by cases c <;> exact fun _ => rfl) hready) h
  · rw [partsIn_encacPhase]
    exact hw
  · rw [partsIn_encacPhase, predictorAt_after_dc, hx]
    by_cases hcc : c' = c
    · rw [hcc, if_pos rfl]
      simp only [updatePred, getComp_setComp]
      exact hdc
    · rw [if_neg hcc]
      simp only [updatePred, getComp_setComp_of_ne _ hcc]
      exact hpred c'

theorem onTrack_encac (hph : s.hw.seq.ph = encacPhase c) (h : exec (encacOp c) s = .next t) :
    OnTrack cfg h₀ t.hw ∨ EndedRight cfg h₀ t.hw := by
  have hmcu : inMcu s.hw.seq.ph = true := by rw [hph]; cases c <;> rfl
  have hready : ∀ c', coefsReady s.hw.seq.ph c' = true := by rw [hph]; cases c <;> exact fun _ => rfl
  obtain ⟨hwrote, hpred, -, hcoefs⟩ := ht.column hmcu
  rw [hph, partsIn_encacPhase] at hwrote hpred
  have hle := componentIndex_le c
  rw [exec_encac, hcfg] at h
  refine coding_onTrack hq hcol.passed (hcol.part_lt (k := 2 * componentIndex c + 1) (by omega))
    (reaches_and (encodeAc_coderOnly _ _ _ _) (scanOnly_encodeAc _ _ _ _))
    (encodeAc_codesPart _ (hcoefs c (hready c)) (launchCoefs_ranges hcol.passed hcol.steps _ c).2.2 hwrote)
    (fun x ⟨hc, hx⟩ hw => ?_) h
  have hpred' : ∀ c', (getComp x.pred c').toInt =
      predictorAt (launchCoefs h₀) (s.hw.seq.col.toNat / 8) (2 * componentIndex c + 2) c' := fun c' => by
    rw [predictorAt_after_ac, hx]
    exact hpred c'
  cases c with
  | y => exact onTrack_gotoPhase ht hmcu hc rfl hw hpred' (fun _ => rfl) hready
  | cb => exact onTrack_gotoPhase ht hmcu hc rfl hw hpred' (fun _ => rfl) hready
  | cr => exact onTrack_nextMcu ht hcol.launch hcol.inside hcol.aligned hc hw hpred' _

end

/-- `FIN` completes the stream of the whole strip (44 R128). -/
theorem onTrack_flush {cfg : Config} {h₀ h x : Hardware} {tick : Nat} (ht : OnTrack cfg h₀ h) (hph : h.seq.ph = .fin)
    (hx : flush tick h = some x) : OnTrack cfg h₀ (gotoPhase .halt x) := by
  have hc := writerOnly_coderOnly (flush_writerOnly hx)
  obtain ⟨ps, hps, hbits⟩ := ht.last hph
  have hout := hbits.of_flush hx
  exact
    { running := by simp
      busy := (coderOnly_status hc).trans ht.busy
      canonical := (storedFrom_flush (storedFrom_refl ht.canonical) hx).canonical
      column := by simp [inMcu]
      last := by simp
      flushed := fun _ => ⟨ps, hps, hout⟩ }

/-! ## One operation -/

section

variable {h₀ h : Hardware} (hu : Underway h₀ h)

include hu

theorem Underway.sameLaunch : sameLaunch h₀ h := by
  cases hu with
  | chk _ hl | init _ _ hl | halt _ _ hl => exact hl
  | column _ _ hs | fin _ _ hs => exact hs.launch

theorem Underway.outlen_of_init (hph : h.seq.ph = .init) : h.outlen = 0 := by
  cases hu with
  | init _ _ _ hsent => exact hsent.1
  | column hmcu => rw [hph] at hmcu; cases hmcu
  | chk hp | fin hp | halt hp => rw [hph] at hp; cases hp

theorem Underway.passed_of_halt (hph : h.seq.ph = .halt) : launchOk h₀ := by
  cases hu with
  | halt _ hok => exact hok
  | column hmcu => rw [hph] at hmcu; cases hmcu
  | chk hp | init hp | fin hp => rw [hph] at hp; cases hp

theorem Underway.columnOf (hmcu : inMcu h.seq.ph = true) (hsteps : h₀.width = 0 ∨ stepsNonzero h₀) : ColumnOf h₀ h := by
  cases hu with
  | column _ hcol hs =>
    exact ⟨hs.launch, hs.passed, hsteps.resolve_left (launchWidth_ne_zero hcol.pos hs.launch), hs.aligned, hcol⟩
  | chk hp | init hp | fin hp | halt hp => rw [hp] at hmcu; cases hmcu

end

/-- The scheduled operation keeps a run on its track, or ends it with the right result. -/
theorem exec_onTrack {cfg : Config} {h₀ : Hardware} {i : Instr} {s t : State} (hq : cfg.arith = .q30) (hcfg : s.cfg = cfg)
    (hsteps : h₀.width = 0 ∨ stepsNonzero h₀) (hu : Underway h₀ s.hw) (ht : OnTrack cfg h₀ s.hw)
    (hs : Scheduled s.hw.seq i) (h : exec i s = .next t) : OnTrack cfg h₀ t.hw ∨ EndedRight cfg h₀ t.hw := by
  have hph := hs.phase
  have hl := hu.sameLaunch
  have harith : s.cfg.arith = .q30 := hcfg ▸ hq
  cases coreOp_of_not_isHost hs.not_isHost with
  | chk => rw [exec_chk, nextHw_eq_next] at h; rw [h]; exact onTrack_checkLaunch hl ht
  | init => rw [exec_init, nextHw_eq_next] at h; rw [h]; exact .inl (onTrack_initStrip hl (hu.outlen_of_init hph) ht)
  | csc col =>
    have hcol := hu.columnOf (by rw [hph]; rfl) hsteps
    rw [(exec_csc_eq_next.1 h).2, harith]
    exact .inl (onTrack_colorConvert ht hcol.passed hcol.width_ne_zero hl hcol.aligned hs _)
  | dctr c =>
    rw [exec_dctr, nextHw_eq_next] at h
    rw [h, harith]
    exact .inl (onTrack_rowPass ht (hph.trans (phaseOf_dctrOp c)))
  | dctc c =>
    rw [exec_dctc, nextHw_eq_next] at h
    rw [h, harith]
    exact .inl (onTrack_columnPass ht (hph.trans (phaseOf_dctcOp c)))
  | qnt c =>
    rw [phaseOf_qntOp] at hph
    have hcol := hu.columnOf (by rw [hph]; cases c <;> rfl) hsteps
    rw [exec_qnt, nextHw_eq_next] at h
    rw [h, harith]
    exact .inl (onTrack_quantizePass ht hcol.passed hcol.steps hl hph _)
  | encdc c =>
    rw [phaseOf_encdcOp] at hph
    exact onTrack_encdc hq hcfg ht (hu.columnOf (by rw [hph]; cases c <;> rfl) hsteps) hph h
  | encac c =>
    rw [phaseOf_encacOp] at hph
    exact onTrack_encac hq hcfg ht (hu.columnOf (by rw [hph]; cases c <;> rfl) hsteps) hph h
  | fin =>
    obtain ⟨x, hx, rfl⟩ := exec_fin_eq_next.1 h
    exact .inl (onTrack_flush ht hph hx)
  | halt =>
    obtain ⟨ps, hps, hout⟩ := ht.flushed hph
    rw [exec_halt, nextHw_eq_next] at h
    rw [h]
    exact .inr (endedRight_endRun hq (hu.passed_of_halt hph) hps hout)
  | putb | trap => exact absurd hph hs.phase_ne_idle

/-! ## The whole run -/

/-- On its turn, and while a run is in progress, the host only answers. -/
theorem step_of_hostTurn {s : State} (hturn : currentTurn s = .host) (hl : hostListing s.env.listing = true)
    (hbusy : s.hw.status.busy = true) : ∃ u, step s = .next u ∧ u.hw = s.hw := by
  rcases listingActivity_cases hl with ha | ⟨i, rest, hi, ha⟩
  · simp only [step, nextActivity, hturn, ha]
    exact ⟨_, rfl, rfl⟩
  · obtain ⟨r, hr⟩ := (exec_hostOutcome hi (advance rest s)).answer_of_busy hbusy
    simp only [step, nextActivity, hturn, ha]
    exact ⟨_, hr, rfl⟩

/-- A host's turn during a run is a listed one: with none listed the core moves (log entry 2). -/
theorem turns_length_pos {s : State} (hturn : currentTurn s = .host) (hph : s.hw.seq.ph ≠ .idle) :
    0 < s.env.turns.length := by
  unfold currentTurn at hturn
  split at hturn
  · rename_i x xs hx
    rw [hx]
    exact Nat.succ_pos _
  · rw [if_neg hph] at hturn
    cases hturn

theorem undisturbed_step {s u : State} (hu : undisturbed s) (h : step s = .next u) :
    undisturbed u ∧ u.cfg = s.cfg ∧ u.env.turns.length = s.env.turns.length - 1 := by
  obtain ⟨-, hcfg, hlist, hturns⟩ := step_of_hostListing hu.2 h
  exact ⟨⟨fun x hx => hu.1 x (List.mem_of_mem_tail (hturns ▸ hx)), hlist⟩, hcfg, by rw [hturns, List.length_tail]⟩

/-- A run on its track ends with the right result, by induction on the steps of the core and the listed turns still to come:
a step of the core takes one of the former, a turn of the host one of the latter. -/
theorem onTrack_ends {cfg : Config} {h₀ : Hardware} (hq : cfg.arith = .q30) (hsteps : h₀.width = 0 ∨ stepsNonzero h₀)
    (m : Nat) : ∀ {s : State}, s.cfg = cfg → undisturbed s → Underway h₀ s.hw → OnTrack cfg h₀ s.hw →
    stepsLeft s.hw.width.toNat s.hw.seq + s.env.turns.length = m → ∃ n t, endsAfter n s t ∧ EndedRight cfg h₀ t.hw := by
  induction m using Nat.strong_induction_on with
  | _ m ih =>
    intro s hcfg hu hunder ht hm
    have hph := ht.running
    cases hturn : currentTurn s with
    | reset => exact absurd hturn (currentTurn_ne_reset hu)
    | host =>
      have hpos := turns_length_pos hturn hph
      obtain ⟨u, hstep, hhw⟩ := step_of_hostTurn hturn hu.2 (by rw [ht.busy]; rfl)
      obtain ⟨hu', hcfg', hlen⟩ := undisturbed_step hu hstep
      obtain ⟨n, t, he, hend⟩ := ih (stepsLeft u.hw.width.toNat u.hw.seq + u.env.turns.length)
        (by rw [hhw]; omega) (hcfg'.trans hcfg) hu' (hhw ▸ hunder) (hhw ▸ ht) rfl
      exact ⟨n + 1, t, endsAfter_succ hph hstep he, hend⟩
    | core =>
      obtain ⟨i, hop⟩ := exists_scheduledOp hph
      have hsch : Scheduled s.hw.seq i := ⟨hop, hunder.csc_column⟩
      obtain ⟨u, hx, hrun⟩ := exec_underway (s := advance s.env.listing s) hunder hsch
      have hstep : step s = .next u := (step_of_coreTurn hturn hsch).trans hx
      obtain ⟨hu', hcfg', hlen⟩ := undisturbed_step hu hstep
      rcases exec_onTrack (s := advance s.env.listing s) hq hcfg hsteps hunder ht hsch hx with ht' | hend
      · cases hrun with
        | ends hidle => exact absurd hidle ht'.running
        | goesOn _ hunder' hleft =>
          rw [advance_hw] at hleft
          obtain ⟨n, t, he, hend⟩ := ih (stepsLeft u.hw.width.toNat u.hw.seq + u.env.turns.length)
            (by omega) (hcfg'.trans hcfg) hu' hunder' ht' rfl
          exact ⟨n + 1, t, endsAfter_succ hph hstep he, hend⟩
      · exact ⟨1, u, endsAfter_succ hph hstep ⟨rfl, hend.idle, by simp⟩, hend⟩

/-- At the launch nothing has been sent. -/
theorem onTrack_started {cfg : Config} {h : Hardware} (hs : started h) (hwf : h.out.wf = true) : OnTrack cfg h h := by
  obtain ⟨hph, hst, -⟩ := hs
  exact
    { running := by simp [hph]
      busy := hst
      canonical := hwf
      column := by simp [hph, inMcu]
      last := by simp [hph]
      flushed := by simp [hph] }

/-- Settles O54: the run is on its track at the launch, each operation of the core keeps it there or ends it with the result of
the strip, and the host's turns change nothing of it. -/
theorem runIsEncodeStrip : Obligations.RunIsEncodeStrip := by
  intro s hs hu hq hwf hsteps
  obtain ⟨hph, -, h0⟩ := id hs
  obtain ⟨n, t, he, hend⟩ := onTrack_ends hq hsteps _ rfl hu (.chk hph (sameLaunch_refl s.hw) ⟨h0, rfl⟩)
    (onTrack_started hs hwf) rfl
  exact ⟨n, t, he, hend.result⟩

end Sys2Proof.Laws
end
